-- ==== Sys2Proof/Word.lean ====
section
/-! DEFINITION. The word types of the CORE (00_scope.md R9, R13): unsigned words of 8, 16, 32 and 64 bits,
and the binary32 value, which is a 32-bit word until an operation of Machine/Float.lean reads it as a number. -/

namespace Sys2Proof

/-- `u8` of R13: a slot index or a parameter address (field `a` of a command). -/
abbrev U8 := BitVec 8

/-- `u16` of R13: a frame offset, a block length, the scheduler cursor. -/
abbrev U16 := BitVec 16

/-- `u32` of R13: the PRNG state and the status word. -/
abbrev U32 := BitVec 32

/-- `u64` of R13: a command word and a frame record. -/
abbrev U64 := BitVec 64

/-- An IEEE 754 binary32 value by its bits (R9): sign 31, exponent 30:23, fraction 22:0.
`f32(bits)` and `bits(x)` of R13 are the identity on this type. -/
abbrev F32 := BitVec 32

/-- A slot index, equal to the index of its voice bank and to its kind number (R101, R180). -/
abbrev Slot := Fin 8

end Sys2Proof
end

