-- ==== Sys2Proof/Syntax.lean ====
section
/-! DEFINITION. The rows of spec/opcode_table.json, one constructor each (30_encoding.md R90 to R92, R101), and what
can be presented to the machine. The first eight are the host commands of format CMD64 with the fields each uses (R91);
the last eight are the renderers that the 3-bit kind tag of format KIND3 selects inside VPROC (R160). -/

namespace Sys2Proof

inductive Instr where
  /-- R211 -/
  | nop
  /-- R212 -/
  | reset
  /-- R213: `d` is the sample rate -/
  | setrate (d : F32)
  /-- R214: `a` is the parameter address, `d` the value -/
  | pwrite (a : U8) (d : F32)
  /-- R215: `n` is the block length -/
  | blkbegin (n : U16)
  /-- R216: `a` is the slot index, `n` the frame offset, `d` the velocity -/
  | evpush (a : U8) (n : U16) (d : F32)
  /-- R217 -/
  | frame
  /-- R219 -/
  | rdstat
  /-- R162, kind tag 0 -/
  | kick
  /-- R163, kind tag 1 -/
  | snare
  /-- R164, kind tag 2 -/
  | clap
  /-- R165, kind tag 3 -/
  | hatclosed
  /-- R166, kind tag 4 -/
  | hatopen
  /-- R167, kind tag 5 -/
  | tom
  /-- R168, kind tag 6 -/
  | perc1
  /-- R169, kind tag 7 -/
  | perc2
  deriving DecidableEq, Repr

/-- What stands at the machine's input. `command` is a word on the command port (R90). `renderer` is NO input of the
hardware: it is the model's own way to run the renderer a kind tag selects as a step of its own (DESIGN CHOICE, log 7,
safe: it only adds behaviours). -/
inductive Presented where
  | command (w : U64)
  | renderer (k : BitVec 3)
  deriving DecidableEq, Repr

end Sys2Proof
end

