-- ==== Sys2Proof/Decode.lean ====
section
/-! DEFINITION. Decoding (30_encoding.md R90 to R95, R97, R101, R104), total on any word and any bytes and rejecting by
name, and the encoder written from the same rules (R107). Fields a command does not use are ignored (R91), and the
encoder writes zero there. -/

namespace Sys2Proof

/-! ### The fields of a command word (R90) -/

/-- `op = cmd[63:56]` -/
def cmdOp (w : U64) : U8 := w.extractLsb' 56 8
/-- `a = cmd[55:48]` -/
def cmdA (w : U64) : U8 := w.extractLsb' 48 8
/-- `n = cmd[47:32]` -/
def cmdN (w : U64) : U16 := w.extractLsb' 32 16
/-- `d = cmd[31:0]` -/
def cmdD (w : U64) : F32 := w.extractLsb' 0 32

/-- Why a decoder gives no instruction. -/
inductive Reject where
  /-- opcodes 0x08 to 0xFF (R97): the CORE sets `BADCMD` and goes on (R220) -/
  | reservedOpcode (op : U8)
  /-- fewer than the eight bytes of a command word (R104) -/
  | shortWord (length : Nat)
  deriving DecidableEq, Repr

/-- The command a 64-bit word stands for (R92, R93 to R95). -/
def decodeCommand (w : U64) : Except Reject Instr :=
  match (cmdOp w).toNat with
  | 0x00 => .ok .nop
  | 0x01 => .ok .reset
  | 0x02 => .ok (.setrate (cmdD w))
  | 0x03 => .ok (.pwrite (cmdA w) (cmdD w))
  | 0x04 => .ok (.blkbegin (cmdN w))
  | 0x05 => .ok (.evpush (cmdA w) (cmdN w) (cmdD w))
  | 0x06 => .ok .frame
  | 0x07 => .ok .rdstat
  | _ => .error (.reservedOpcode (cmdOp w))

/-- The renderer a kind tag selects (R101, R160). The tag is closed: there is no ninth value and no default case. -/
def decodeKind (k : BitVec 3) : Instr :=
  match k.toFin with
  | 0 => .kick
  | 1 => .snare
  | 2 => .clap
  | 3 => .hatclosed
  | 4 => .hatopen
  | 5 => .tom
  | 6 => .perc1
  | 7 => .perc2

/-- The decoder. -/
def decode : Presented → Except Reject Instr
  | .command w => decodeCommand w
  | .renderer k => .ok (decodeKind k)

/-! ### Words over a byte-wide channel (R63) -/

/-- The `k` low bytes of a word in the order a byte-wide channel carries them, the least significant first. -/
def leBytes {n : Nat} : Nat → BitVec n → List (BitVec 8)
  | 0, _ => []
  | k + 1, w => w.extractLsb' 0 8 :: leBytes k (w >>> 8)

/-- The bytes of a 64-bit word: a command word or a frame record. -/
def bytesOfWord (w : U64) : List (BitVec 8) := leBytes 8 w

/-- The bytes of a 32-bit word: a status word. -/
def bytesOfWord32 (w : U32) : List (BitVec 8) := leBytes 4 w

/-- The word of eight bytes, the least significant first. -/
def wordOfBytes (b0 b1 b2 b3 b4 b5 b6 b7 : BitVec 8) : U64 := b7 ++ b6 ++ b5 ++ b4 ++ b3 ++ b2 ++ b1 ++ b0

/-- One command from the front of a byte stream, and the rest: always exactly one 64-bit word (R104). -/
def decodeBytes : List (BitVec 8) → Except Reject (Instr × List (BitVec 8))
  | b0 :: b1 :: b2 :: b3 :: b4 :: b5 :: b6 :: b7 :: rest =>
    match decodeCommand (wordOfBytes b0 b1 b2 b3 b4 b5 b6 b7) with
    | .ok i => .ok (i, rest)
    | .error r => .error r
  | short => .error (.shortWord short.length)

/-! ### The encoder -/

/-- `cmd = (op << 56) | (a << 48) | (n << 32) | d` (R107). -/
def commandWord (op : U8) (a : U8) (n : U16) (d : F32) : U64 := op ++ a ++ n ++ d

/-- The word or tag of an instruction, unused fields zero. -/
def encode : Instr → Presented
  | .nop => .command (commandWord 0x00 0 0 0)
  | .reset => .command (commandWord 0x01 0 0 0)
  | .setrate d => .command (commandWord 0x02 0 0 d)
  | .pwrite a d => .command (commandWord 0x03 a 0 d)
  | .blkbegin n => .command (commandWord 0x04 0 n 0)
  | .evpush a n d => .command (commandWord 0x05 a n d)
  | .frame => .command (commandWord 0x06 0 0 0)
  | .rdstat => .command (commandWord 0x07 0 0 0)
  | .kick => .renderer 0
  | .snare => .renderer 1
  | .clap => .renderer 2
  | .hatclosed => .renderer 3
  | .hatopen => .renderer 4
  | .tom => .renderer 5
  | .perc1 => .renderer 6
  | .perc2 => .renderer 7

/-! ### The words of spec/opcode_table.json -/

/-- A word of the table as it stands at the machine's input. A KIND3 row has 3 bits, in whole bytes 8; a CMD64 row has
64. A byte above 7 is no kind tag. -/
def presentedOfTable (nbits w : Nat) : Option Presented :=
  if nbits ≤ 8 then (if w < 8 then some (.renderer (BitVec.ofNat 3 w)) else none)
  else some (.command (BitVec.ofNat 64 w))

/-- The instruction the decoder reads from a word of the table. -/
def decodeTableWord (nbits w : Nat) : Option Instr :=
  match presentedOfTable nbits w with
  | some p =>
    match decode p with
    | .ok i => some i
    | .error _ => none
  | none => none

end Sys2Proof
end

