-- ==== Sys2Proof/Machine/Float.lean ====
section
/-! DEFINITION. IEEE 754 binary32 arithmetic (00_scope.md R9, 40_primitives.md R130): one operation, one rounding to
nearest with ties to even, gradual underflow, no fused operation, no flag and no trap.
Every finite value is an integer count of the smallest subnormal, `2^-149`; each operation forms the exact rational
result in that unit and `roundMag` narrows it once. -/

namespace Sys2Proof

/-- The sign bit (bit 31). -/
def F32.sign (x : F32) : Bool := decide (2 ^ 31 ≤ x.toNat)

/-- Bits 30:0: exponent and fraction. Their order as integers is the order of magnitudes. -/
def F32.low (x : F32) : Nat := x.toNat % 2 ^ 31

/-- The biased exponent field, bits 30:23. -/
def F32.expo (x : F32) : Nat := F32.low x / 2 ^ 23

/-- The fraction field, bits 22:0. -/
def F32.frac (x : F32) : Nat := x.toNat % 2 ^ 23

/-- The bits below the sign of an infinity. -/
def F32.infLow : Nat := 0x7F800000

def F32.isNaN (x : F32) : Bool := decide (F32.infLow < F32.low x)

def F32.isInf (x : F32) : Bool := decide (F32.low x = F32.infLow)

/-- `isfinite(x)` of R13: neither NaN nor an infinity. -/
def F32.isFinite (x : F32) : Bool := decide (F32.low x < F32.infLow)

def F32.isZero (x : F32) : Bool := decide (F32.low x = 0)

/-- The magnitude of a finite value in units of `2^-149`. -/
def F32.mag (x : F32) : Nat :=
  if F32.expo x = 0 then F32.frac x else (2 ^ 23 + F32.frac x) * 2 ^ (F32.expo x - 1)

/-- The signed value of a finite word in units of `2^-149`. -/
def F32.val (x : F32) : Int := if F32.sign x then -(F32.mag x : Int) else (F32.mag x : Int)

/-- The signed value of a finite word. -/
def F32.toRat (x : F32) : Rat := (F32.val x : Rat) / (2 ^ 149 : Rat)

/-- The order of the comparisons: negative magnitudes below positive ones, both zeros at 0, infinities at the ends. -/
def F32.key (x : F32) : Int := if F32.sign x then -(F32.low x : Int) else (F32.low x : Int)

/-- A word from its sign and its low 31 bits. -/
def F32.pack (neg : Bool) (low : Nat) : F32 := BitVec.ofNat 32 ((if neg then 2 ^ 31 else 0) + low)

def F32.posZero : F32 := 0x00000000#32
def F32.negZero : F32 := 0x80000000#32
def F32.posInf : F32 := 0x7F800000#32
def F32.negInf : F32 := 0xFF800000#32

/-- The NaN an invalid operation returns. DESIGN CHOICE (log 5, unsafe only where a NaN exists): R130 says that NaN
payload and sign never matter, and no NaN reaches a state variable or an output. -/
def F32.qNaN : F32 := 0x7FC00000#32

/-- The exponent of the rounding unit of the rational `n / d`: 24 significant bits are kept, and never less than the
unit `2^-149` itself. -/
def F32.roundExp (n d : Nat) : Nat := Nat.log2 (n / d) - 23

/-- `n / d` to the nearest integer, ties to even. -/
def F32.divEven (n d : Nat) : Nat :=
  if d < 2 * (n % d) ∨ (2 * (n % d) = d ∧ n / d % 2 = 1) then n / d + 1 else n / d

/-- Bits 30:0 of the binary32 value nearest to `(n / d) * 2^-149`, ties to even, overflow to infinity. The sum carries a
significand that rounds up to `2^24` into the exponent. -/
def F32.roundMag (n d : Nat) : Nat :=
  min (F32.roundExp n d * 2 ^ 23 + F32.divEven n (d * 2 ^ F32.roundExp n d)) F32.infLow

/-- The binary32 value nearest to `± (n / d) * 2^-149` (R9). -/
def F32.round (neg : Bool) (n d : Nat) : F32 := F32.pack neg (F32.roundMag n d)

/-- Unary minus: the sign bit only (R9). -/
def F32.neg (x : F32) : F32 := x ^^^ 0x80000000#32

/-- `abs`: the sign bit only (R9). -/
def F32.abs (x : F32) : F32 := x &&& 0x7FFFFFFF#32

/-- `x + y` of two finite values: the exact sum rounded once; an exact zero is `+0.0` unless both are negative. -/
def F32.addFinite (x y : F32) : F32 :=
  let v := F32.val x + F32.val y
  if v = 0 then (if F32.sign x && F32.sign y then F32.negZero else F32.posZero)
  else F32.round (decide (v < 0)) v.natAbs 1

/-- The binary32 `+` (R9). -/
def F32.add (x y : F32) : F32 :=
  if F32.isNaN x || F32.isNaN y then F32.qNaN
  else if F32.isInf x then (if F32.isInf y && (F32.sign x != F32.sign y) then F32.qNaN else x)
  else if F32.isInf y then y
  else F32.addFinite x y

/-- The binary32 `-` (R9). -/
def F32.sub (x y : F32) : F32 := F32.add x (F32.neg y)

/-- The binary32 `*` (R9). -/
def F32.mul (x y : F32) : F32 :=
  let sg := F32.sign x != F32.sign y
  if F32.isNaN x || F32.isNaN y then F32.qNaN
  else if F32.isInf x || F32.isInf y then
    (if F32.isZero x || F32.isZero y then F32.qNaN else F32.pack sg F32.infLow)
  else F32.round sg (F32.mag x * F32.mag y) (2 ^ 149)

/-- The binary32 `/` (R9). Every divisor of the spec is at least 0.001 (R130); the zero cases are IEEE 754's. -/
def F32.div (x y : F32) : F32 :=
  let sg := F32.sign x != F32.sign y
  if F32.isNaN x || F32.isNaN y then F32.qNaN
  else if F32.isInf x then (if F32.isInf y then F32.qNaN else F32.pack sg F32.infLow)
  else if F32.isInf y then F32.pack sg 0
  else if F32.isZero y then (if F32.isZero x then F32.qNaN else F32.pack sg F32.infLow)
  else F32.round sg (F32.mag x * 2 ^ 149) (F32.mag y)

/-- `x < y`; false when either is a NaN (R9). -/
def F32.lt (x y : F32) : Bool := !F32.isNaN x && !F32.isNaN y && decide (F32.key x < F32.key y)

/-- `x <= y`; false when either is a NaN (R9). -/
def F32.le (x y : F32) : Bool := !F32.isNaN x && !F32.isNaN y && decide (F32.key x ≤ F32.key y)

/-- `x == y`; false when either is a NaN, true of the two zeros (R9). -/
def F32.eq (x y : F32) : Bool := !F32.isNaN x && !F32.isNaN y && decide (F32.key x = F32.key y)

/-- `FLOOR`: property P-FLOOR of R10 fixes it on every operand, so it is defined and not a parameter. Of a zero it
returns that zero. DEDUCED (log 4, safe): the rules apply FLOOR to positive values only. -/
def F32.floor (x : F32) : F32 :=
  if F32.isNaN x || F32.isInf x || F32.isZero x then x
  else if F32.sign x then F32.round true ((F32.mag x + 2 ^ 149 - 1) / 2 ^ 149 * 2 ^ 149) 1
  else F32.round false (F32.mag x / 2 ^ 149 * 2 ^ 149) 1

/-- `int` of R196: an integral value at or above zero as an integer. -/
def F32.toInt (x : F32) : Nat := if F32.sign x then 0 else F32.mag x / 2 ^ 149

/-- How many binary32 values apart two values lie: the "units in the last place" of P-ACC (R10). -/
def F32.ulpDist (x y : F32) : Nat := (F32.key x - F32.key y).natAbs

end Sys2Proof
end

