-- ==== Sys2Proof/Machine/Literals.lean ====
section
/-! DEFINITION. The binary32 literals of the pseudocode, by the bit patterns of 00_scope.md R11 (`c0_5` is the literal
0.5, `n3` is -3.0, `c1_0em4` is 1.0e-4). -/

namespace Sys2Proof

/-- `0.0` -/
def Lit.c0 : F32 := 0x00000000#32

/-- `1.0` -/
def Lit.c1 : F32 := 0x3F800000#32

/-- `-1.0` -/
def Lit.n1 : F32 := 0xBF800000#32

/-- `0.5` -/
def Lit.c0_5 : F32 := 0x3F000000#32

/-- `2.0` -/
def Lit.c2 : F32 := 0x40000000#32

/-- `3.0` -/
def Lit.c3 : F32 := 0x40400000#32

/-- `-3.0` -/
def Lit.n3 : F32 := 0xC0400000#32

/-- `4.0` -/
def Lit.c4 : F32 := 0x40800000#32

/-- `5.0` -/
def Lit.c5 : F32 := 0x40A00000#32

/-- `9.0` -/
def Lit.c9 : F32 := 0x41100000#32

/-- `10.0` -/
def Lit.c10 : F32 := 0x41200000#32

/-- `12.0` -/
def Lit.c12 : F32 := 0x41400000#32

/-- `20.0` -/
def Lit.c20 : F32 := 0x41A00000#32

/-- `27.0` -/
def Lit.c27 : F32 := 0x41D80000#32

/-- `30.0` -/
def Lit.c30 : F32 := 0x41F00000#32

/-- `0.001` -/
def Lit.c0_001 : F32 := 0x3A83126F#32

/-- `0.005` -/
def Lit.c0_005 : F32 := 0x3BA3D70A#32

/-- `0.08` -/
def Lit.c0_08 : F32 := 0x3DA3D70A#32

/-- `0.15` -/
def Lit.c0_15 : F32 := 0x3E19999A#32

/-- `0.25` -/
def Lit.c0_25 : F32 := 0x3E800000#32

/-- `0.3` -/
def Lit.c0_3 : F32 := 0x3E99999A#32

/-- `0.4` -/
def Lit.c0_4 : F32 := 0x3ECCCCCD#32

/-- `0.45` -/
def Lit.c0_45 : F32 := 0x3EE66666#32

/-- `0.6` -/
def Lit.c0_6 : F32 := 0x3F19999A#32

/-- `0.7` -/
def Lit.c0_7 : F32 := 0x3F333333#32

/-- `0.8` -/
def Lit.c0_8 : F32 := 0x3F4CCCCD#32

/-- `0.9` -/
def Lit.c0_9 : F32 := 0x3F666666#32

/-- `1.2` -/
def Lit.c1_2 : F32 := 0x3F99999A#32

/-- `1.5` -/
def Lit.c1_5 : F32 := 0x3FC00000#32

/-- `2.5` -/
def Lit.c2_5 : F32 := 0x40200000#32

/-- `1.0e-4` -/
def Lit.c1_0em4 : F32 := 0x38D1B717#32

/-- `1.0e-9` -/
def Lit.c1_0em9 : F32 := 0x3089705F#32

/-- `1.0e-20` -/
def Lit.c1_0em20 : F32 := 0x1E3CE508#32

/-- `55.0` -/
def Lit.c55 : F32 := 0x425C0000#32

/-- `140.0` -/
def Lit.c140 : F32 := 0x430C0000#32

/-- `180.0` -/
def Lit.c180 : F32 := 0x43340000#32

/-- `200.0` -/
def Lit.c200 : F32 := 0x43480000#32

/-- `250.0` -/
def Lit.c250 : F32 := 0x437A0000#32

/-- `400.0` -/
def Lit.c400 : F32 := 0x43C80000#32

/-- `700.0` -/
def Lit.c700 : F32 := 0x442F0000#32

/-- `800.0` -/
def Lit.c800 : F32 := 0x44480000#32

/-- `1000.0` -/
def Lit.c1000 : F32 := 0x447A0000#32

/-- `1200.0` -/
def Lit.c1200 : F32 := 0x44960000#32

/-- `1500.0` -/
def Lit.c1500 : F32 := 0x44BB8000#32

/-- `2000.0` -/
def Lit.c2000 : F32 := 0x44FA0000#32

/-- `2500.0` -/
def Lit.c2500 : F32 := 0x451C4000#32

/-- `3000.0` -/
def Lit.c3000 : F32 := 0x453B8000#32

/-- `4000.0` -/
def Lit.c4000 : F32 := 0x457A0000#32

/-- `5000.0` -/
def Lit.c5000 : F32 := 0x459C4000#32

/-- `6000.0` -/
def Lit.c6000 : F32 := 0x45BB8000#32

/-- `7000.0` -/
def Lit.c7000 : F32 := 0x45DAC000#32

/-- `8000.0` -/
def Lit.c8000 : F32 := 0x45FA0000#32

/-- `12000.0` -/
def Lit.c12000 : F32 := 0x463B8000#32

/-- `44100.0` -/
def Lit.c44100 : F32 := 0x472C4400#32

/-- `60000.0` -/
def Lit.c60000 : F32 := 0x476A6000#32

/-- `192000.0` -/
def Lit.c192000 : F32 := 0x483B8000#32

/-- `TWO_PI` -/
def Lit.twoPi : F32 := 0x40C90FDB#32

/-- `HALF_PI` -/
def Lit.halfPi : F32 := 0x3FC90FDB#32

end Sys2Proof
end

