-- ==== Sys2Proof/Config.lean ====
section
/-! DEFINITION. The parameters of the CORE (00_scope.md R8, R18): what is constant for the life of an instance and is
no state. Fixed and decided values stand as definitions. What the spec leaves open, the elementary functions `Num`
(R10), the seeds and the reverb tap delays, is one opaque value with the properties the spec demands of it. -/

namespace Sys2Proof

/-! ### Fixed and decided values (R8) -/

/-- `NVOICE` -/
def Config.nVoice : Nat := 8
/-- `DENORM_THRESH`, 1.0e-20 -/
def Config.denormThresh : F32 := Lit.c1_0em20
/-- `SR_RESET`, 44100.0 -/
def Config.srReset : F32 := Lit.c44100
/-- `SR_MIN`, 1.0 -/
def Config.srMin : F32 := Lit.c1
/-- `SR_MAX`, 192000.0 -/
def Config.srMax : F32 := Lit.c192000
/-- `RV_DEPTH`, words of each delay line -/
abbrev Config.rvDepth : Nat := 48000
/-- `RV_SECONDS`, 0.25 -/
def Config.rvSeconds : F32 := Lit.c0_25
/-- `RV_FEEDBACK`, 0.4 -/
def Config.rvFeedback : F32 := Lit.c0_4
/-- `COMP_ATTACK_S`, 0.005 -/
def Config.compAttackS : F32 := Lit.c0_005
/-- `COMP_RELEASE_S`, 0.08 -/
def Config.compReleaseS : F32 := Lit.c0_08
/-- `-COMP_THRESH_DB`, 12.0: R194 adds it -/
def Config.compThreshDb : F32 := Lit.c12
/-- `COMP_GAIN_POLE`, 0.5 -/
def Config.compGainPole : F32 := Lit.c0_5
/-- `COMP_FLOOR`, 1.0e-9 -/
def Config.compFloor : F32 := Lit.c1_0em9
/-- `BYPASS_EPS`, 0.001 -/
def Config.bypassEps : F32 := Lit.c0_001
/-- `ENV_FLOOR`, 1.0e-4 -/
def Config.envFloor : F32 := Lit.c1_0em4
/-- `LEVEL_MAX`, 2.0 -/
def Config.levelMax : F32 := Lit.c2
/-- `DECAY_MS_MIN`, 5.0 -/
def Config.decayMsMin : F32 := Lit.c5
/-- `DECAY_MS_MAX`, 60000.0 -/
def Config.decayMsMax : F32 := Lit.c60000
/-- `EVQ_DEPTH`, events -/
def Config.evqDepth : Nat := 64

/-! ### The elementary functions (R10) -/

/-- The record `Num`: five total functions on binary32 and the accuracy `Num.ulp_err` of P-ACC. The sixth, FLOOR, is
`F32.floor`: P-FLOOR leaves nothing of it open. P-DET holds of every function. -/
structure Numerics where
  sin : F32 → F32
  cos : F32 → F32
  exp : F32 → F32
  log10 : F32 → F32
  pow : F32 → F32 → F32
  ulpErr : Nat

/-- `lo <= x <= hi`, so in particular `x` is no NaN. -/
abbrev F32.Within (lo hi x : F32) : Prop := F32.le lo x = true ∧ F32.le x hi = true

/-- The binary32 value of pi/4 named by P-PAN. -/
def Lit.quarterPi : F32 := 0x3F490FDB#32
/-- `-4.0e-8` of P-EXP, nearest binary32. -/
def Lit.n4_0em8 : F32 := 0xB32BCC77#32
/-- `-80` of P-EXP. -/
def Lit.n80 : F32 := 0xC2A00000#32

/-- Where rounding to nearest even overflows (R9): half a unit above the greatest finite magnitude,
`2^128 - 2^104`. The tie goes to infinity, since that greatest significand is odd. -/
def F32.overflowAt : ℝ := 2 ^ 128 - 2 ^ 103

/-- `c` is the finite binary32 value nearest to `r`, and of two equally near the one whose low bit is 0. -/
def F32.NearestFinite (r : ℝ) (c : F32) : Prop :=
  F32.isFinite c = true ∧ ∀ y : F32, F32.isFinite y = true →
    |(F32.toRat c : ℝ) - r| < |(F32.toRat y : ℝ) - r| ∨
    (|(F32.toRat c : ℝ) - r| = |(F32.toRat y : ℝ) - r| ∧ (F32.toRat y = F32.toRat c ∨ F32.low c % 2 = 0))

/-- `c` is the correctly rounded binary32 value of the real `r`: an infinity where `r` itself overflows, elsewhere the
nearest finite value. -/
def F32.RoundsTo (r : ℝ) (c : F32) : Prop :=
  (F32.overflowAt ≤ r ∧ c = F32.posInf) ∨ (r ≤ -F32.overflowAt ∧ c = F32.negInf) ∨
  (|r| < F32.overflowAt ∧ F32.NearestFinite r c)

/-- P-ACC at one operand: `x` is a number, at most `err` units in the last place from the correctly rounded value
of `r`. -/
def F32.Accurate (err : Nat) (r : ℝ) (x : F32) : Prop :=
  F32.isNaN x = false ∧ ∀ c, F32.RoundsTo r c → F32.ulpDist x c ≤ err

/-- The properties every admissible `Num` has (R10), under the names the rule gives them. -/
structure Numerics.Admissible (N : Numerics) : Prop where
  /-- P-SIN -/
  sin_range : ∀ x, F32.isFinite x = true → F32.Within Lit.n1 Lit.c1 (N.sin x)
  cos_range : ∀ x, F32.isFinite x = true → F32.Within Lit.n1 Lit.c1 (N.cos x)
  sin_zero : N.sin Lit.c0 = Lit.c0
  cos_zero : N.cos Lit.c0 = Lit.c1
  /-- P-PAN -/
  pan_centre : F32.eq (N.cos Lit.quarterPi) (N.sin Lit.quarterPi) = true
  /-- P-EXP -/
  exp_range : ∀ x, F32.le x Lit.c0 = true → F32.Within Lit.c0 Lit.c1 (N.exp x)
  exp_negInf : N.exp F32.negInf = Lit.c0
  exp_lt_one : ∀ x, F32.le x Lit.n4_0em8 = true → F32.lt (N.exp x) Lit.c1 = true
  exp_pos : ∀ x, F32.Within Lit.n80 Lit.c0 x → F32.lt Lit.c0 (N.exp x) = true
  /-- P-POW -/
  pow_range : ∀ b e, F32.Within Lit.c0 Lit.c1 b → F32.isFinite e = true → F32.lt Lit.c0 e = true →
    F32.Within Lit.c0 Lit.c1 (N.pow b e)
  pow_zero : ∀ e, F32.isFinite e = true → F32.lt Lit.c0 e = true → N.pow Lit.c0 e = Lit.c0
  pow_one : ∀ e, F32.isFinite e = true → F32.lt Lit.c0 e = true → N.pow Lit.c1 e = Lit.c1
  pow_two_nonneg : ∀ x, F32.isNaN x = false → F32.le Lit.c0 (N.pow Lit.c2 x) = true
  pow_two_posInf : N.pow Lit.c2 F32.posInf = F32.posInf
  pow_two_negInf : N.pow Lit.c2 F32.negInf = Lit.c0
  pow_two_zero : N.pow Lit.c2 Lit.c0 = Lit.c1
  pow_ten_range : ∀ d, F32.isFinite d = true → F32.le d Lit.c0 = true → F32.Within Lit.c0 Lit.c1 (N.pow Lit.c10 d)
  pow_ten_zero : N.pow Lit.c10 Lit.c0 = Lit.c1
  /-- P-LOG -/
  log10_finite : ∀ x, F32.isFinite x = true → F32.lt Lit.c0 x = true → F32.isFinite (N.log10 x) = true
  /-- P-ACC, on the operand ranges the rules use (log 15): phases and pan angles, decays, envelopes and velocities to a
  positive power, semitone ratios, gain reductions, the follower above its floor. A semitone ratio may overflow (R155);
  `F32.RoundsTo` says what is correctly rounded there. -/
  sin_acc : ∀ x, F32.Within Lit.c0 Lit.twoPi x → F32.Accurate N.ulpErr (Real.sin (F32.toRat x)) (N.sin x)
  cos_acc : ∀ x, F32.Within Lit.c0 Lit.halfPi x → F32.Accurate N.ulpErr (Real.cos (F32.toRat x)) (N.cos x)
  exp_acc : ∀ x, F32.isFinite x = true → F32.le x Lit.c0 = true →
    F32.Accurate N.ulpErr (Real.exp (F32.toRat x)) (N.exp x)
  pow_acc : ∀ b e, F32.Within Lit.c0 Lit.c1 b → F32.Within Lit.c0_3 Lit.c2_5 e →
    F32.Accurate N.ulpErr ((F32.toRat b : ℝ) ^ (F32.toRat e : ℝ)) (N.pow b e)
  pow_two_acc : ∀ x, F32.isFinite x = true →
    F32.Accurate N.ulpErr ((2 : ℝ) ^ (F32.toRat x : ℝ)) (N.pow Lit.c2 x)
  pow_ten_acc : ∀ d, F32.isFinite d = true → F32.le d Lit.c0 = true →
    F32.Accurate N.ulpErr ((10 : ℝ) ^ (F32.toRat d : ℝ)) (N.pow Lit.c10 d)
  log10_acc : ∀ x, F32.isFinite x = true → F32.le Config.compFloor x = true →
    F32.Accurate N.ulpErr (Real.logb 10 (F32.toRat x)) (N.log10 x)

/-! ### The parameters of one instance -/

/-- Four values, one per reverb tap, in the order of R196: the two left taps, then the two right taps. -/
structure PerTap (α : Type) where
  l1 : α
  l2 : α
  r1 : α
  r2 : α
  deriving DecidableEq, Repr

/-- What the step function takes as arguments (R8, R18): `Num`, `SEED[0..7]`, `TAP_MS[0..3]`. -/
structure Params where
  num : Numerics
  seed : Vector U32 8
  tapMs : PerTap F32

/-- A tap delay is at or above 0 and below 250 ms (R196). -/
def Config.tapInRange (ms : F32) : Bool := F32.le Lit.c0 ms && F32.lt ms Lit.c250

/-- The parameters an instance of the CORE may have. -/
structure Params.Admissible (C : Params) : Prop where
  num : C.num.Admissible
  taps : Config.tapInRange C.tapMs.l1 = true ∧ Config.tapInRange C.tapMs.l2 = true ∧
    Config.tapInRange C.tapMs.r1 = true ∧ Config.tapInRange C.tapMs.r2 = true

/-- Parameters together with the proof that they are admissible. -/
structure Implementation where
  params : Params
  admissible : params.Admissible

/-! ### An admissible instance, so that the opaque one exists. Nothing else uses it. -/

theorem F32.key_natAbs_lt (x : F32) : (F32.key x).natAbs < 2 ^ 31 := by
  have : F32.low x < 2 ^ 31 := Nat.mod_lt _ (by decide)
  unfold F32.key
  split <;> omega

theorem F32.ulpDist_le (x y : F32) : F32.ulpDist x y ≤ 2 ^ 32 := by
  have := F32.key_natAbs_lt x
  have := F32.key_natAbs_lt y
  unfold F32.ulpDist
  omega

/-- Flat functions that meet every property of R10. -/
def Numerics.flat : Numerics where
  sin _ := Lit.c0
  cos x := if x = Lit.c0 then Lit.c1 else Lit.c0
  exp x := if x = F32.negInf then Lit.c0 else Lit.c0_5
  log10 _ := Lit.c0
  pow b e :=
    if b = Lit.c0 then Lit.c0
    else if b = Lit.c2 ∧ e = F32.posInf then F32.posInf
    else if b = Lit.c2 ∧ e = F32.negInf then Lit.c0
    else Lit.c1
  ulpErr := 2 ^ 32

theorem Numerics.flat_accurate {x : F32} (hx : F32.isNaN x = false) (r : ℝ) : F32.Accurate Numerics.flat.ulpErr r x :=
  ⟨hx, fun c _ => F32.ulpDist_le x c⟩

theorem Numerics.flat_pow_cases (b e : F32) :
    Numerics.flat.pow b e = Lit.c0 ∨ Numerics.flat.pow b e = Lit.c1 ∨ (b = Lit.c2 ∧ Numerics.flat.pow b e = F32.posInf) := by
  unfold Numerics.flat
  simp only
  split_ifs with h1 h2 h3
  · exact .inl rfl
  · exact .inr (.inr ⟨h2.1, rfl⟩)
  · exact .inl rfl
  · exact .inr (.inl rfl)

theorem Numerics.flat_cos_cases (x : F32) : Numerics.flat.cos x = Lit.c1 ∨ Numerics.flat.cos x = Lit.c0 := by
  unfold Numerics.flat
  simp only
  split_ifs <;> simp

theorem Numerics.flat_exp_cases (x : F32) : Numerics.flat.exp x = Lit.c0 ∨ Numerics.flat.exp x = Lit.c0_5 := by
  unfold Numerics.flat
  simp only
  split_ifs <;> simp

theorem Numerics.flat_cos_isNaN (x : F32) : F32.isNaN (Numerics.flat.cos x) = false := by
  rcases Numerics.flat_cos_cases x with h | h <;> rw [h] <;> decide

theorem Numerics.flat_exp_isNaN (x : F32) : F32.isNaN (Numerics.flat.exp x) = false := by
  rcases Numerics.flat_exp_cases x with h | h <;> rw [h] <;> decide

theorem Numerics.flat_pow_isNaN (b e : F32) : F32.isNaN (Numerics.flat.pow b e) = false := by
  rcases Numerics.flat_pow_cases b e with h | h | ⟨-, h⟩ <;> rw [h] <;> decide

theorem Numerics.flat_admissible : Numerics.flat.Admissible where
  sin_range _ _ := by simp only [Numerics.flat]; decide
  cos_range x _ := by
    by_cases h : x = Lit.c0
    · simp only [Numerics.flat, h, if_true]; decide
    · simp only [Numerics.flat, h, if_false]; decide
  sin_zero := rfl
  cos_zero := by decide
  pan_centre := by decide
  exp_range x _ := by
    by_cases h : x = F32.negInf
    · simp only [Numerics.flat, h, if_true]; decide
    · simp only [Numerics.flat, h, if_false]; decide
  exp_negInf := by decide
  exp_lt_one x _ := by
    by_cases h : x = F32.negInf
    · simp only [Numerics.flat, h, if_true]; decide
    · simp only [Numerics.flat, h, if_false]; decide
  exp_pos x hx := by
    by_cases h : x = F32.negInf
    · rw [h] at hx; exact absurd hx (by decide)
    · simp only [Numerics.flat, h, if_false]; decide
  pow_range b e hb _ _ := by
    rcases Numerics.flat_pow_cases b e with h | h | ⟨h, -⟩
    · rw [h]; decide
    · rw [h]; decide
    · rw [h] at hb; exact absurd hb (by decide)
  pow_zero _ _ _ := by simp only [Numerics.flat, if_true]
  pow_one _ _ _ := by
    simp only [Numerics.flat, show Lit.c1 ≠ Lit.c0 by decide, show Lit.c1 ≠ Lit.c2 by decide, if_false, false_and]
  pow_two_nonneg _ _ := by
    rcases Numerics.flat_pow_cases Lit.c2 ‹_› with h | h | ⟨-, h⟩ <;> rw [h] <;> decide
  pow_two_posInf := by decide
  pow_two_negInf := by decide
  pow_two_zero := by decide
  pow_ten_range d _ _ := by
    rcases Numerics.flat_pow_cases Lit.c10 d with h | h | ⟨h, -⟩
    · rw [h]; decide
    · rw [h]; decide
    · exact absurd h (by decide)
  pow_ten_zero := by decide
  log10_finite _ _ _ := by simp only [Numerics.flat]; decide
  sin_acc _ _ := Numerics.flat_accurate (by simp only [Numerics.flat]; decide) _
  cos_acc x _ := Numerics.flat_accurate (Numerics.flat_cos_isNaN x) _
  exp_acc x _ _ := Numerics.flat_accurate (Numerics.flat_exp_isNaN x) _
  pow_acc b e _ _ := Numerics.flat_accurate (Numerics.flat_pow_isNaN b e) _
  pow_two_acc x _ := Numerics.flat_accurate (Numerics.flat_pow_isNaN _ x) _
  pow_ten_acc d _ _ := Numerics.flat_accurate (Numerics.flat_pow_isNaN _ d) _
  log10_acc _ _ _ := Numerics.flat_accurate (by simp only [Numerics.flat]; decide) _

/-- An admissible instance, named only to show that the type is inhabited. -/
def Implementation.flat : Implementation where
  params := { num := Numerics.flat, seed := Vector.replicate 8 0#32, tapMs := ⟨Lit.c0, Lit.c0, Lit.c0, Lit.c0⟩ }
  admissible := { num := Numerics.flat_admissible, taps := by decide }

/-- THE FREE VALUES of the model, all in one: some admissible instance, of which nothing but its admissibility can be
known. It has no body: from the fact that an instance exists, it is one. -/
opaque Config.anyImplementation [Inhabited Implementation] : Implementation

/-- The instance this model is a model of. -/
def Config.implementation : Implementation := @Config.anyImplementation ⟨Implementation.flat⟩

/-- The parameters `exec` and `State.reset` use: `Num`, `SEED` and `TAP_MS`, every one a free value
(logs 1, 2, 3; safe). -/
def Config.params : Params := Config.implementation.params

/-- All that is known of them. -/
theorem Config.params_admissible : Config.params.Admissible := Config.implementation.admissible

end Sys2Proof
end

