-- ==== Sys2Proof/Machine/Rate.lean ====
section
/-! DEFINITION. The rate-dependent values (10_state.md R38): functions of the sample rate alone, which SETRATE and reset
store in `COMP.att`, `COMP.rel`, `REV.len` and `REV.tap` (43_masterbus.md R193, R196). -/

namespace Sys2Proof.Machine

/-- `EXP(-(1.0 / (t * SR)))`: the one-pole coefficient of a time constant `t` in seconds (R193, R154). -/
def poleCoef (N : Numerics) (t sr : F32) : F32 := N.exp (F32.neg (F32.div Lit.c1 (F32.mul t sr)))

/-- `COMP.att` (R193) -/
def compAtt (N : Numerics) (sr : F32) : F32 := poleCoef N Config.compAttackS sr

/-- `COMP.rel` (R193) -/
def compRel (N : Numerics) (sr : F32) : F32 := poleCoef N Config.compReleaseS sr

/-- A length a delay line can have (R38, R196): 2 to `RV_DEPTH`. -/
abbrev LineLen := { n : Nat // 2 ≤ n ∧ n ≤ Config.rvDepth }

/-- A word index of a delay-line RAM (R61), and so a distance inside one: there is no index outside (log 8). -/
abbrev LineIndex := Fin Config.rvDepth

/-- `REV.len` (R196) -/
def revLen (sr : F32) : LineLen :=
  ⟨min (max (F32.toInt (F32.floor (F32.mul Config.rvSeconds sr))) 2) Config.rvDepth,
    le_min (le_max_right _ _) (by decide), min_le_right _ _⟩

/-- One `REV.tap` from its delay in milliseconds (R196) -/
def revTap (ms sr : F32) : LineIndex :=
  ⟨min (max (F32.toInt (F32.floor (F32.div (F32.mul ms sr) Lit.c1000))) 1) ((revLen sr).val - 1),
    by have := (revLen sr).property; omega⟩

/-- `REV.tap[0..3]` (R196) -/
def revTaps (ms : PerTap F32) (sr : F32) : PerTap LineIndex :=
  { l1 := revTap ms.l1 sr, l2 := revTap ms.l2 sr, r1 := revTap ms.r1 sr, r2 := revTap ms.r2 sr }

/-- The fixed base pitch of a kind in hertz (41_voice.md R156). -/
def basePitch : Slot → F32
  | 0 => Lit.c55
  | 1 => Lit.c180
  | 2 => Lit.c250
  | 3 => Lit.c8000
  | 4 => Lit.c7000
  | 5 => Lit.c140
  | 6 => Lit.c400
  | 7 => Lit.c700

end Sys2Proof.Machine
end

