-- ==== Sys2Proof/Machine/State.lean ====
section
/-! DEFINITION. The state of the CORE as plain data (10_state.md R20): the voice register file, the sample rate, the
scheduler cursor and the event queue, the sticky flags, the parameter registers, the compressor and the reverb with its
two delay lines. Two fields are the model's own and no state of the CORE: what is presented at the input and what has
been output (R18, R42). -/

namespace Sys2Proof.Machine

/-- One bank of the voice register file (R21). `kind` is hardwired to the bank's index (R22) and needs no storage:
`kindOf` of Operands.lean reads it. `sample_rate` is the shared register `State.sr` (R23). -/
structure Voice where
  active : Bool
  envelope : F32
  decayCoef : F32
  velocity : F32
  prngState : U32
  noiseLowpass : F32
  oscPhase : F32
  baseFreq : F32
  humanAmp : F32
  humanPitch : F32
  humanDecayMul : F32
  deriving DecidableEq, Repr

/-- The slot parameter registers of one slot (R36). -/
structure SlotParams where
  level : F32
  pan : F32
  tone : F32
  decayMs : F32
  snap : F32
  pitch : F32
  humanize : F32
  deriving DecidableEq, Repr

/-- The master parameter registers (R37). -/
structure MasterParams where
  drive : F32
  comp : F32
  reverb : F32
  kitPitch : F32
  velocityCurve : F32
  deriving DecidableEq, Repr

/-- The scheduler cursor `SCHED` (R34). -/
structure Sched where
  frameIdx : U16
  blockLen : U16
  deriving DecidableEq, Repr

/-- An event record (R100); the velocity is raw. -/
structure Event where
  slot : Slot
  velocity : F32
  offset : U16
  deriving DecidableEq, Repr

/-- The seven sticky flags, the stored part of `STATUS` (R35). -/
structure Sticky where
  evfull : Bool
  evslot : Bool
  evlate : Bool
  badcmd : Bool
  seq : Bool
  pdrop : Bool
  ratefix : Bool
  deriving DecidableEq, Repr

/-- `COMP` (R39). -/
structure Comp where
  env : F32
  gain : F32
  att : F32
  rel : F32
  deriving DecidableEq, Repr

/-- One delay-line RAM: the words that are not `+0.0`, by rising index. An unlisted word reads as `+0.0`, the value
reset gives every word (R40, R44). -/
abbrev DelayLine := List (Nat × F32)

/-- `REV` with its two RAMs (R40). Each register is as wide as its own range, so that no state forms an index outside
the RAM (R61); that `w` and the taps also stay below `len` is an invariant, `State.LinesOk` and `State.DerivedOk` of
Safety.lean. -/
structure Reverb where
  len : LineLen
  tap : PerTap LineIndex
  w : LineIndex
  rvl : DelayLine
  rvr : DelayLine
  deriving DecidableEq, Repr

/-- What the machine has put out. `emit` is a frame record (R103) and `respond` a status word (R102): the observable
trace of R42. `rendered` is the value returned by a renderer that was run as a step of its own (log 7). -/
inductive Output where
  | emit (record : U64)
  | respond (word : U32)
  | rendered (sample : F32)
  deriving DecidableEq, Repr

structure State where
  /-- `V[0..7]` (R21) -/
  voices : Vector Voice 8
  /-- `SR` (R23) -/
  sr : F32
  /-- `SCHED` (R34) -/
  sched : Sched
  /-- `EVQ`, the oldest event first (R41, R74) -/
  queue : List Event
  /-- `STATUS[6:0]` (R35) -/
  sticky : Sticky
  /-- `P[0..7]` (R36) -/
  slots : Vector SlotParams 8
  /-- `M` (R37) -/
  master : MasterParams
  /-- `COMP` (R39) -/
  comp : Comp
  /-- `REV`, `RVL`, `RVR` (R40) -/
  rev : Reverb
  /-- The model's own: what is presented at the command port, the next first (R210). -/
  port : List Presented
  /-- The model's own: the outputs so far, the oldest first (R42). -/
  out : List Output
  deriving DecidableEq, Repr

/-- Why the machine stops: for no reason. "A model's step function never returns a fault" (R240), so the type has no
constructor, and nothing raises one. -/
inductive Fault where
  deriving DecidableEq, Repr

/-- Why an instruction has no meaning. -/
inductive Refusal where
  /-- Raised by an arm of `exec` whose instruction is not modelled. No arm raises it. Safe. -/
  | notModelled (mnemonic : String)
  deriving DecidableEq, Repr

/-- A voice bank after reset (R21, R261). -/
def Voice.reset (C : Params) (i : Slot) : Voice where
  active := false
  envelope := Lit.c0
  decayCoef := Lit.c0
  velocity := Lit.c0
  prngState := C.seed[i]
  noiseLowpass := Lit.c0
  oscPhase := Lit.c0
  baseFreq := basePitch i
  humanAmp := Lit.c1
  humanPitch := Lit.c0
  humanDecayMul := Lit.c1

/-- Slot parameters after reset (R36). -/
def SlotParams.reset : SlotParams := ⟨Lit.c0, Lit.c0, Lit.c0, Lit.c0, Lit.c0, Lit.c0, Lit.c0⟩

/-- Master parameters after reset (R37). -/
def MasterParams.reset : MasterParams := ⟨Lit.c0, Lit.c0, Lit.c0, Lit.c0, Lit.c0⟩

/-- No flag set (R35). -/
def Sticky.reset : Sticky := ⟨false, false, false, false, false, false, false⟩

/-- The compressor silent at a rate: `env` 0, `gain` 1, coefficients recomputed (R199). -/
def Comp.atRate (C : Params) (sr : F32) : Comp where
  env := Lit.c0
  gain := Lit.c1
  att := compAtt C.num sr
  rel := compRel C.num sr

/-- The reverb silent at a rate: geometry recomputed, both lines all `+0.0`, `w` 0 (R199). -/
def Reverb.atRate (C : Params) (sr : F32) : Reverb where
  len := revLen sr
  tap := revTaps C.tapMs sr
  w := 0
  rvl := []
  rvr := []

/-- The state after reset for given parameters (R44, R261). -/
def State.resetWith (C : Params) : State where
  voices := Vector.ofFn fun i => Voice.reset C i
  sr := Config.srReset
  sched := { frameIdx := 0, blockLen := 0 }
  queue := []
  sticky := Sticky.reset
  slots := Vector.replicate 8 SlotParams.reset
  master := MasterParams.reset
  comp := Comp.atRate C Config.srReset
  rev := Reverb.atRate C Config.srReset
  port := []
  out := []

/-- The machine right after reset: nothing presented, nothing output. -/
def State.reset : State := State.resetWith Config.params

end Sys2Proof.Machine
end

