-- ==== Sys2Proof/Machine/Flags.lean ====
section
/-! DEFINITION. The flags (10_state.md R35, 60_exceptions.md R241): the seven conditions, how each sets its sticky bit,
and the status word with its live bits (30_encoding.md R102). -/

namespace Sys2Proof.Machine

/-- The conditions of R241 in the order of their codes. -/
inductive Condition where
  | evfull | evslot | evlate | badcmd | seq | pdrop | ratefix
  deriving DecidableEq, Repr

/-- `STATUS.<NAME> <- 1` (R16, R243). -/
def raiseSticky (c : Condition) (f : Sticky) : Sticky :=
  match c with
  | .evfull => { f with evfull := true }
  | .evslot => { f with evslot := true }
  | .evlate => { f with evlate := true }
  | .badcmd => { f with badcmd := true }
  | .seq => { f with seq := true }
  | .pdrop => { f with pdrop := true }
  | .ratefix => { f with ratefix := true }

/-- The sticky bit of a condition. -/
def stickyBit (f : Sticky) : Condition → Bool
  | .evfull => f.evfull
  | .evslot => f.evslot
  | .evlate => f.evlate
  | .badcmd => f.badcmd
  | .seq => f.seq
  | .pdrop => f.pdrop
  | .ratefix => f.ratefix

/-- `ACTIVE[7:0]`: bit `i` is `V[i].active` (R102). -/
def activeBits (vs : Vector Voice 8) : U8 :=
  BitVec.ofBool vs[7].active ++ BitVec.ofBool vs[6].active ++ BitVec.ofBool vs[5].active ++
  BitVec.ofBool vs[4].active ++ BitVec.ofBool vs[3].active ++ BitVec.ofBool vs[2].active ++
  BitVec.ofBool vs[1].active ++ BitVec.ofBool vs[0].active

/-- `STATUS[6:0]`: bit `k` is the flag with code `k` (R241). -/
def stickyBits (f : Sticky) : BitVec 7 :=
  BitVec.ofBool f.ratefix ++ BitVec.ofBool f.pdrop ++ BitVec.ofBool f.seq ++ BitVec.ofBool f.badcmd ++
  BitVec.ofBool f.evlate ++ BitVec.ofBool f.evslot ++ BitVec.ofBool f.evfull

/-- The status word of R102: cursor, active bits, queue not empty, sticky flags. -/
def statusWord (s : State) : U32 :=
  s.sched.frameIdx ++ activeBits s.voices ++ BitVec.ofBool (!s.queue.isEmpty) ++ stickyBits s.sticky

end Sys2Proof.Machine
end

