-- ==== Sys2Proof/Machine/Operands.lean ====
section
/-! DEFINITION. The operand forms: the parameter address map (30_encoding.md R96), the slot index (R99, R101), the
hardwired kind of a bank (R22), and the conditioned parameters a unit reads (41_voice.md, before R150). -/

namespace Sys2Proof.Machine

/-- The eight kinds (R22). -/
inductive Kind where
  | kick | snare | clap | hatClosed | hatOpen | tom | perc1 | perc2
  deriving DecidableEq, Repr

/-- `V[i].kind`, hardwired: the kind number equals the slot index (R22, R101, R180). -/
def kindOf : Slot → Kind
  | 0 => .kick
  | 1 => .snare
  | 2 => .clap
  | 3 => .hatClosed
  | 4 => .hatOpen
  | 5 => .tom
  | 6 => .perc1
  | 7 => .perc2

/-- The slots in the order MIX visits them (R183). -/
def allSlots : List Slot := [0, 1, 2, 3, 4, 5, 6, 7]

/-- The registers of a slot, in the order of their field numbers (R96). -/
inductive SlotField where
  | level | pan | tone | decayMs | snap | pitch | humanize
  deriving DecidableEq, Repr

/-- The master registers, in the order of their addresses (R96). -/
inductive MasterField where
  | drive | comp | reverb | kitPitch | velocityCurve
  deriving DecidableEq, Repr

/-- A register of the space `PARAM`. -/
inductive ParamReg where
  | slot (i : Slot) (f : SlotField)
  | master (f : MasterField)
  deriving DecidableEq, Repr

/-- `slot = a[5:3]` (R96), `slot = a[2:0]` (R100): three bits as a slot index. -/
def slotOfBits (b : BitVec 3) : Slot := b.toFin

/-- `field = a[2:0]` of a slot address; 7 is reserved (R96). -/
def slotFieldOf (b : BitVec 3) : Option SlotField :=
  match b.toFin with
  | 0 => some .level
  | 1 => some .pan
  | 2 => some .tone
  | 3 => some .decayMs
  | 4 => some .snap
  | 5 => some .pitch
  | 6 => some .humanize
  | 7 => none

/-- The parameter address map; `none` is a reserved address (R96). -/
def paramReg (a : U8) : Option ParamReg :=
  if a.toNat < 0x40 then
    match slotFieldOf (a.extractLsb' 0 3) with
    | some f => some (.slot (slotOfBits (a.extractLsb' 3 3)) f)
    | none => none
  else
    match a.toNat with
    | 0x40 => some (.master .drive)
    | 0x41 => some (.master .comp)
    | 0x42 => some (.master .reverb)
    | 0x43 => some (.master .kitPitch)
    | 0x44 => some (.master .velocityCurve)
    | _ => none

/-- The slot of an EVPUSH; `none` when `a` is above 7 (R99). -/
def eventSlot (a : U8) : Option Slot :=
  if a.toNat ≤ 7 then some (slotOfBits (a.extractLsb' 0 3)) else none

def SlotParams.get (p : SlotParams) : SlotField → F32
  | .level => p.level
  | .pan => p.pan
  | .tone => p.tone
  | .decayMs => p.decayMs
  | .snap => p.snap
  | .pitch => p.pitch
  | .humanize => p.humanize

def SlotParams.put (p : SlotParams) (f : SlotField) (v : F32) : SlotParams :=
  match f with
  | .level => { p with level := v }
  | .pan => { p with pan := v }
  | .tone => { p with tone := v }
  | .decayMs => { p with decayMs := v }
  | .snap => { p with snap := v }
  | .pitch => { p with pitch := v }
  | .humanize => { p with humanize := v }

def MasterParams.get (m : MasterParams) : MasterField → F32
  | .drive => m.drive
  | .comp => m.comp
  | .reverb => m.reverb
  | .kitPitch => m.kitPitch
  | .velocityCurve => m.velocityCurve

def MasterParams.put (m : MasterParams) (f : MasterField) (v : F32) : MasterParams :=
  match f with
  | .drive => { m with drive := v }
  | .comp => { m with comp := v }
  | .reverb => { m with reverb := v }
  | .kitPitch => { m with kitPitch := v }
  | .velocityCurve => { m with velocityCurve := v }

end Sys2Proof.Machine
end

