-- ==== Sys2Proof/Machine/Ops.lean ====
section
/-! DEFINITION. The named operations over the state: registers, delay lines (20_memory.md R61), the event queue (R74),
outputs (R103, R102), and `flag`, which is all that stands in place of taking an exception (00_scope.md R16,
60_exceptions.md R240 to R243). There is nothing to return from: nothing is saved. -/

namespace Sys2Proof.Machine

/-! ### Conditions in place of exceptions -/

/-- `flag <NAME>`: the sticky bit becomes 1 and nothing else changes (R16, R243). -/
def State.flag (s : State) (c : Condition) : State := { s with sticky := raiseSticky c s.sticky }

/-! ### Registers -/

/-- `V[i] <- v` (R14). -/
def State.setVoice (s : State) (i : Slot) (v : Voice) : State := { s with voices := s.voices.set i v }

/-- The value of a parameter register. -/
def State.readParam (s : State) : ParamReg → F32
  | .slot i f => s.slots[i].get f
  | .master f => s.master.get f

/-- `PARAM[a] <- v` (R214). -/
def State.writeParam (s : State) (r : ParamReg) (v : F32) : State :=
  match r with
  | .slot i f => { s with slots := s.slots.set i (s.slots[i].put f v) }
  | .master f => { s with master := s.master.put f v }

/-! ### Delay lines -/

/-- The word at an index: the listed one, else `+0.0`. -/
def DelayLine.get : DelayLine → Nat → F32
  | [], _ => Lit.c0
  | (a, x) :: rest, k => if a = k then x else DelayLine.get rest k

/-- The line with the word at an index replaced; a word `+0.0` is not listed. -/
def DelayLine.put : DelayLine → Nat → F32 → DelayLine
  | [], k, v => if v = Lit.c0 then [] else [(k, v)]
  | (a, x) :: rest, k, v =>
    if k < a then (if v = Lit.c0 then (a, x) :: rest else (k, v) :: (a, x) :: rest)
    else if k = a then (if v = Lit.c0 then rest else (k, v) :: rest)
    else (a, x) :: DelayLine.put rest k v

/-- Indexes strictly rising from a bound on. -/
def DelayLine.risingFrom (lo : Nat) : DelayLine → Bool
  | [] => true
  | (a, _) :: rest => decide (lo ≤ a) && DelayLine.risingFrom (a + 1) rest

/-- The canonical form: indexes strictly rising and inside the RAM, no listed word `+0.0`. -/
def DelayLine.wf (m : DelayLine) : Bool :=
  DelayLine.risingFrom 0 m && m.all fun c => decide (c.1 < Config.rvDepth) && decide (c.2 ≠ Lit.c0)

/-- `MemRead(RVL or RVR, k, 1)` (R60, R61). -/
def memRead (m : DelayLine) (k : LineIndex) : F32 := DelayLine.get m k

/-- `MemWrite(RVL or RVR, k, 1, v)` (R60, R61). -/
def memWrite (m : DelayLine) (k : LineIndex) (v : F32) : DelayLine := DelayLine.put m k v

/-- `n mod REV.len`: an index below the length (R62). -/
def modLen (n : Nat) (len : LineLen) : LineIndex :=
  ⟨n % len.val, by have := Nat.mod_lt n (show 0 < len.val by omega); omega⟩

/-- `rd(d) = (REV.w + REV.len - d) mod REV.len`: the word written `d` frames ago (R62). -/
def tapIndex (w : LineIndex) (len : LineLen) (d : LineIndex) : LineIndex := modLen (w + len - d) len

/-- `(REV.w + 1) mod REV.len`: the next write index (R62, R197). -/
def nextIndex (w : LineIndex) (len : LineLen) : LineIndex := modLen (w + 1) len

/-! ### The event queue -/

def evqFull (q : List Event) : Bool := decide (Config.evqDepth ≤ q.length)

def evqEmpty (q : List Event) : Bool := q.isEmpty

/-- `EvqPush(e)`: at the tail (R74). -/
def State.evqPush (s : State) (e : Event) : State := { s with queue := s.queue ++ [e] }

/-- `EvqClear()` (R74). -/
def State.evqClear (s : State) : State := { s with queue := [] }

/-! ### Outputs -/

/-- The frame record: bits 63:32 left, bits 31:0 right (R103). -/
def frameRecord (l r : F32) : U64 := l ++ r

/-- An output as a byte-wide channel carries it (R63): the eight bytes of a frame record, the four of a status word.
A renderer's sample is no output of the CORE (log 7) and crosses no channel. -/
def Output.bytes : Output → List (BitVec 8)
  | .emit record => bytesOfWord record
  | .respond word => bytesOfWord32 word
  | .rendered _ => []

/-- One value more on the trace (R42). -/
def State.output (s : State) (o : Output) : State := { s with out := s.out ++ [o] }

end Sys2Proof.Machine
end

