-- ==== Sys2Proof/Machine/Primitives.lean ====
section
/-! DEFINITION. The primitive operations of 40_primitives.md R120 to R128, each a function of its operands, the shared
sample rate and the one voice it may change. -/

namespace Sys2Proof.Machine

/-! ### Comparison helpers (R120) -/

/-- `FMAX(a, b) = if a > b then a else b` -/
def fmax (a b : F32) : F32 := if F32.lt b a then a else b

/-- `FMIN(a, b) = if a < b then a else b` -/
def fmin (a b : F32) : F32 := if F32.lt a b then a else b

/-- `CLAMP(x, lo, hi) = FMIN(FMAX(x, lo), hi)` -/
def clamp (x lo hi : F32) : F32 := fmin (fmax x lo) hi

/-- `CLAMP(x, 0.0, 1.0)`, the form of every amount register. -/
def clamp01 (x : F32) : F32 := clamp x Lit.c0 Lit.c1

/-! ### Pseudo-random generator and noise (R121 to R123) -/

/-- `LCG(s) = s * 1664525 + 1013904223` modulo 2^32. The constants stand first so that the kernel, when it compares two
voices, does not count such a sum down by ones. -/
def lcg (s : U32) : U32 := 1013904223#32 + 1664525#32 * s

/-- The bipolar value of an advanced PRNG state: its top 23 bits as the fraction of a float in [1, 2), times 2, minus 3. -/
def bipolarOf (s : U32) : F32 := F32.sub (F32.mul (0x3F800000#32 ||| (s >>> 9)) Lit.c2) Lit.c3

/-- `V[i].prng_state <- LCG(V[i].prng_state)` -/
def advance (v : Voice) : Voice := { v with prngState := lcg v.prngState }

/-- `BIPOLAR(i)`: advance first, then take the value from the advanced state. -/
def bipolar (v : Voice) : Voice × F32 := (advance v, bipolarOf (lcg v.prngState))

/-- `NOISE(i) = 0.7 * BIPOLAR(i)` -/
def noise (v : Voice) : Voice × F32 := ((bipolar v).1, F32.mul Lit.c0_7 (bipolar v).2)

/-! ### Sine oscillator (R124, R125) -/

/-- The first line of WRAP: whole turns removed. -/
def unwind (p : F32) : F32 :=
  if F32.le Lit.twoPi p then F32.sub p (F32.mul Lit.twoPi (F32.floor (F32.div p Lit.twoPi))) else p

/-- `WRAP(p)`: whatever is still outside [0, TWO_PI) becomes `+0.0`. -/
def wrap (p : F32) : F32 :=
  if F32.le Lit.c0 (unwind p) && F32.lt (unwind p) Lit.twoPi then unwind p else Lit.c0

/-- The phase increment `(TWO_PI * freq) / SR`. -/
def phaseInc (sr freq : F32) : F32 := F32.div (F32.mul Lit.twoPi freq) sr

/-- `OSC(i, freq)`: advance, wrap, emit the sine of the new phase. -/
def osc (N : Numerics) (sr freq : F32) (v : Voice) : Voice × F32 :=
  let ph := wrap (F32.add v.oscPhase (phaseInc sr freq))
  ({ v with oscPhase := ph }, N.sin ph)

/-! ### Highpass band of noise (R126) -/

/-- `alpha`, from the clamped cutoff. -/
def hpAlpha (N : Numerics) (sr fc : F32) : F32 :=
  let fc' := clamp fc Lit.c200 (F32.mul Lit.c0_45 sr)
  F32.sub Lit.c1 (N.exp (F32.neg (F32.div (F32.mul Lit.twoPi fc') sr)))

/-- `HPBAND(i, fc, x)`: the low-pass state is updated and the highpass component uses the updated state. -/
def hpband (N : Numerics) (sr fc x : F32) (v : Voice) : Voice × F32 :=
  let lp := F32.add v.noiseLowpass (F32.mul (hpAlpha N sr fc) (F32.sub x v.noiseLowpass))
  ({ v with noiseLowpass := lp }, F32.sub x lp)

/-- A noise band, `HPBAND(i, fc, NOISE(i))` (41_voice.md, before R162). -/
def noiseBand (N : Numerics) (sr fc : F32) (v : Voice) : Voice × F32 :=
  hpband N sr fc (noise v).2 (noise v).1

/-! ### Soft saturator and denormal flush (R127, R128) -/

/-- The rational part of SOFTSAT, `x(27 + x^2) / (27 + 9x^2)`, clamped. -/
def softsatMid (x : F32) : F32 :=
  let x2 := F32.mul x x
  let num := F32.mul x (F32.add Lit.c27 x2)
  let den := F32.add Lit.c27 (F32.mul Lit.c9 x2)
  clamp (F32.div num den) Lit.n1 Lit.c1

/-- `SOFTSAT(x)` -/
def softsat (x : F32) : F32 :=
  if F32.le Lit.c3 x then Lit.c1
  else if F32.le x Lit.n3 then Lit.n1
  else if !F32.eq x x then Lit.c0
  else softsatMid x

/-- `FLUSH(y)`: below the threshold in magnitude, `+0.0`. -/
def flush (y : F32) : F32 := if F32.lt (F32.abs y) Config.denormThresh then Lit.c0 else y

end Sys2Proof.Machine
end

