-- ==== Sys2Proof/Machine/MasterBus.lean ====
section
/-! DEFINITION. The master bus (43_masterbus.md): saturation, compressor, reverb, in that order, each bypassed bit for
bit and with its state frozen when its clamped amount is below `BYPASS_EPS` (R191). -/

namespace Sys2Proof.Machine

/-- The bypass test of a stage on its amount register (R191). -/
def bypassed (amount : F32) : Bool := F32.lt (clamp01 amount) Config.bypassEps

/-! ### Saturation (R192) -/

/-- `gain = 1 + 4 * drive` -/
def satGain (d : F32) : F32 := F32.add Lit.c1 (F32.mul Lit.c4 d)

/-- `makeup = 1 / (1 + 2 * drive)` -/
def satMakeup (d : F32) : F32 := F32.div Lit.c1 (F32.add Lit.c1 (F32.mul Lit.c2 d))

/-- One channel of a saturation that is not bypassed. -/
def satChannel (d x : F32) : F32 := F32.mul (softsat (F32.mul x (satGain d))) (satMakeup d)

/-- `SAT(l, r)`: stateless. -/
def sat (m : MasterParams) (l r : F32) : F32 × F32 :=
  if bypassed m.drive then (l, r)
  else (satChannel (clamp01 m.drive) l, satChannel (clamp01 m.drive) r)

/-! ### Compressor (R194) -/

/-- The follower after input `x`: attack when rising, else release. -/
def compEnv (c : Comp) (x : F32) : F32 :=
  let k := if F32.lt c.env x then c.att else c.rel
  F32.add (F32.mul k c.env) (F32.mul (F32.sub Lit.c1 k) x)

/-- The level of a follower value above the -12 dB threshold, in dB. -/
def compOver (N : Numerics) (env : F32) : F32 :=
  F32.add (F32.mul Lit.c20 (N.log10 (fmax env Config.compFloor))) Config.compThreshDb

/-- The linear target gain at amount `a` for a level `ov` above the threshold. -/
def compTarget (N : Numerics) (a ov : F32) : F32 :=
  if F32.lt Lit.c0 ov then
    let ratio := F32.add Lit.c1 (F32.mul Lit.c3 a)
    let gr := F32.mul ov (F32.sub (F32.div Lit.c1 ratio) Lit.c1)
    clamp (N.pow Lit.c10 (F32.div gr Lit.c20)) Lit.c0 Lit.c1
  else Lit.c1

/-- The compressor state after one frame that is not bypassed. -/
def compNext (N : Numerics) (a : F32) (c : Comp) (l r : F32) : Comp :=
  let env := compEnv c (fmax (F32.abs l) (F32.abs r))
  let tgt := compTarget N a (compOver N env)
  { c with
    env := env
    gain := F32.add (F32.mul Config.compGainPole c.gain) (F32.mul Config.compGainPole tgt) }

/-- `COMP_STEP(l, r)`: the new gain is applied in the same frame, to both channels. -/
def compStep (N : Numerics) (m : MasterParams) (c : Comp) (l r : F32) : Comp × F32 × F32 :=
  if bypassed m.comp then (c, l, r)
  else
    let c1 := compNext N (clamp01 m.comp) c l r
    (c1, F32.mul l c1.gain, F32.mul r c1.gain)

/-! ### Reverb (R197) -/

/-- `0.7 * tap1 + 0.3 * tap2` -/
def wetOf (t1 t2 : F32) : F32 := F32.add (F32.mul Lit.c0_7 t1) (F32.mul Lit.c0_3 t2)

/-- The wet signal of a line: two taps, read before anything is written. -/
def wetSignal (m : DelayLine) (rv : Reverb) (d1 d2 : LineIndex) : F32 :=
  wetOf (memRead m (tapIndex rv.w rv.len d1)) (memRead m (tapIndex rv.w rv.len d2))

/-- The mono mix, the mean of the channels. -/
def monoMix (l r : F32) : F32 := F32.mul Lit.c0_5 (F32.add l r)

/-- The word a line is fed: the mono mix and 0.4 of the line's own wet signal. -/
def fedWord (mono wet : F32) : F32 := F32.add mono (F32.mul wet Config.rvFeedback)

/-- One output channel: `dry * (1 - a * 0.6) + wet * a`. -/
def wetDry (a x wet : F32) : F32 :=
  F32.add (F32.mul x (F32.sub Lit.c1 (F32.mul a Lit.c0_6))) (F32.mul wet a)

/-- `REV_STEP(l, r)` -/
def revStep (m : MasterParams) (rv : Reverb) (l r : F32) : Reverb × F32 × F32 :=
  if bypassed m.reverb then (rv, l, r)
  else
    let wl := wetSignal rv.rvl rv rv.tap.l1 rv.tap.l2
    let wr := wetSignal rv.rvr rv rv.tap.r1 rv.tap.r2
    ({ rv with
        rvl := memWrite rv.rvl rv.w (fedWord (monoMix l r) wl)
        rvr := memWrite rv.rvr rv.w (fedWord (monoMix l r) wr)
        w := nextIndex rv.w rv.len },
      wetDry (clamp01 m.reverb) l wl, wetDry (clamp01 m.reverb) r wr)

/-! ### The chain (R190) -/

/-- `MASTER(l, r)`: saturation, compressor, reverb, in an order no parameter changes. -/
def master (N : Numerics) (m : MasterParams) (c : Comp) (rv : Reverb) (l r : F32) : Comp × Reverb × F32 × F32 :=
  let x := sat m l r
  let y := compStep N m c x.1 x.2
  (y.1, revStep m rv y.2.1 y.2.2)

end Sys2Proof.Machine
end

