-- ==== Sys2Proof/Machine/Voice.lean ====
section
/-! DEFINITION. The drum voice (41_voice.md): TRIG in its five steps, the eight renderers, VPROC. Every operation takes
one voice and gives it back, with what the rule lets it read (00_scope.md R17). -/

namespace Sys2Proof.Machine

/-! ### TRIG (R150 to R155) -/

/-- Step 1 (R151). -/
def trigStart (v : Voice) : Voice :=
  { v with active := true, envelope := Lit.c1, noiseLowpass := Lit.c0 }

/-- Step 2 (R152): `POW(CLAMP(vel_in, 0, 1), 0.5 + CLAMP(velocity_curve, 0, 1))`. -/
def shapedVelocity (N : Numerics) (curve vel : F32) : F32 :=
  N.pow (clamp01 vel) (F32.add Lit.c0_5 (clamp01 curve))

def trigVelocity (N : Numerics) (curve vel : F32) (v : Voice) : Voice :=
  { v with velocity := shapedVelocity N curve vel }

/-- Step 3 (R153): the reseed advance, then three draws if the clamped humanize is above 0, else neutral values. -/
def trigHumanize (humanize : F32) (v : Voice) : Voice :=
  let v0 := advance v
  let h := clamp01 humanize
  if F32.lt Lit.c0 h then
    let d1 := bipolar v0
    let d2 := bipolar d1.1
    let d3 := bipolar d2.1
    { d3.1 with
      humanAmp := F32.add Lit.c1 (F32.mul (F32.mul Lit.c0_15 h) d1.2)
      humanPitch := F32.mul (F32.mul Lit.c3 h) d2.2
      humanDecayMul := F32.add Lit.c1 (F32.mul (F32.mul Lit.c0_5 h) d3.2) }
  else { v0 with humanAmp := Lit.c1, humanPitch := Lit.c0, humanDecayMul := Lit.c1 }

/-- `tau` of step 4 (R154). -/
def decayTau (decayMs mult : F32) : F32 :=
  fmax (F32.mul (F32.div (clamp decayMs Config.decayMsMin Config.decayMsMax) Lit.c1000) mult) Lit.c0_001

/-- Step 4 (R154). -/
def trigDecay (N : Numerics) (sr decayMs : F32) (v : Voice) : Voice :=
  { v with decayCoef := poleCoef N (decayTau decayMs v.humanDecayMul) sr }

/-- The base frequency of a pitch sum in semitones (R155). -/
def pitchedFreq (N : Numerics) (base semis : F32) : F32 :=
  clamp (F32.mul base (N.pow Lit.c2 (F32.div semis Lit.c12))) Lit.c20 Lit.c12000

/-- Step 5 (R155). -/
def trigPitch (N : Numerics) (base pitch kitPitch : F32) (v : Voice) : Voice :=
  { v with
    baseFreq := pitchedFreq N base (F32.add (F32.add pitch kitPitch) v.humanPitch)
    oscPhase := Lit.c0 }

/-- `TRIG(i, vel_in)` (R150). -/
def trig (N : Numerics) (sr : F32) (m : MasterParams) (p : SlotParams) (i : Slot) (vel : F32) (v : Voice) : Voice :=
  trigPitch N (basePitch i) p.pitch m.kitPitch
    (trigDecay N sr p.decayMs
      (trigHumanize p.humanize
        (trigVelocity N m.velocityCurve vel
          (trigStart v))))

/-! ### The eight renderers (R162 to R169)

Each takes the envelope value it is called with and gives the voice and the raw sample. `t` and `s` are the clamped
`tone` and `snap`, `bf` is `base_freq`. -/

/-- KICK (R162) -/
def renderKick (N : Numerics) (sr : F32) (p : SlotParams) (env : F32) (v : Voice) : Voice × F32 :=
  let t := clamp01 p.tone
  let s := clamp01 p.snap
  let sweep := F32.mul (F32.mul Lit.c30 (F32.add Lit.c0_3 (F32.mul Lit.c0_7 t))) (F32.mul env env)
  let fr := F32.mul v.baseFreq (N.pow Lit.c2 (F32.div sweep Lit.c12))
  let o := osc N sr fr v
  let body := softsat (F32.mul o.2 (F32.add Lit.c1 (F32.mul Lit.c3 s)))
  let b := noiseBand N sr (F32.add Lit.c4000 (F32.mul Lit.c4000 t)) o.1
  let click := F32.mul b.2 (F32.mul s (N.pow env Lit.c0_3))
  (b.1, F32.add (F32.mul Lit.c0_9 body) (F32.mul Lit.c0_4 click))

/-- SNARE (R163) -/
def renderSnare (N : Numerics) (sr : F32) (p : SlotParams) (_env : F32) (v : Voice) : Voice × F32 :=
  let t := clamp01 p.tone
  let s := clamp01 p.snap
  let o := osc N sr v.baseFreq v
  let b := noiseBand N sr (F32.add Lit.c2000 (F32.mul Lit.c6000 t)) o.1
  (b.1, F32.add (F32.mul (F32.mul Lit.c0_4 (F32.sub Lit.c1 t)) o.2)
    (F32.mul (F32.add Lit.c0_8 (F32.mul Lit.c0_4 s)) b.2))

/-- CLAP (R164) -/
def renderClap (N : Numerics) (sr : F32) (p : SlotParams) (env : F32) (v : Voice) : Voice × F32 :=
  let t := clamp01 p.tone
  let s := clamp01 p.snap
  let b := noiseBand N sr (F32.add Lit.c800 (F32.mul Lit.c1200 (F32.sub Lit.c1 t))) v
  let burst := fmin Lit.c1_5 (F32.mul (N.pow env Lit.c0_3) (F32.add Lit.c1 (F32.mul Lit.c0_6 s)))
  (b.1, F32.mul b.2 burst)

/-- HATCLOSED (R165) -/
def renderHatClosed (N : Numerics) (sr : F32) (p : SlotParams) (env : F32) (v : Voice) : Voice × F32 :=
  let t := clamp01 p.tone
  let s := clamp01 p.snap
  let b := noiseBand N sr (F32.add Lit.c6000 (F32.mul Lit.c6000 t)) v
  let sh := N.pow env (F32.sub Lit.c2_5 (F32.mul Lit.c1_5 s))
  (b.1, F32.mul (F32.mul b.2 sh) (F32.add Lit.c0_8 (F32.mul Lit.c0_4 s)))

/-- HATOPEN (R166) -/
def renderHatOpen (N : Numerics) (sr : F32) (p : SlotParams) (env : F32) (v : Voice) : Voice × F32 :=
  let t := clamp01 p.tone
  let s := clamp01 p.snap
  let b := noiseBand N sr (F32.add Lit.c5000 (F32.mul Lit.c5000 t)) v
  let sh := N.pow env (F32.add Lit.c1_2 (F32.mul Lit.c0_8 s))
  (b.1, F32.mul (F32.mul b.2 sh) (F32.add Lit.c0_9 (F32.mul Lit.c0_3 s)))

/-- TOM (R167) -/
def renderTom (N : Numerics) (sr : F32) (p : SlotParams) (_env : F32) (v : Voice) : Voice × F32 :=
  let t := clamp01 p.tone
  let o := osc N sr v.baseFreq v
  let b := noiseBand N sr (F32.add Lit.c1500 (F32.mul Lit.c3000 t)) o.1
  (b.1, F32.add (F32.mul Lit.c0_9 o.2) (F32.mul Lit.c0_3 b.2))

/-- PERC1 (R168): the noise is drawn and filtered before the oscillator is stepped. -/
def renderPerc1 (N : Numerics) (sr : F32) (p : SlotParams) (env : F32) (v : Voice) : Voice × F32 :=
  let t := clamp01 p.tone
  let b := noiseBand N sr (F32.add Lit.c2500 (F32.mul Lit.c6000 t)) v
  let fr := F32.mul (F32.mul Lit.c1_5 v.baseFreq) (F32.add Lit.c1 (F32.div t Lit.c3))
  let o := osc N sr fr b.1
  (o.1, F32.add (F32.mul (F32.mul Lit.c0_9 (N.pow env Lit.c0_7)) b.2) (F32.mul Lit.c0_3 o.2))

/-- PERC2 (R169) -/
def renderPerc2 (N : Numerics) (sr : F32) (p : SlotParams) (env : F32) (v : Voice) : Voice × F32 :=
  let t := clamp01 p.tone
  let fr := F32.mul v.baseFreq (F32.add Lit.c1 t)
  let o := osc N sr fr v
  let b := noiseBand N sr (F32.add Lit.c2000 (F32.mul Lit.c5000 t)) o.1
  let sh := N.pow env Lit.c0_9
  (b.1, F32.mul sh (F32.add (F32.mul Lit.c0_6 o.2) (F32.mul Lit.c0_5 b.2)))

/-- The dispatch on the kind tag (R160). -/
def render (N : Numerics) (sr : F32) (p : SlotParams) (k : Kind) (env : F32) (v : Voice) : Voice × F32 :=
  match k with
  | .kick => renderKick N sr p env v
  | .snare => renderSnare N sr p env v
  | .clap => renderClap N sr p env v
  | .hatClosed => renderHatClosed N sr p env v
  | .hatOpen => renderHatOpen N sr p env v
  | .tom => renderTom N sr p env v
  | .perc1 => renderPerc1 N sr p env v
  | .perc2 => renderPerc2 N sr p env v

/-! ### VPROC (R157 to R161) -/

/-- Step 2 (R159): the envelope after this call's multiplication. -/
def decayed (v : Voice) : F32 := F32.mul v.envelope v.decayCoef

/-- Step 4 (R161): `FLUSH(SOFTSAT(raw * ((envelope * velocity) * human_amp)))`. -/
def shapeSample (v : Voice) (raw : F32) : F32 :=
  flush (softsat (F32.mul raw (F32.mul (F32.mul v.envelope v.velocity) v.humanAmp)))

/-- `VPROC(i)` (R157). -/
def vproc (N : Numerics) (sr : F32) (p : SlotParams) (k : Kind) (v : Voice) : Voice × F32 :=
  if !v.active then (v, Lit.c0)
  else if F32.lt (decayed v) Config.envFloor then
    ({ v with envelope := Lit.c0, active := false }, Lit.c0)
  else
    let v1 := { v with envelope := decayed v }
    let r := render N sr p k v1.envelope v1
    (r.1, shapeSample r.1 r.2)

end Sys2Proof.Machine
end

