-- ==== Sys2Proof/Machine/VoiceBank.lean ====
section
/-! DEFINITION. The voice bank (42_voicebank.md): DISPATCH, PAN, MIX. -/

namespace Sys2Proof.Machine

/-- `DISPATCH(slot, vel)`: TRIG of that one voice (R181). -/
def dispatch (C : Params) (s : State) (i : Slot) (vel : F32) : State :=
  s.setVoice i (trig C.num s.sr s.master s.slots[i] i vel s.voices[i])

/-- The angle of `PAN(i)`, in [0, HALF_PI] (R182). -/
def panAngle (pan : F32) : F32 :=
  F32.mul (F32.mul (F32.add (clamp pan Lit.n1 Lit.c1) Lit.c1) Lit.c0_5) Lit.halfPi

/-- `PAN(i)`: `(gain_l, gain_r)` (R182). -/
def panGains (N : Numerics) (pan : F32) : F32 × F32 := (N.cos (panAngle pan), N.sin (panAngle pan))

/-- `level`, clamped to [0, LEVEL_MAX] (R183). -/
def levelOf (p : SlotParams) : F32 := clamp p.level Lit.c0 Config.levelMax

/-- VPROC of one voice of the bank. -/
def processVoice (C : Params) (s : State) (i : Slot) : Voice × F32 :=
  vproc C.num s.sr s.slots[i] (kindOf i) s.voices[i]

/-- One pass of MIX's loop: ask voice `i`, scale, pan, accumulate (R183). -/
def mixSlot (C : Params) (acc : State × F32 × F32) (i : Slot) : State × F32 × F32 :=
  let s := acc.1
  let r := processVoice C s i
  let g := panGains C.num s.slots[i].pan
  let a := F32.mul r.2 (levelOf s.slots[i])
  (s.setVoice i r.1, F32.add acc.2.1 (F32.mul a g.1), F32.add acc.2.2 (F32.mul a g.2))

/-- `MIX()`: the eight voices in ascending slot order, sums from `+0.0` (R183). -/
def mix (C : Params) (s : State) : State × F32 × F32 :=
  allSlots.foldl (mixSlot C) (s, Lit.c0, Lit.c0)

end Sys2Proof.Machine
end

