-- ==== Sys2Proof/Machine/Scheduler.lean ====
section
/-! DEFINITION. The scheduler inside FRAME (44_scheduler_commands.md R217, R218): due events are released from the head
of the queue, in arrival order, before the frame renders. -/

namespace Sys2Proof.Machine

/-- The release test on the head of the queue: `offset <= frame_idx` (R218). -/
def due (idx : U16) (e : Event) : Bool := decide (e.offset.toNat ≤ idx.toNat)

/-- The events a FRAME releases: the longest front part of the queue that is due. -/
def dueEvents (s : State) : List Event := s.queue.takeWhile (due s.sched.frameIdx)

/-- The events that stay queued. -/
def keptEvents (s : State) : List Event := s.queue.dropWhile (due s.sched.frameIdx)

/-- DISPATCH of one event record. -/
def dispatchEvent (C : Params) (s : State) (e : Event) : State := dispatch C s e.slot e.velocity

/-- The release loop of FRAME: pop and dispatch while the head is due. -/
def release (C : Params) (s : State) : State :=
  (dueEvents s).foldl (dispatchEvent C) { s with queue := keptEvents s }

end Sys2Proof.Machine
end

