-- ==== Sys2Proof/Machine/Commands.lean ====
section
/-! DEFINITION. The meanings of the eight host commands (44_scheduler_commands.md R211 to R219). Each is one atomic
state transition, defined for every operand. -/

namespace Sys2Proof.Machine

/-- NOP (R211): no state change, no output. -/
def execNop (s : State) : Host.Outcome State Fault Refusal := .next s

/-- `RESET_OP()` (R261): every piece of state takes its reset value. What the host has presented and received is no
state of the CORE (R18, R42) and stays. -/
def resetOp (C : Params) (s : State) : State := { State.resetWith C with port := s.port, out := s.out }

/-- RESET (R212). -/
def execReset (s : State) : Host.Outcome State Fault Refusal := .next (resetOp Config.params s)

/-- The sample rate SETRATE stores: CLAMP(operand, 1.0, 192000.0) (R213). -/
def conditionedRate (d : F32) : F32 := clamp d Config.srMin Config.srMax

/-- A voice silenced by a rate change: what SETRATE leaves of it (R213). -/
def silenced (v : Voice) : Voice :=
  { v with active := false, envelope := Lit.c0, noiseLowpass := Lit.c0, oscPhase := Lit.c0 }

/-- The flag of SETRATE: set unless the conditioned rate equals the operand. -/
def flagRate (d : F32) (s : State) : State :=
  if F32.eq (conditionedRate d) d then s else s.flag .ratefix

/-- `SETRATE(d)` (R213, R199). -/
def setRate (C : Params) (d : F32) (s : State) : State :=
  { flagRate d s with
    sr := conditionedRate d
    voices := Vector.ofFn fun i => silenced s.voices[i]
    comp := Comp.atRate C (conditionedRate d)
    rev := Reverb.atRate C (conditionedRate d) }

/-- SETRATE (R213). -/
def execSetrate (d : F32) (s : State) : Host.Outcome State Fault Refusal := .next (setRate Config.params d s)

/-- `PWRITE(a, d)` (R214): dropped at a reserved address or with a value that is not finite. -/
def paramWrite (a : U8) (d : F32) (s : State) : State :=
  match paramReg a with
  | some r => if F32.isFinite d then s.writeParam r d else s.flag .pdrop
  | none => s.flag .pdrop

/-- PWRITE (R214). -/
def execPwrite (a : U8) (d : F32) (s : State) : Host.Outcome State Fault Refusal := .next (paramWrite a d s)

/-- The flag of BLKBEGIN: events of the old block are discarded. -/
def flagLate (s : State) : State := if evqEmpty s.queue then s else (s.flag .evlate).evqClear

/-- `BLKBEGIN(n)` (R215). -/
def blockBegin (n : U16) (s : State) : State := { flagLate s with sched := { frameIdx := 0, blockLen := n } }

/-- BLKBEGIN (R215). -/
def execBlkbegin (n : U16) (s : State) : Host.Outcome State Fault Refusal := .next (blockBegin n s)

/-- `EVPUSH(a, n, d)` (R216): the slot check comes first. -/
def eventPush (a : U8) (n : U16) (d : F32) (s : State) : State :=
  match eventSlot a with
  | none => s.flag .evslot
  | some i => if evqFull s.queue then s.flag .evfull else s.evqPush { slot := i, velocity := d, offset := n }

/-- EVPUSH (R216). -/
def execEvpush (a : U8) (n : U16) (d : F32) (s : State) : Host.Outcome State Fault Refusal :=
  .next (eventPush a n d s)

/-- `SCHED.frame_idx <- SCHED.frame_idx + 1` (R217). -/
def advanceCursor (s : State) : State := { s with sched := { s.sched with frameIdx := s.sched.frameIdx + 1 } }

/-- MASTER on the sums of MIX. -/
def masterFrame (C : Params) (x : State × F32 × F32) : Comp × Reverb × F32 × F32 :=
  master C.num x.1.master x.1.comp x.1.rev x.2.1 x.2.2

/-- The end of a frame: the master bus has its new state, the cursor advances, the record is emitted. -/
def emitFrame (s : State) (y : Comp × Reverb × F32 × F32) : State :=
  (advanceCursor { s with comp := y.1, rev := y.2.1 }).output (.emit (frameRecord y.2.2.1 y.2.2.2))

/-- The frame inside a block (R217): release, MIX, MASTER, advance the cursor, Emit. -/
def renderFrame (C : Params) (s : State) : State :=
  let x := mix C (release C s)
  emitFrame x.1 (masterFrame C x)

/-- `FRAME()` (R217): outside a block it sets `SEQ` and does nothing else. -/
def frameWith (C : Params) (s : State) : State :=
  if s.sched.blockLen.toNat ≤ s.sched.frameIdx.toNat then s.flag .seq else renderFrame C s

/-- FRAME (R217). -/
def execFrame (s : State) : Host.Outcome State Fault Refusal := .next (frameWith Config.params s)

/-- RDSTAT (R219): `Respond(w)`, no state change. -/
def execRdstat (s : State) : Host.Outcome State Fault Refusal := .next (s.output (.respond (statusWord s)))

/-- A command word with a reserved opcode: `flag BADCMD`, nothing else (R220). -/
def badCommand (s : State) : State := s.flag .badcmd

end Sys2Proof.Machine
end

