-- ==== Sys2Proof/Machine/Kinds.lean ====
section
/-! DEFINITION. The meanings of the eight renderers as steps of their own: step 3 of VPROC (41_voice.md R160),
`raw <- RENDER_kind(i, V[i].envelope)`, on the one bank the kind is hardwired to. FRAME runs the same renderers inside
VPROC; run alone, a renderer's raw sample goes on the trace (log 7). -/

namespace Sys2Proof.Machine

/-- Put back the voice a renderer returns, and return its sample. -/
def State.rendered (s : State) (i : Slot) (r : Voice × F32) : State :=
  (s.setVoice i r.1).output (.rendered r.2)

/-- KICK with given parameters. -/
def kickStep (C : Params) (s : State) : State :=
  s.rendered 0 (renderKick C.num s.sr s.slots[0] s.voices[0].envelope s.voices[0])

/-- KICK (R162): bank 0. -/
def execKick (s : State) : Host.Outcome State Fault Refusal := .next (kickStep Config.params s)

/-- SNARE with given parameters. -/
def snareStep (C : Params) (s : State) : State :=
  s.rendered 1 (renderSnare C.num s.sr s.slots[1] s.voices[1].envelope s.voices[1])

/-- SNARE (R163): bank 1. -/
def execSnare (s : State) : Host.Outcome State Fault Refusal := .next (snareStep Config.params s)

/-- CLAP with given parameters. -/
def clapStep (C : Params) (s : State) : State :=
  s.rendered 2 (renderClap C.num s.sr s.slots[2] s.voices[2].envelope s.voices[2])

/-- CLAP (R164): bank 2. -/
def execClap (s : State) : Host.Outcome State Fault Refusal := .next (clapStep Config.params s)

/-- HATCLOSED with given parameters. -/
def hatClosedStep (C : Params) (s : State) : State :=
  s.rendered 3 (renderHatClosed C.num s.sr s.slots[3] s.voices[3].envelope s.voices[3])

/-- HATCLOSED (R165): bank 3. -/
def execHatclosed (s : State) : Host.Outcome State Fault Refusal := .next (hatClosedStep Config.params s)

/-- HATOPEN with given parameters. -/
def hatOpenStep (C : Params) (s : State) : State :=
  s.rendered 4 (renderHatOpen C.num s.sr s.slots[4] s.voices[4].envelope s.voices[4])

/-- HATOPEN (R166): bank 4. -/
def execHatopen (s : State) : Host.Outcome State Fault Refusal := .next (hatOpenStep Config.params s)

/-- TOM with given parameters. -/
def tomStep (C : Params) (s : State) : State :=
  s.rendered 5 (renderTom C.num s.sr s.slots[5] s.voices[5].envelope s.voices[5])

/-- TOM (R167): bank 5. -/
def execTom (s : State) : Host.Outcome State Fault Refusal := .next (tomStep Config.params s)

/-- PERC1 with given parameters. -/
def perc1Step (C : Params) (s : State) : State :=
  s.rendered 6 (renderPerc1 C.num s.sr s.slots[6] s.voices[6].envelope s.voices[6])

/-- PERC1 (R168): bank 6. -/
def execPerc1 (s : State) : Host.Outcome State Fault Refusal := .next (perc1Step Config.params s)

/-- PERC2 with given parameters. -/
def perc2Step (C : Params) (s : State) : State :=
  s.rendered 7 (renderPerc2 C.num s.sr s.slots[7] s.voices[7].envelope s.voices[7])

/-- PERC2 (R169): bank 7. -/
def execPerc2 (s : State) : Host.Outcome State Fault Refusal := .next (perc2Step Config.params s)

end Sys2Proof.Machine
end

