-- ==== Sys2Proof/Machine/Dispatch.lean ====
section
/-! DEFINITION. What each instruction does: one arm per row of spec/opcode_table.json. -/

namespace Sys2Proof.Machine

def exec (i : Instr) (s : State) : Host.Outcome State Fault Refusal :=
  match i with
  | .nop => Sys2Proof.Machine.execNop s
  | .reset => Sys2Proof.Machine.execReset s
  | .setrate d => Sys2Proof.Machine.execSetrate d s
  | .pwrite a d => Sys2Proof.Machine.execPwrite a d s
  | .blkbegin n => Sys2Proof.Machine.execBlkbegin n s
  | .evpush a n d => Sys2Proof.Machine.execEvpush a n d s
  | .frame => Sys2Proof.Machine.execFrame s
  | .rdstat => Sys2Proof.Machine.execRdstat s
  | .kick => Sys2Proof.Machine.execKick s
  | .snare => Sys2Proof.Machine.execSnare s
  | .clap => Sys2Proof.Machine.execClap s
  | .hatclosed => Sys2Proof.Machine.execHatclosed s
  | .hatopen => Sys2Proof.Machine.execHatopen s
  | .tom => Sys2Proof.Machine.execTom s
  | .perc1 => Sys2Proof.Machine.execPerc1 s
  | .perc2 => Sys2Proof.Machine.execPerc2 s

end Sys2Proof.Machine
end

