-- ==== Sys2Proof/Machine/Step.lean ====
section
/-! DEFINITION. One step (44_scheduler_commands.md R210): take the next presented word from the command port, decode it,
execute it completely. -/

namespace Sys2Proof.Machine

/-- The state with the port's head consumed. -/
def State.withPort (s : State) (rest : List Presented) : State := { s with port := rest }

/-- With nothing presented nothing happens (R210, R251). A word with a reserved opcode sets `BADCMD` (R220). -/
def step (s : State) : Host.Outcome State Fault Refusal :=
  match s.port with
  | [] => .next s
  | p :: rest =>
    match decode p with
    | .ok i => exec i (s.withPort rest)
    | .error _ => .next (badCommand (s.withPort rest))

/-- A word of the opcode table put in front of everything presented, where `step` takes its next one. A byte that is no
kind tag is no word of the table and changes nothing. -/
def State.withFetchWord (s : State) (nbits w : Nat) : State :=
  match presentedOfTable nbits w with
  | some p => s.withPort (p :: s.port)
  | none => s

end Sys2Proof.Machine
end

