-- ==== Sys2Proof/Safety.lean ====
section
/-! DEFINITION. What holds of every state a run reaches, and what a safe run is (10_state.md R21, R23, R34, R38 to R41;
41_voice.md R171; 43_masterbus.md R195, R198; 60_exceptions.md R240). -/

namespace Sys2Proof

/-- A finite value of magnitude at most `b`. -/
abbrev F32.AbsLe (x b : F32) : Prop := F32.isFinite x = true ∧ F32.le (F32.abs x) b = true

/-- One unit in the last place above 0.7. -/
def Lit.above0_7 : F32 := 0x3F333334#32
/-- 0.85 -/
def Lit.c0_85 : F32 := 0x3F59999A#32
/-- 1.15 -/
def Lit.c1_15 : F32 := 0x3F933333#32
/-- 16.0 -/
def Lit.c16 : F32 := 0x41800000#32
/-- 26.75 -/
def Lit.c26_75 : F32 := 0x41D60000#32
/-- 34.0 -/
def Lit.c34 : F32 := 0x42080000#32
/-- 2.2 -/
def Lit.c2_2 : F32 := 0x400CCCCD#32

end Sys2Proof

namespace Sys2Proof.Machine

/-! ### The structure of the state -/

/-- R34: the cursor never passes the end of the block. -/
abbrev State.SchedOk (s : State) : Prop := s.sched.frameIdx.toNat ≤ s.sched.blockLen.toNat

/-- R74: at most `EVQ_DEPTH` events. -/
abbrev State.QueueOk (s : State) : Prop := s.queue.length ≤ Config.evqDepth

/-- R23: the rate lies in [SR_MIN, SR_MAX]. -/
abbrev State.RateOk (s : State) : Prop := F32.Within Config.srMin Config.srMax s.sr

/-- R36, R214: every parameter register holds a finite value. -/
abbrev State.ParamsOk (s : State) : Prop := ∀ r : ParamReg, F32.isFinite (s.readParam r) = true

/-- R38: the derived registers are the functions of `SR` they are defined to be. -/
abbrev State.DerivedOk (s : State) : Prop :=
  s.comp.att = compAtt Config.params.num s.sr ∧ s.comp.rel = compRel Config.params.num s.sr ∧
  s.rev.len = revLen s.sr ∧ s.rev.tap = revTaps Config.params.tapMs s.sr

/-- A delay line in canonical form that lists only words below `len`: the others hold `+0.0` (R40, R67). -/
abbrev DelayLine.Within (m : DelayLine) (len : Nat) : Prop := DelayLine.wf m = true ∧ ∀ c ∈ m, c.1 < len

/-- R40: the write index and both lines stay inside the live words. -/
abbrev State.LinesOk (s : State) : Prop :=
  s.rev.w.val < s.rev.len.val ∧ DelayLine.Within s.rev.rvl s.rev.len ∧ DelayLine.Within s.rev.rvr s.rev.len

/-- The structural invariant. -/
structure State.Structured (s : State) : Prop where
  sched : s.SchedOk
  queue : s.QueueOk
  rate : s.RateOk
  params : s.ParamsOk
  derived : s.DerivedOk
  lines : s.LinesOk

/-! ### The ranges of the values -/

/-- The ranges of a voice bank (R21). The bound of `noise_lowpass` is the model's: one unit in the last place wider than
the 0.7 the table gives, which the properties of `Num` alone do not give (log 9). An active voice's envelope is at or
above `ENV_FLOOR` (R270). -/
structure Voice.InRange (v : Voice) : Prop where
  envelope : F32.Within Lit.c0 Lit.c1 v.envelope
  active : v.active = true → F32.le Config.envFloor v.envelope = true
  decayCoef : F32.le Lit.c0 v.decayCoef = true ∧ F32.lt v.decayCoef Lit.c1 = true
  velocity : F32.Within Lit.c0 Lit.c1 v.velocity
  noiseLowpass : F32.AbsLe v.noiseLowpass Lit.above0_7
  oscPhase : F32.le Lit.c0 v.oscPhase = true ∧ F32.lt v.oscPhase Lit.twoPi = true
  baseFreq : F32.Within Lit.c20 Lit.c12000 v.baseFreq
  humanAmp : F32.Within Lit.c0_85 Lit.c1_15 v.humanAmp
  humanPitch : F32.Within Lit.n3 Lit.c3 v.humanPitch
  humanDecayMul : F32.Within Lit.c0_5 Lit.c1_5 v.humanDecayMul

/-- R39, R195: the follower is at or above 0 and at most the mixer's bound, the gain lies in [0, 1]. -/
structure Comp.InRange (c : Comp) : Prop where
  env : F32.Within Lit.c0 Lit.c16 c.env
  gain : F32.Within Lit.c0 Lit.c1 c.gain

/-- R198: with inputs of magnitude at most 16 no stored word exceeds 1.667 times that, 26.75 with the roundings. -/
abbrev DelayLine.InRange (m : DelayLine) : Prop := ∀ c ∈ m, F32.AbsLe c.2 Lit.c26_75

/-- Every value of the state in its range. -/
structure State.InRange (s : State) : Prop where
  voices : ∀ i : Slot, (s.voices[i]).InRange
  comp : s.comp.InRange
  rvl : DelayLine.InRange s.rev.rvl
  rvr : DelayLine.InRange s.rev.rvr

/-- What every state a run reaches meets. -/
structure State.Sound (s : State) : Prop where
  structured : s.Structured
  inRange : s.InRange

/-! ### Safe steps -/

/-- The step goes on: no fault and no refusal (R210, R240). -/
def State.Goes (s : State) : Prop := ∃ t, step s = .next t

/-- An output whose samples are of magnitude below 34 (R273). A status word carries no sample. -/
def Output.Bounded : Output → Prop
  | .emit record =>
    F32.isFinite (record.extractLsb' 32 32) = true ∧ F32.lt (F32.abs (record.extractLsb' 32 32)) Lit.c34 = true ∧
    F32.isFinite (record.extractLsb' 0 32) = true ∧ F32.lt (F32.abs (record.extractLsb' 0 32)) Lit.c34 = true
  | .respond _ => True
  | .rendered sample => F32.AbsLe sample Lit.c2_2

end Sys2Proof.Machine
end

