-- ==== Sys2Proof/WellFormed.lean ====
section
/-! DEFINITION. The checks a host that keeps the contract of 30_encoding.md meets: no reserved parameter address (R96,
R98) and no slot index above 7 (R95, R99). Both can be encoded, and the CORE gives both a meaning (a dropped command and
a sticky flag), so `exec` and the round trip are stated of ill-formed instructions too. -/

namespace Sys2Proof

/-- A defined address of the space `PARAM` (R96): a slot register whose field is not 7, or one of the five master
registers. -/
def paramDefined (a : U8) : Bool :=
  decide (a.toNat < 0x40 ∧ a.toNat % 8 ≠ 7) || decide (0x40 ≤ a.toNat ∧ a.toNat ≤ 0x44)

/-- A slot index in range (R95). -/
def slotInRange (a : U8) : Bool := decide (a.toNat ≤ 7)

/-- The instruction names no reserved address and no slot out of range. -/
def Instr.wellFormed : Instr → Bool
  | .pwrite a _ => paramDefined a
  | .evpush a _ _ => slotInRange a
  | .nop | .reset | .setrate _ | .blkbegin _ | .frame | .rdstat => true
  | .kick | .snare | .clap | .hatclosed | .hatopen | .tom | .perc1 | .perc2 => true

end Sys2Proof
end

