-- ==== Sys2Proof/Certificates/Slice0/Obligations.lean ====
section
/-! DEFINITION. The statements for the provers. Each docstring names the rule of the spec it rests on. Statements about
`exec` and `step` hold for whatever admissible `Num`, seeds and tap delays the instance has (`Config.params` is a free
value). -/

open Sys2Proof Sys2Proof.Machine

/-! ### Words the statements use -/

namespace Sys2Proof.Claims

/-- The next NOISE sample of a voice (R123). -/
def noiseOf (v : Voice) : F32 := F32.mul Lit.c0_7 (bipolarOf (lcg v.prngState))

/-- HPBAND's low-pass state after that sample at cutoff `fc` (R126). -/
def lowpassAfter (N : Numerics) (sr fc : F32) (v : Voice) : F32 :=
  F32.add v.noiseLowpass
    (F32.mul
      (F32.sub Lit.c1 (N.exp (F32.neg (F32.div (F32.mul Lit.twoPi (clamp fc Lit.c200 (F32.mul Lit.c0_45 sr))) sr))))
      (F32.sub (noiseOf v) v.noiseLowpass))

/-- The noise band at cutoff `fc`: the sample less the updated low-pass state (R126). -/
def bandOf (N : Numerics) (sr fc : F32) (v : Voice) : F32 := F32.sub (noiseOf v) (lowpassAfter N sr fc v)

/-- The oscillator's phase after one call at frequency `f` (R125). -/
def phaseAfter (sr f : F32) (v : Voice) : F32 :=
  wrap (F32.add v.oscPhase (F32.div (F32.mul Lit.twoPi f) sr))

/-- What a renderer with a body changes of its voice: the PRNG advanced once, the band filter at `fc` and the
oscillator at `f` stepped once. -/
def stepped (N : Numerics) (sr fc f : F32) (v : Voice) : Voice :=
  { v with
    prngState := lcg v.prngState
    noiseLowpass := lowpassAfter N sr fc v
    oscPhase := phaseAfter sr f v }

/-- What a renderer without a body changes of its voice. -/
def filtered (N : Numerics) (sr fc : F32) (v : Voice) : Voice :=
  { v with prngState := lcg v.prngState, noiseLowpass := lowpassAfter N sr fc v }

/-- A renderer's step: its bank replaced, its sample on the trace, nothing else. -/
def renderedTo (s : State) (i : Slot) (v : Voice) (x : F32) : State :=
  { s with voices := s.voices.set i v, out := s.out ++ [.rendered x] }

/-- FRAME renders: the cursor stands before the end of the block (R217). -/
abbrev inBlock (s : State) : Prop := s.sched.frameIdx.toNat < s.sched.blockLen.toNat

/-- The events FRAME releases: from the head of the queue while `offset <= frame_idx` (R218). -/
def releasedEvents (s : State) : List Event :=
  s.queue.takeWhile fun e => decide (e.offset.toNat ≤ s.sched.frameIdx.toNat)

/-- Voice `i` after the releases of this frame: TRIG by each of its own events, in arrival order (R218, R181). -/
def triggeredVoice (s : State) (i : Slot) : Voice :=
  ((releasedEvents s).filter fun e => e.slot = i).foldl
    (fun v e => trig Config.params.num s.sr s.master s.slots[i] i e.velocity v) s.voices[i]

/-- VPROC of voice `i` in this frame. -/
def framedVoice (s : State) (i : Slot) : Voice × F32 :=
  vproc Config.params.num s.sr s.slots[i] (kindOf i) (triggeredVoice s i)

/-- The mixer's sum for one channel: ascending slot order, from `+0.0` (R183). -/
def mixedChannel (s : State) (gain : F32 → F32) : F32 :=
  [0, 1, 2, 3, 4, 5, 6, 7].foldl (fun acc (i : Slot) => F32.add acc
    (F32.mul (F32.mul (framedVoice s i).2 (clamp s.slots[i].level Lit.c0 Lit.c2))
      (gain (F32.mul (F32.mul (F32.add (clamp s.slots[i].pan Lit.n1 Lit.c1) Lit.c1) Lit.c0_5) Lit.halfPi)))) Lit.c0

/-- The mono mix the reverb is fed in this frame: the mean of the channels after saturation and compressor (R190,
R197). -/
def reverbInput (s : State) : F32 :=
  let x := sat s.master (mixedChannel s Config.params.num.cos) (mixedChannel s Config.params.num.sin)
  let y := compStep Config.params.num s.master s.comp x.1 x.2
  F32.mul Lit.c0_5 (F32.add y.2.1 y.2.2)

/-- A master stage is bypassed: its clamped amount is below 0.001 (R191). -/
abbrev stageOff (amount : F32) : Prop := F32.lt (clamp amount Lit.c0 Lit.c1) Lit.c0_001 = true

/-- VPROC called `n` times on a voice. -/
def vprocTimes (N : Numerics) (sr : F32) (p : SlotParams) (k : Kind) : Nat → Voice → Voice
  | 0, v => v
  | n + 1, v => vprocTimes N sr p k n (vproc N sr p k v).1

/-- REV_STEP on a list of inputs, one frame each, the first first. -/
def revTimes : List (MasterParams × F32 × F32) → Reverb → Reverb
  | [], rv => rv
  | x :: rest, rv => revTimes rest (revStep x.1 rv x.2.1 x.2.2).1

end Sys2Proof.Claims

open Sys2Proof.Claims

/-! ### Decoding and the step -/

/-- Words of R107 and of the families' rules, and kind tags of R101, written out, decode to the instruction they stand
for. That a tag is presented to the machine is the model's (log 7). -/
def Obligations.SampleWordsDecode : Prop :=
  decode (.command 0x0000000000000000#64) = .ok .nop ∧
  decode (.command 0x0100000000000000#64) = .ok .reset ∧
  decode (.command 0x02000000472C4400#64) = .ok (.setrate 0x472C4400#32) ∧
  decode (.command 0x0303000043960000#64) = .ok (.pwrite 0x03#8 0x43960000#32) ∧
  decode (.command 0x034400003F000000#64) = .ok (.pwrite 0x44#8 0x3F000000#32) ∧
  decode (.command 0x0400000400000000#64) = .ok (.blkbegin 4#16) ∧
  decode (.command 0x050100023F800000#64) = .ok (.evpush 1#8 2#16 0x3F800000#32) ∧
  decode (.command 0x0600000000000000#64) = .ok .frame ∧
  decode (.command 0x0700000000000000#64) = .ok .rdstat ∧
  decode (.renderer 0b000#3) = .ok .kick ∧ decode (.renderer 0b011#3) = .ok .hatclosed ∧
  decode (.renderer 0b111#3) = .ok .perc2

/-- R90 to R95, R101, R107: decoding what is encoded gives every instruction back, with every operand. -/
def Obligations.DecodeEncodeRoundTrip : Prop := ∀ i : Instr, decode (encode i) = .ok i

/-- R91: the opcode selects the command, each command takes the fields it uses, and a field it does not use is ignored
whatever its value. -/
def Obligations.UnusedFieldsIgnored : Prop :=
  (∀ w : U64,
    (cmdOp w = 0x00#8 → decodeCommand w = .ok .nop) ∧
    (cmdOp w = 0x01#8 → decodeCommand w = .ok .reset) ∧
    (cmdOp w = 0x02#8 → decodeCommand w = .ok (.setrate (w.extractLsb' 0 32))) ∧
    (cmdOp w = 0x03#8 → decodeCommand w = .ok (.pwrite (w.extractLsb' 48 8) (w.extractLsb' 0 32))) ∧
    (cmdOp w = 0x04#8 → decodeCommand w = .ok (.blkbegin (w.extractLsb' 32 16))) ∧
    (cmdOp w = 0x05#8 →
      decodeCommand w = .ok (.evpush (w.extractLsb' 48 8) (w.extractLsb' 32 16) (w.extractLsb' 0 32))) ∧
    (cmdOp w = 0x06#8 → decodeCommand w = .ok .frame) ∧
    (cmdOp w = 0x07#8 → decodeCommand w = .ok .rdstat)) ∧
  ∀ w w' : U64, cmdOp w = cmdOp w' →
    (cmdOp w ∈ [0x03#8, 0x05#8] → cmdA w = cmdA w') →
    (cmdOp w ∈ [0x04#8, 0x05#8] → cmdN w = cmdN w') →
    (cmdOp w ∈ [0x02#8, 0x03#8, 0x05#8] → cmdD w = cmdD w') →
    decodeCommand w = decodeCommand w'

/-- R96: the whole parameter address map, and that every other address is reserved. -/
def Obligations.ParamAddressMap : Prop :=
  (∀ i : Slot,
    paramReg (BitVec.ofNat 8 (8 * i)) = some (.slot i .level) ∧
    paramReg (BitVec.ofNat 8 (8 * i + 1)) = some (.slot i .pan) ∧
    paramReg (BitVec.ofNat 8 (8 * i + 2)) = some (.slot i .tone) ∧
    paramReg (BitVec.ofNat 8 (8 * i + 3)) = some (.slot i .decayMs) ∧
    paramReg (BitVec.ofNat 8 (8 * i + 4)) = some (.slot i .snap) ∧
    paramReg (BitVec.ofNat 8 (8 * i + 5)) = some (.slot i .pitch) ∧
    paramReg (BitVec.ofNat 8 (8 * i + 6)) = some (.slot i .humanize)) ∧
  paramReg 0x40#8 = some (.master .drive) ∧ paramReg 0x41#8 = some (.master .comp) ∧
  paramReg 0x42#8 = some (.master .reverb) ∧ paramReg 0x43#8 = some (.master .kitPitch) ∧
  paramReg 0x44#8 = some (.master .velocityCurve) ∧
  ∀ a : U8, paramReg a = none ↔ (a.toNat ≤ 0x3F ∧ a.toNat % 8 = 7) ∨ 0x45 ≤ a.toNat

/-- R63, R104: over a byte-wide channel a command is its eight bytes, least significant first, and nothing more; a frame
record is the four bytes of the right sample and then those of the left (R103), a status word its four bytes, each least
significant first (log 12). -/
def Obligations.ByteStreamDecode : Prop :=
  (∀ (w : U64) (rest : List (BitVec 8)),
    decodeBytes (bytesOfWord w ++ rest) =
      match decodeCommand w with
      | .ok i => .ok (i, rest)
      | .error r => .error r) ∧
  (∀ l r : F32, (Output.emit (frameRecord l r)).bytes =
    [r.extractLsb' 0 8, r.extractLsb' 8 8, r.extractLsb' 16 8, r.extractLsb' 24 8,
     l.extractLsb' 0 8, l.extractLsb' 8 8, l.extractLsb' 16 8, l.extractLsb' 24 8]) ∧
  ∀ w : U32, (Output.respond w).bytes =
    [w.extractLsb' 0 8, w.extractLsb' 8 8, w.extractLsb' 16 8, w.extractLsb' 24 8]

/-- R210: the word at the port is consumed, decoded and executed completely: `step` is `exec` of the decoded
instruction on the state with that word taken from the port. With nothing presented no state changes. -/
def Obligations.StepRunsDecodedInstruction : Prop :=
  (∀ (s : State) (p : Presented) (rest : List Presented) (i : Instr),
    s.port = p :: rest → decode p = .ok i → step s = exec i { s with port := rest }) ∧
  ∀ s : State, s.port = [] → step s = .next s

/-- R220, R97: a reserved opcode sets `BADCMD` and nothing else; the rest of the word is not examined. -/
def Obligations.ReservedOpcodeSetsBadcmdOnly : Prop :=
  ∀ (s : State) (w : U64) (rest : List Presented),
    s.port = .command w :: rest → 0x08 ≤ (w.extractLsb' 56 8).toNat →
    step s = .next { s with port := rest, sticky := { s.sticky with badcmd := true } }

/-! ### The host commands -/

/-- R211: no state change, no output, and the encoding with the unused fields zero. -/
def Obligations.NopChangesNothing : Prop :=
  (∀ s : State, exec .nop s = .next s) ∧ decodeCommand 0x0000000000000000#64 = .ok .nop

/-- R261, R212: every piece of state takes its reset value. That what was presented and output stays is the model's
reading of R18 and R42 (log 6). -/
def Obligations.ResetWritesEveryRegister : Prop :=
  ∀ s : State, ∃ t : State, exec .reset s = .next t ∧
    t.sr = 0x472C4400#32 ∧
    (∀ i : Slot, t.voices[i] =
      { active := false, envelope := Lit.c0, decayCoef := Lit.c0, velocity := Lit.c0,
        prngState := Config.params.seed[i], noiseLowpass := Lit.c0, oscPhase := Lit.c0,
        baseFreq := #v[Lit.c55, Lit.c180, Lit.c250, Lit.c8000, Lit.c7000, Lit.c140, Lit.c400, Lit.c700][i],
        humanAmp := Lit.c1, humanPitch := Lit.c0, humanDecayMul := Lit.c1 }) ∧
    (∀ r : ParamReg, t.readParam r = Lit.c0) ∧
    t.sched = { frameIdx := 0, blockLen := 0 } ∧ t.queue = [] ∧
    t.sticky = ⟨false, false, false, false, false, false, false⟩ ∧
    t.comp.env = Lit.c0 ∧ t.comp.gain = Lit.c1 ∧
    t.comp.att = Config.params.num.exp (F32.neg (F32.div Lit.c1 (F32.mul Lit.c0_005 t.sr))) ∧
    t.comp.rel = Config.params.num.exp (F32.neg (F32.div Lit.c1 (F32.mul Lit.c0_08 t.sr))) ∧
    t.rev.len = revLen t.sr ∧ t.rev.tap = revTaps Config.params.tapMs t.sr ∧ t.rev.w = 0 ∧
    (∀ k, DelayLine.get t.rev.rvl k = Lit.c0 ∧ DelayLine.get t.rev.rvr k = Lit.c0) ∧
    t.port = s.port ∧ t.out = s.out

/-- R196: the reverb geometry, formula and bounds, and which delay each tap comes from: L1, L2, R1, R2 from `TAP_MS[0]`
to `TAP_MS[3]`. -/
def Obligations.ReverbGeometry : Prop :=
  (∀ (m0 m1 m2 m3 sr : F32),
    revTaps ⟨m0, m1, m2, m3⟩ sr = { l1 := revTap m0 sr, l2 := revTap m1 sr, r1 := revTap m2 sr, r2 := revTap m3 sr }) ∧
  ∀ ms sr : F32,
    (revLen sr).val = min (max (F32.toInt (F32.floor (F32.mul Lit.c0_25 sr))) 2) 48000 ∧
    (revTap ms sr).val =
      min (max (F32.toInt (F32.floor (F32.div (F32.mul ms sr) Lit.c1000))) 1) ((revLen sr).val - 1) ∧
    2 ≤ (revLen sr).val ∧ (revLen sr).val ≤ 48000 ∧ 1 ≤ (revTap ms sr).val ∧ (revTap ms sr).val ≤ (revLen sr).val - 1

/-- R213: the state after SETRATE, whole. -/
def Obligations.SetrateSilencesAndRecomputes : Prop :=
  ∀ (d : F32) (s : State), exec (.setrate d) s = .next
    { s with
      sr := clamp d Lit.c1 Lit.c192000
      voices := Vector.ofFn fun i =>
        { s.voices[i] with active := false, envelope := Lit.c0, noiseLowpass := Lit.c0, oscPhase := Lit.c0 }
      comp :=
        { env := Lit.c0, gain := Lit.c1
          att := Config.params.num.exp
            (F32.neg (F32.div Lit.c1 (F32.mul Lit.c0_005 (clamp d Lit.c1 Lit.c192000))))
          rel := Config.params.num.exp
            (F32.neg (F32.div Lit.c1 (F32.mul Lit.c0_08 (clamp d Lit.c1 Lit.c192000)))) }
      rev :=
        { len := revLen (clamp d Lit.c1 Lit.c192000)
          tap := revTaps Config.params.tapMs (clamp d Lit.c1 Lit.c192000), w := 0, rvl := [], rvr := [] }
      sticky :=
        { s.sticky with ratefix := s.sticky.ratefix || !F32.eq (clamp d Lit.c1 Lit.c192000) d } }

/-- R213, R241: which rate SETRATE stores for every operand, NaN and infinities too, and that `RATEFIX` is set exactly
when the operand is a NaN or outside [1.0, 192000.0]. -/
def Obligations.SetrateConditionsEveryOperand : Prop :=
  ∀ (d : F32) (s : State), ∃ t : State, exec (.setrate d) s = .next t ∧
    F32.Within Lit.c1 Lit.c192000 t.sr ∧
    (F32.Within Lit.c1 Lit.c192000 d → t.sr = d ∧ t.sticky = s.sticky) ∧
    (F32.isNaN d = true ∨ F32.lt d Lit.c1 = true → t.sr = Lit.c1) ∧
    (F32.lt Lit.c192000 d = true → t.sr = Lit.c192000) ∧
    (¬F32.Within Lit.c1 Lit.c192000 d → t.sticky = { s.sticky with ratefix := true })

/-- R214: a finite value at a defined address replaces that register and nothing else; a reserved address or a value
that is not finite sets `PDROP` and nothing else. -/
def Obligations.PwriteStoresOrDrops : Prop :=
  (∀ (a : U8) (d : F32) (s : State) (r : ParamReg), paramReg a = some r → F32.isFinite d = true →
    ∃ t : State, exec (.pwrite a d) s = .next t ∧ t.readParam r = d ∧
      (∀ q : ParamReg, q ≠ r → t.readParam q = s.readParam q) ∧
      t = { s with slots := t.slots, master := t.master }) ∧
  ∀ (a : U8) (d : F32) (s : State), paramReg a = none ∨ F32.isFinite d = false →
    exec (.pwrite a d) s = .next { s with sticky := { s.sticky with pdrop := true } }

/-- R215 -/
def Obligations.BlkbeginOpensBlock : Prop :=
  ∀ (n : U16) (s : State), exec (.blkbegin n) s = .next
    { s with
      sched := { frameIdx := 0, blockLen := n }
      queue := []
      sticky := { s.sticky with evlate := s.sticky.evlate || !s.queue.isEmpty } }

/-- R216: the slot check first, then the capacity, then the event at the tail with its raw velocity. -/
def Obligations.EvpushQueuesOrDrops : Prop :=
  ∀ (a : U8) (n : U16) (d : F32) (s : State),
    (7 < a.toNat → exec (.evpush a n d) s = .next { s with sticky := { s.sticky with evslot := true } }) ∧
    (a.toNat ≤ 7 → 64 ≤ s.queue.length →
      exec (.evpush a n d) s = .next { s with sticky := { s.sticky with evfull := true } }) ∧
    (a.toNat ≤ 7 → s.queue.length < 64 → ∃ i : Slot, i.val = a.toNat ∧
      exec (.evpush a n d) s = .next { s with queue := s.queue ++ [{ slot := i, velocity := d, offset := n }] })

/-- R219, R102: RDSTAT responds with the status word and changes nothing. -/
def Obligations.RdstatReportsState : Prop :=
  ∀ s : State, ∃ w : U32, exec .rdstat s = .next { s with out := s.out ++ [.respond w] } ∧
    w.extractLsb' 16 16 = s.sched.frameIdx ∧
    (∀ i : Slot, w.getLsbD (8 + i) = (s.voices[i]).active) ∧
    w.getLsbD 7 = !s.queue.isEmpty ∧ w.getLsbD 6 = s.sticky.ratefix ∧ w.getLsbD 5 = s.sticky.pdrop ∧
    w.getLsbD 4 = s.sticky.seq ∧ w.getLsbD 3 = s.sticky.badcmd ∧ w.getLsbD 2 = s.sticky.evlate ∧
    w.getLsbD 1 = s.sticky.evslot ∧ w.getLsbD 0 = s.sticky.evfull

/-! ### FRAME -/

/-- R217: outside a block FRAME sets `SEQ` and does nothing else. -/
def Obligations.FrameOutsideBlockSetsSeqOnly : Prop :=
  ∀ s : State, s.sched.blockLen.toNat ≤ s.sched.frameIdx.toNat →
    exec .frame s = .next { s with sticky := { s.sticky with seq := true } }

/-- R217, R218: inside a block FRAME completes; exactly one frame record is emitted, the cursor advances by 1, the due
events leave the queue from its head, and of the rest only voices, compressor follower and gain, and the reverb's lines
and write index may change. -/
def Obligations.FrameRendersOneFrame : Prop :=
  ∀ s : State, inBlock s → ∃ (t : State) (record : U64), exec .frame s = .next t ∧
    t.out = s.out ++ [.emit record] ∧
    t.sched.frameIdx.toNat = s.sched.frameIdx.toNat + 1 ∧ t.sched.blockLen = s.sched.blockLen ∧
    releasedEvents s ++ t.queue = s.queue ∧
    (∀ e ∈ t.queue.head?, s.sched.frameIdx.toNat < e.offset.toNat) ∧
    t.sr = s.sr ∧ t.slots = s.slots ∧ t.master = s.master ∧ t.sticky = s.sticky ∧ t.port = s.port ∧
    t.comp.att = s.comp.att ∧ t.comp.rel = s.comp.rel ∧ t.rev.len = s.rev.len ∧ t.rev.tap = s.rev.tap

/-- R217, R218, R185: after FRAME each voice is VPROC of that voice triggered by its own released events in arrival
order; nothing of any other voice enters. -/
def Obligations.FrameRendersEachVoice : Prop :=
  ∀ s : State, inBlock s → ∃ t : State, exec .frame s = .next t ∧
    ∀ i : Slot, t.voices[i] = (framedVoice s i).1

/-- R185: what a voice becomes in a frame is the same in two states that agree on it, its parameters, the rate and the
released events, whatever the other voices, the flags, the compressor and the reverb hold. -/
def Obligations.VoicesDoNotInterfere : Prop :=
  ∀ (s s' t t' : State) (i : Slot),
    s'.voices[i] = s.voices[i] → s'.slots[i] = s.slots[i] → s'.master = s.master → s'.sr = s.sr →
    s'.sched = s.sched → s'.queue = s.queue →
    exec .frame s = .next t → exec .frame s' = .next t' → inBlock s → t'.voices[i] = t.voices[i]

/-- R217, R183, R190, R103: the frame emitted is the master bus applied to the mixer's two sums, left in bits 63:32 and
right in bits 31:0, and the compressor and the reverb are left as the master bus leaves them. -/
def Obligations.FrameEmitsTheMasteredMix : Prop :=
  ∀ s : State, inBlock s → ∃ (t : State) (l r : F32), exec .frame s = .next t ∧
    master Config.params.num s.master s.comp s.rev
      (mixedChannel s Config.params.num.cos) (mixedChannel s Config.params.num.sin) = (t.comp, t.rev, l, r) ∧
    t.out = s.out ++ [.emit (l ++ r)]

/-- R62, R61: the two index formulas, each below the length; inside the bounds of R40 the `mod` is one conditional
subtraction; and a tap of delay `d` reads the word written exactly `d` REV_STEPs that are not bypassed earlier, or `+0.0`
when fewer have run since the lines were cleared. -/
def Obligations.TapReadsTheWordWrittenDFramesAgo : Prop :=
  (∀ (w : LineIndex) (len : LineLen) (d : LineIndex),
    (tapIndex w len d).val = (w.val + len.val - d.val) % len.val ∧ (tapIndex w len d).val < len.val ∧
    (nextIndex w len).val = (w.val + 1) % len.val ∧ (nextIndex w len).val < len.val ∧
    (w.val < len.val → 1 ≤ d.val → d.val ≤ len.val - 1 →
      (tapIndex w len d).val =
        if len.val ≤ w.val + len.val - d.val then w.val + len.val - d.val - len.val else w.val + len.val - d.val)) ∧
  (∀ (rv : Reverb) (first : MasterParams × F32 × F32) (rest : List (MasterParams × F32 × F32)) (d : LineIndex),
    (∀ x ∈ first :: rest, ¬stageOff x.1.reverb) → DelayLine.wf rv.rvl = true → DelayLine.wf rv.rvr = true →
    rv.w.val < rv.len.val → d.val = rest.length + 1 → d.val ≤ rv.len.val - 1 →
    let written := (revStep first.1 rv first.2.1 first.2.2).1
    let now := revTimes (first :: rest) rv
    memRead now.rvl (tapIndex now.w now.len d) = memRead written.rvl rv.w ∧
    memRead now.rvr (tapIndex now.w now.len d) = memRead written.rvr rv.w) ∧
  ∀ (C : Params) (sr : F32) (steps : List (MasterParams × F32 × F32)) (d : LineIndex),
    (∀ x ∈ steps, ¬stageOff x.1.reverb) → steps.length < d.val → d.val ≤ (revLen sr).val - 1 →
    let now := revTimes steps (Reverb.atRate C sr)
    memRead now.rvl (tapIndex now.w now.len d) = Lit.c0 ∧ memRead now.rvr (tapIndex now.w now.len d) = Lit.c0

/-- R262, R183: with every voice inactive, no event due and the three master stages bypassed, as after reset, a frame is
exactly (`+0.0`, `+0.0`) and changes no voice, compressor or reverb. -/
def Obligations.SilentBankEmitsZeros : Prop :=
  ∀ s : State, inBlock s → (∀ i : Slot, (s.voices[i]).active = false) → releasedEvents s = [] →
    stageOff s.master.drive → stageOff s.master.comp → stageOff s.master.reverb →
    ∃ t : State, exec .frame s = .next t ∧ t.out = s.out ++ [.emit 0x0000000000000000#64] ∧
      t.voices = s.voices ∧ t.comp = s.comp ∧ t.rev = s.rev

/-- R197, R62, R40: a frame with the reverb engaged writes one word of each line, at the write index, fed from the words
tapped before the write, and advances the index; every other word reads as before. A bypassed reverb writes none. -/
def Obligations.FrameWritesOneWordPerLine : Prop :=
  ∀ s : State, DelayLine.wf s.rev.rvl = true → DelayLine.wf s.rev.rvr = true → inBlock s →
    ∃ t : State, exec .frame s = .next t ∧
    (stageOff s.master.reverb → t.rev = s.rev) ∧
    (¬stageOff s.master.reverb →
      let back := fun d : LineIndex => (s.rev.w.val + s.rev.len.val - d.val) % s.rev.len.val
      t.rev.w.val = (s.rev.w.val + 1) % s.rev.len.val ∧
      (∀ k, k ≠ s.rev.w.val → DelayLine.get t.rev.rvl k = DelayLine.get s.rev.rvl k ∧
        DelayLine.get t.rev.rvr k = DelayLine.get s.rev.rvr k) ∧
      DelayLine.get t.rev.rvl s.rev.w = F32.add (reverbInput s) (F32.mul (F32.add
        (F32.mul Lit.c0_7 (DelayLine.get s.rev.rvl (back s.rev.tap.l1)))
        (F32.mul Lit.c0_3 (DelayLine.get s.rev.rvl (back s.rev.tap.l2)))) Lit.c0_4) ∧
      DelayLine.get t.rev.rvr s.rev.w = F32.add (reverbInput s) (F32.mul (F32.add
        (F32.mul Lit.c0_7 (DelayLine.get s.rev.rvr (back s.rev.tap.r1)))
        (F32.mul Lit.c0_3 (DelayLine.get s.rev.rvr (back s.rev.tap.r2)))) Lit.c0_4))

/-! ### The renderers -/

/-- R162. That the renderer runs as a step of its own, on the envelope register, is the model's choice (log 7). -/
def Obligations.KickResult : Prop :=
  ∀ s : State,
    let N := Config.params.num
    let v := s.voices[0]
    let env := v.envelope
    let t := clamp s.slots[0].tone Lit.c0 Lit.c1
    let sn := clamp s.slots[0].snap Lit.c0 Lit.c1
    let sweep := F32.mul (F32.mul Lit.c30 (F32.add Lit.c0_3 (F32.mul Lit.c0_7 t))) (F32.mul env env)
    let fr := F32.mul v.baseFreq (N.pow Lit.c2 (F32.div sweep Lit.c12))
    let fc := F32.add Lit.c4000 (F32.mul Lit.c4000 t)
    let body := softsat (F32.mul (N.sin (phaseAfter s.sr fr v)) (F32.add Lit.c1 (F32.mul Lit.c3 sn)))
    let click := F32.mul (bandOf N s.sr fc v) (F32.mul sn (N.pow env Lit.c0_3))
    exec .kick s = .next (renderedTo s 0 (stepped N s.sr fc fr v)
      (F32.add (F32.mul Lit.c0_9 body) (F32.mul Lit.c0_4 click)))

/-- R163. That the renderer runs as a step of its own, on the envelope register, is the model's choice (log 7). -/
def Obligations.SnareResult : Prop :=
  ∀ s : State,
    let N := Config.params.num
    let v := s.voices[1]
    let t := clamp s.slots[1].tone Lit.c0 Lit.c1
    let sn := clamp s.slots[1].snap Lit.c0 Lit.c1
    let fc := F32.add Lit.c2000 (F32.mul Lit.c6000 t)
    exec .snare s = .next (renderedTo s 1 (stepped N s.sr fc v.baseFreq v)
      (F32.add (F32.mul (F32.mul Lit.c0_4 (F32.sub Lit.c1 t)) (N.sin (phaseAfter s.sr v.baseFreq v)))
        (F32.mul (F32.add Lit.c0_8 (F32.mul Lit.c0_4 sn)) (bandOf N s.sr fc v))))

/-- R164. That the renderer runs as a step of its own, on the envelope register, is the model's choice (log 7). -/
def Obligations.ClapResult : Prop :=
  ∀ s : State,
    let N := Config.params.num
    let v := s.voices[2]
    let t := clamp s.slots[2].tone Lit.c0 Lit.c1
    let sn := clamp s.slots[2].snap Lit.c0 Lit.c1
    let fc := F32.add Lit.c800 (F32.mul Lit.c1200 (F32.sub Lit.c1 t))
    exec .clap s = .next (renderedTo s 2 (filtered N s.sr fc v)
      (F32.mul (bandOf N s.sr fc v)
        (fmin Lit.c1_5 (F32.mul (N.pow v.envelope Lit.c0_3) (F32.add Lit.c1 (F32.mul Lit.c0_6 sn))))))

/-- R165. That the renderer runs as a step of its own, on the envelope register, is the model's choice (log 7). -/
def Obligations.HatClosedResult : Prop :=
  ∀ s : State,
    let N := Config.params.num
    let v := s.voices[3]
    let t := clamp s.slots[3].tone Lit.c0 Lit.c1
    let sn := clamp s.slots[3].snap Lit.c0 Lit.c1
    let fc := F32.add Lit.c6000 (F32.mul Lit.c6000 t)
    exec .hatclosed s = .next (renderedTo s 3 (filtered N s.sr fc v)
      (F32.mul (F32.mul (bandOf N s.sr fc v) (N.pow v.envelope (F32.sub Lit.c2_5 (F32.mul Lit.c1_5 sn))))
        (F32.add Lit.c0_8 (F32.mul Lit.c0_4 sn))))

/-- R166. That the renderer runs as a step of its own, on the envelope register, is the model's choice (log 7). -/
def Obligations.HatOpenResult : Prop :=
  ∀ s : State,
    let N := Config.params.num
    let v := s.voices[4]
    let t := clamp s.slots[4].tone Lit.c0 Lit.c1
    let sn := clamp s.slots[4].snap Lit.c0 Lit.c1
    let fc := F32.add Lit.c5000 (F32.mul Lit.c5000 t)
    exec .hatopen s = .next (renderedTo s 4 (filtered N s.sr fc v)
      (F32.mul (F32.mul (bandOf N s.sr fc v) (N.pow v.envelope (F32.add Lit.c1_2 (F32.mul Lit.c0_8 sn))))
        (F32.add Lit.c0_9 (F32.mul Lit.c0_3 sn))))

/-- R167. That the renderer runs as a step of its own, on the envelope register, is the model's choice (log 7). -/
def Obligations.TomResult : Prop :=
  ∀ s : State,
    let N := Config.params.num
    let v := s.voices[5]
    let t := clamp s.slots[5].tone Lit.c0 Lit.c1
    let fc := F32.add Lit.c1500 (F32.mul Lit.c3000 t)
    exec .tom s = .next (renderedTo s 5 (stepped N s.sr fc v.baseFreq v)
      (F32.add (F32.mul Lit.c0_9 (N.sin (phaseAfter s.sr v.baseFreq v)))
        (F32.mul Lit.c0_3 (bandOf N s.sr fc v))))

/-- R168. That the renderer runs as a step of its own, on the envelope register, is the model's choice (log 7). -/
def Obligations.PercOneResult : Prop :=
  ∀ s : State,
    let N := Config.params.num
    let v := s.voices[6]
    let t := clamp s.slots[6].tone Lit.c0 Lit.c1
    let fc := F32.add Lit.c2500 (F32.mul Lit.c6000 t)
    let fr := F32.mul (F32.mul Lit.c1_5 v.baseFreq) (F32.add Lit.c1 (F32.div t Lit.c3))
    exec .perc1 s = .next (renderedTo s 6 (stepped N s.sr fc fr v)
      (F32.add (F32.mul (F32.mul Lit.c0_9 (N.pow v.envelope Lit.c0_7)) (bandOf N s.sr fc v))
        (F32.mul Lit.c0_3 (N.sin (phaseAfter s.sr fr v)))))

/-- R169. That the renderer runs as a step of its own, on the envelope register, is the model's choice (log 7). -/
def Obligations.PercTwoResult : Prop :=
  ∀ s : State,
    let N := Config.params.num
    let v := s.voices[7]
    let t := clamp s.slots[7].tone Lit.c0 Lit.c1
    let fc := F32.add Lit.c2000 (F32.mul Lit.c5000 t)
    let fr := F32.mul v.baseFreq (F32.add Lit.c1 t)
    exec .perc2 s = .next (renderedTo s 7 (stepped N s.sr fc fr v)
      (F32.mul (N.pow v.envelope Lit.c0_9)
        (F32.add (F32.mul Lit.c0_6 (N.sin (phaseAfter s.sr fr v))) (F32.mul Lit.c0_5 (bandOf N s.sr fc v)))))

/-- Each renderer run as a step of its own (log 7). R160, R180: KICK, SNARE, CLAP, HATCLOSED, HATOPEN, TOM, PERC1 and
PERC2 (the renderers of tags 0 to 7) complete in every state, and give the voice and the sample that VPROC's dispatch on
the kind tag gives the bank of that number. R170, R31: each advances its own voice's PRNG exactly once and may change
besides only that voice's band filter and, where it has a body, its phase; CLAP, HATCLOSED and HATOPEN never touch the
phase. -/
def Obligations.RenderersAdvancePrngOnce : Prop :=
  ∀ (i : Slot) (s : State), ∃ (t : State) (x : F32),
    exec ([.kick, .snare, .clap, .hatclosed, .hatopen, .tom, .perc1, .perc2].get i) s = .next t ∧
    render Config.params.num s.sr s.slots[i] (kindOf i) (s.voices[i]).envelope s.voices[i] = (t.voices[i], x) ∧
    t.voices[i] = { s.voices[i] with
      prngState := lcg (s.voices[i]).prngState
      noiseLowpass := (t.voices[i]).noiseLowpass
      oscPhase := (t.voices[i]).oscPhase } ∧
    (i ∈ [2, 3, 4] → (t.voices[i]).oscPhase = (s.voices[i]).oscPhase) ∧
    (∀ j : Slot, j ≠ i → t.voices[j] = s.voices[j]) ∧
    t = { s with voices := t.voices, out := s.out ++ [.rendered x] }

/-- A renderer run as a step of its own (log 7). R171: on a voice in its ranges, whatever the parameters hold, a
renderer's sample is finite and of magnitude at most 2.2, and the voice stays in its ranges. The bounds of
`noise_lowpass` in the ranges are the model's (log 9). -/
def Obligations.RendererResultsBounded : Prop :=
  ∀ (i : Slot) (s : State), s.RateOk → (s.voices[i]).InRange → ∃ (t : State) (x : F32),
    exec ([.kick, .snare, .clap, .hatclosed, .hatopen, .tom, .perc1, .perc2].get i) s = .next t ∧
    t.out = s.out ++ [.rendered x] ∧ F32.AbsLe x Lit.c2_2 ∧ (t.voices[i]).InRange

/-! ### The voice -/

/-- R150 to R155: every field TRIG leaves, for both branches of the humanize test. R172, R151: so of the voice it
restarts TRIG reads nothing but the PRNG state. -/
def Obligations.TrigWritesEveryField : Prop :=
  (∀ (N : Numerics) (sr : F32) (m : MasterParams) (p : SlotParams) (i : Slot) (vel : F32) (v : Voice),
    let g1 := lcg v.prngState
    let h := clamp p.humanize Lit.c0 Lit.c1
    let on := F32.lt Lit.c0 h
    let amp := if on then F32.add Lit.c1 (F32.mul (F32.mul Lit.c0_15 h) (bipolarOf (lcg g1))) else Lit.c1
    let pit := if on then F32.mul (F32.mul Lit.c3 h) (bipolarOf (lcg (lcg g1))) else Lit.c0
    let dec := if on then F32.add Lit.c1 (F32.mul (F32.mul Lit.c0_5 h) (bipolarOf (lcg (lcg (lcg g1))))) else Lit.c1
    let tau := fmax (F32.mul (F32.div (clamp p.decayMs Lit.c5 Lit.c60000) Lit.c1000) dec) Lit.c0_001
    let semis := F32.add (F32.add p.pitch m.kitPitch) pit
    trig N sr m p i vel v =
      { active := true, envelope := Lit.c1, noiseLowpass := Lit.c0, oscPhase := Lit.c0
        velocity := N.pow (clamp vel Lit.c0 Lit.c1) (F32.add Lit.c0_5 (clamp m.velocityCurve Lit.c0 Lit.c1))
        prngState := if on then lcg (lcg (lcg g1)) else g1
        humanAmp := amp, humanPitch := pit, humanDecayMul := dec
        decayCoef := N.exp (F32.neg (F32.div Lit.c1 (F32.mul tau sr)))
        baseFreq := clamp
          (F32.mul (#v[Lit.c55, Lit.c180, Lit.c250, Lit.c8000, Lit.c7000, Lit.c140, Lit.c400, Lit.c700][i])
            (N.pow Lit.c2 (F32.div semis Lit.c12))) Lit.c20 Lit.c12000 }) ∧
  ∀ (N : Numerics) (sr : F32) (m : MasterParams) (p : SlotParams) (i : Slot) (vel : F32) (v v' : Voice),
    v'.prngState = v.prngState → trig N sr m p i vel v' = trig N sr m p i vel v

/-! ### The arithmetic -/

/-- R9, R130: on finite operands each of `+ - * /` is the exact real result rounded once: to the nearest binary32 value,
the even one of a tie, subnormals kept, an infinity where the result overflows (`F32.RoundsTo`). The sign of a product or
a quotient is that of the operands' signs; a sum that is exactly zero is `+0.0` unless both operands are negative. -/
def Obligations.ArithmeticRoundsOnce : Prop :=
  ∀ x y : F32, F32.isFinite x = true → F32.isFinite y = true →
    F32.RoundsTo ((F32.toRat x : ℝ) + F32.toRat y) (F32.add x y) ∧
    F32.RoundsTo ((F32.toRat x : ℝ) - F32.toRat y) (F32.sub x y) ∧
    F32.RoundsTo ((F32.toRat x : ℝ) * F32.toRat y) (F32.mul x y) ∧
    F32.sign (F32.mul x y) = (F32.sign x ^^ F32.sign y) ∧
    (F32.toRat x + F32.toRat y = 0 →
      F32.add x y = if F32.sign x && F32.sign y then 0x80000000#32 else 0x00000000#32) ∧
    (F32.isZero y = false →
      F32.RoundsTo ((F32.toRat x : ℝ) / F32.toRat y) (F32.div x y) ∧
      F32.sign (F32.div x y) = (F32.sign x ^^ F32.sign y))

/-- R157 to R161: one call of VPROC. An inactive voice returns `+0.0` and no field of it changes; an active one whose
envelope falls strictly below 1.0e-4 ends; any other keeps its held per-hit values, advances its PRNG once, and returns
its raw sample scaled, saturated and flushed. -/
def Obligations.VprocOneSample : Prop :=
  ∀ (N : Numerics) (sr : F32) (p : SlotParams) (k : Kind) (v : Voice),
    let e := F32.mul v.envelope v.decayCoef
    (v.active = false → vproc N sr p k v = (v, Lit.c0)) ∧
    (v.active = true → F32.lt e Lit.c1_0em4 = true →
      vproc N sr p k v = ({ v with envelope := Lit.c0, active := false }, Lit.c0)) ∧
    (v.active = true → F32.lt e Lit.c1_0em4 = false →
      let raw := render N sr p k e { v with envelope := e }
      (vproc N sr p k v).2 = flush (softsat (F32.mul raw.2 (F32.mul (F32.mul e v.velocity) v.humanAmp))) ∧
      (vproc N sr p k v).1 = { v with
        envelope := e
        prngState := lcg v.prngState
        noiseLowpass := raw.1.noiseLowpass
        oscPhase := raw.1.oscPhase })

/-- R26: between two triggers the envelope never increases. -/
def Obligations.EnvelopeNeverIncreases : Prop :=
  ∀ (N : Numerics) (sr : F32) (p : SlotParams) (k : Kind) (v : Voice),
    F32.Within Lit.c0 Lit.c1 v.envelope → F32.Within Lit.c0 Lit.c1 v.decayCoef →
    F32.le (vproc N sr p k v).1.envelope v.envelope = true

/-- R161, R171: whatever a voice and its parameters hold, and whatever the elementary functions, the sample VPROC
returns lies in [-1, 1]. -/
def Obligations.VoiceSampleInUnitRange : Prop :=
  ∀ (N : Numerics) (sr : F32) (p : SlotParams) (k : Kind) (v : Voice),
    F32.Within Lit.n1 Lit.c1 (vproc N sr p k v).2

/-- R154, R174: every hit ends. A voice in its ranges is inactive after at most 2^27 calls of VPROC with no trigger
between them, whatever its parameters are. -/
def Obligations.EveryHitEnds : Prop :=
  ∀ (N : Numerics) (sr : F32) (p : SlotParams) (k : Kind) (v : Voice), v.InRange →
    ∃ n, n ≤ 2 ^ 27 ∧ (vprocTimes N sr p k n v).active = false

/-! ### The primitives -/

/-- R120: the three helpers on every bit pattern, NaN, infinities and crossed bounds too. -/
def Obligations.ClampOnEveryWord : Prop :=
  (∀ a b : F32, fmax a b = (if F32.lt b a then a else b) ∧ fmin a b = (if F32.lt a b then a else b)) ∧
  ∀ x lo hi : F32, clamp x lo hi = fmin (fmax x lo) hi ∧
    (F32.isNaN x = true → clamp x lo hi = fmin lo hi) ∧
    (F32.le lo hi = true → F32.Within lo hi (clamp x lo hi)) ∧
    (F32.Within lo hi x → F32.eq (clamp x lo hi) x = true) ∧
    (F32.lt hi lo = true → clamp x lo hi = hi) ∧
    (F32.isFinite lo = true → F32.isFinite hi = true →
      clamp F32.posInf lo hi = hi ∧ (F32.lt lo hi = true → clamp F32.negInf lo hi = lo)) ∧
    clamp F32.negZero Lit.c0 Lit.c1 = Lit.c0

/-- R121: the generator is the linear congruence modulo 2^32, and a bijection. -/
def Obligations.LcgIsTheCongruence : Prop :=
  (∀ s : U32, (lcg s).toNat = (s.toNat * 1664525 + 1013904223) % 2 ^ 32) ∧ Function.Bijective lcg

/-- R122: the bipolar value of an advanced state `s` is exactly `m / 2^22 - 1` with `m` its top 23 bits (`F32.val`
counts units of 2^-149), so it is finite and lies in [-1, 1). -/
def Obligations.BipolarIsExact : Prop :=
  ∀ s : U32, F32.isFinite (bipolarOf s) = true ∧
    F32.val (bipolarOf s) = ((s.toNat / 2 ^ 9 : Nat) - 2 ^ 22 : Int) * 2 ^ 127 ∧
    F32.le Lit.n1 (bipolarOf s) = true ∧ F32.lt (bipolarOf s) Lit.c1 = true

/-- R123: NOISE is 0.7 times the next bipolar value, lies between the two words the rule names, and advances the PRNG
exactly once and nothing else. -/
def Obligations.NoiseRange : Prop :=
  ∀ v : Voice, (noise v).1 = { v with prngState := lcg v.prngState } ∧
    (noise v).2 = F32.mul Lit.c0_7 (bipolarOf (lcg v.prngState)) ∧
    F32.Within 0xBF333333#32 0x3F333330#32 (noise v).2

/-- R124, R31: WRAP, and that it brings every word, NaN and infinities too, into [0, TWO_PI). -/
def Obligations.WrapInRange : Prop :=
  ∀ p : F32,
    let q := if F32.le Lit.twoPi p then F32.sub p (F32.mul Lit.twoPi (F32.floor (F32.div p Lit.twoPi))) else p
    wrap p = (if F32.le Lit.c0 q && F32.lt q Lit.twoPi then q else Lit.c0) ∧
    F32.le Lit.c0 (wrap p) = true ∧ F32.lt (wrap p) Lit.twoPi = true

/-- R127, R128: SOFTSAT is bounded by 1 on every word, exactly odd where the operand is no NaN, keeps both zeros, is
exact from 3 on, returns `+0.0` of a NaN and is the clamped rational function in between; FLUSH makes `+0.0` of every
word below 1.0e-20 in magnitude and keeps every other. -/
def Obligations.SoftsatAndFlush : Prop :=
  (∀ x : F32, F32.Within Lit.n1 Lit.c1 (softsat x) ∧
    (F32.isNaN x = false → softsat (F32.neg x) = F32.neg (softsat x)) ∧
    (F32.isZero x = true → softsat x = x) ∧
    (F32.le Lit.c3 x = true → softsat x = Lit.c1) ∧ (F32.le x Lit.n3 = true → softsat x = Lit.n1) ∧
    (F32.isNaN x = true → softsat x = Lit.c0) ∧
    (F32.lt Lit.n3 x = true → F32.lt x Lit.c3 = true →
      softsat x = clamp (F32.div (F32.mul x (F32.add Lit.c27 (F32.mul x x)))
        (F32.add Lit.c27 (F32.mul Lit.c9 (F32.mul x x)))) Lit.n1 Lit.c1)) ∧
  ∀ y : F32, (F32.lt (F32.abs y) 0x1E3CE508#32 = true → flush y = Lit.c0) ∧
    (F32.lt (F32.abs y) 0x1E3CE508#32 = false → flush y = y)

/-! ### The mixer and the master bus -/

/-- R182: the gains of PAN, the equal gains at the centre (P-PAN) and hard left. -/
def Obligations.PanLaw : Prop :=
  ∀ N : Numerics, N.Admissible →
    (∀ pan : F32, panGains N pan =
      (N.cos (F32.mul (F32.mul (F32.add (clamp pan Lit.n1 Lit.c1) Lit.c1) Lit.c0_5) Lit.halfPi),
       N.sin (F32.mul (F32.mul (F32.add (clamp pan Lit.n1 Lit.c1) Lit.c1) Lit.c0_5) Lit.halfPi))) ∧
    (∀ pan : F32, F32.Within Lit.n1 Lit.c1 (panGains N pan).1 ∧ F32.Within Lit.n1 Lit.c1 (panGains N pan).2) ∧
    (∀ pan : F32, F32.isZero pan = true → F32.eq (panGains N pan).1 (panGains N pan).2 = true) ∧
    (∀ pan : F32, F32.le pan Lit.n1 = true → panGains N pan = (Lit.c1, Lit.c0))

/-- R190: the master bus is saturation, then the compressor on its result, then the reverb on the compressor's, each
leaving its own state; its output is the reverb's. R191: with the three amounts below the epsilon it returns its input
bit for bit and no state of it changes. -/
def Obligations.MasterBypassIdentity : Prop :=
  (∀ (N : Numerics) (m : MasterParams) (c : Comp) (rv : Reverb) (l r : F32),
    let y := compStep N m c (sat m l r).1 (sat m l r).2
    let z := revStep m rv y.2.1 y.2.2
    master N m c rv l r = (y.1, z.1, z.2.1, z.2.2)) ∧
  ∀ (N : Numerics) (m : MasterParams) (c : Comp) (rv : Reverb) (l r : F32),
    stageOff m.drive → stageOff m.comp → stageOff m.reverb → master N m c rv l r = (c, rv, l, r)

/-- R192: saturation, both channels; stateless; not bypassed, its output magnitude is at most `mk`, below 1. -/
def Obligations.SaturationStage : Prop :=
  ∀ (m : MasterParams) (l r : F32),
    let d := clamp m.drive Lit.c0 Lit.c1
    let g := F32.add Lit.c1 (F32.mul Lit.c4 d)
    let mk := F32.div Lit.c1 (F32.add Lit.c1 (F32.mul Lit.c2 d))
    (stageOff m.drive → sat m l r = (l, r)) ∧
    (¬stageOff m.drive →
      sat m l r = (F32.mul (softsat (F32.mul l g)) mk, F32.mul (softsat (F32.mul r g)) mk) ∧
      F32.le (F32.abs (sat m l r).1) mk = true ∧ F32.le (F32.abs (sat m l r).2) mk = true ∧
      F32.lt mk Lit.c1 = true)

/-- R194: one step of the compressor, whole. -/
def Obligations.CompressorStage : Prop :=
  ∀ (N : Numerics) (m : MasterParams) (c : Comp) (l r : F32),
    let a := clamp m.comp Lit.c0 Lit.c1
    let x := fmax (F32.abs l) (F32.abs r)
    let k := if F32.lt c.env x then c.att else c.rel
    let env := F32.add (F32.mul k c.env) (F32.mul (F32.sub Lit.c1 k) x)
    let ov := F32.add (F32.mul Lit.c20 (N.log10 (fmax env Lit.c1_0em9))) Lit.c12
    let ratio := F32.add Lit.c1 (F32.mul Lit.c3 a)
    let gr := F32.mul ov (F32.sub (F32.div Lit.c1 ratio) Lit.c1)
    let tgt := if F32.lt Lit.c0 ov then clamp (N.pow Lit.c10 (F32.div gr Lit.c20)) Lit.c0 Lit.c1 else Lit.c1
    let gain := F32.add (F32.mul Lit.c0_5 c.gain) (F32.mul Lit.c0_5 tgt)
    (stageOff m.comp → compStep N m c l r = (c, l, r)) ∧
    (¬stageOff m.comp →
      compStep N m c l r = ({ c with env := env, gain := gain }, F32.mul l gain, F32.mul r gain))

/-- R195: the gain stays in [0, 1], and the compressor never increases the magnitude of either channel. -/
def Obligations.CompressorNeverIncreases : Prop :=
  ∀ (N : Numerics) (m : MasterParams) (c : Comp) (l r : F32),
    F32.Within Lit.c0 Lit.c1 c.gain → F32.isFinite l = true → F32.isFinite r = true →
    F32.Within Lit.c0 Lit.c1 (compStep N m c l r).1.gain ∧
    F32.le (F32.abs (compStep N m c l r).2.1) (F32.abs l) = true ∧
    F32.le (F32.abs (compStep N m c l r).2.2) (F32.abs r) = true

/-- R197: one step of the reverb, whole. -/
def Obligations.ReverbStage : Prop :=
  ∀ (m : MasterParams) (rv : Reverb) (l r : F32),
    let a := clamp m.reverb Lit.c0 Lit.c1
    let mono := F32.mul Lit.c0_5 (F32.add l r)
    let rd := fun (line : DelayLine) (d : LineIndex) => DelayLine.get line ((rv.w.val + rv.len.val - d.val) % rv.len.val)
    let wl := F32.add (F32.mul Lit.c0_7 (rd rv.rvl rv.tap.l1)) (F32.mul Lit.c0_3 (rd rv.rvl rv.tap.l2))
    let wr := F32.add (F32.mul Lit.c0_7 (rd rv.rvr rv.tap.r1)) (F32.mul Lit.c0_3 (rd rv.rvr rv.tap.r2))
    let dg := F32.sub Lit.c1 (F32.mul a Lit.c0_6)
    (stageOff m.reverb → revStep m rv l r = (rv, l, r)) ∧
    (¬stageOff m.reverb → ∃ next : LineIndex, next.val = (rv.w.val + 1) % rv.len.val ∧
      revStep m rv l r =
        ({ rv with
            rvl := DelayLine.put rv.rvl rv.w (F32.add mono (F32.mul wl Lit.c0_4))
            rvr := DelayLine.put rv.rvr rv.w (F32.add mono (F32.mul wr Lit.c0_4))
            w := next },
          F32.add (F32.mul l dg) (F32.mul wl a), F32.add (F32.mul r dg) (F32.mul wr a)))

/-! ### The whole machine -/

/-- R44: the state after reset meets everything that every reached state meets. -/
def Obligations.ResetIsSound : Prop := State.reset.Sound

/-- R34, R74, R23, R36, R38, R40: from every state in structure a step leads to a state in structure: the cursor inside
its block, at most 64 events, the rate in its range, finite parameters, the derived registers as derived, both delay
lines canonical and inside their live words. -/
def Obligations.StructureKeptByEveryStep : Prop :=
  ∀ s t : State, s.Structured → step s = .next t → t.Structured

/-- R210, R240: every command and every renderer completes, with every operand and in every state, reached or not, and
every step goes on, whatever is presented: the step function never returns a fault, nor a refusal. -/
def Obligations.StepNeverStops : Prop :=
  (∀ (i : Instr) (s : State), ∃ t, exec i s = .next t) ∧ ∀ s : State, s.Goes

/-- R21, R39, R171, R195, R198: the ranges of every value are kept by every step. The bounds of `noise_lowpass` and of
the delay-line words are the model's (log 9). -/
def Obligations.RangesKeptByEveryStep : Prop := ∀ s t : State, s.Sound → step s = .next t → t.InRange

/-- R273, R130: from a sound state every output a step adds is bounded: no frame sample is a NaN, an infinity or as
large as 34. -/
def Obligations.OutputsBounded : Prop :=
  ∀ s t : State, s.Sound → step s = .next t →
    ∃ new : List Output, t.out = s.out ++ new ∧ new.length ≤ 1 ∧ ∀ o ∈ new, o.Bounded

/-- R35, R243: a sticky flag that is set stays set under every instruction but RESET. -/
def Obligations.StickyFlagsPersist : Prop :=
  ∀ (i : Instr) (s t : State) (c : Condition), i ≠ .reset → exec i s = .next t →
    stickyBit s.sticky c = true → stickyBit t.sticky c = true

/-- R35: nothing in the CORE reads a sticky flag. Two states that differ only there lead, by any instruction but RDSTAT,
to states that differ only there. -/
def Obligations.StickyFlagsAreUnread : Prop :=
  ∀ (i : Instr) (s t : State) (f : Sticky), i ≠ .rdstat → exec i s = .next t →
    ∃ g : Sticky, exec i { s with sticky := f } = .next { t with sticky := g }

/-- R23, R34, R36, R37, R38, R42: who writes what. The parameters change only by PWRITE and RESET; the rate and the
derived registers only by SETRATE and RESET; the block length only by BLKBEGIN and RESET, the cursor only by those and
FRAME; outputs are only added, at most one, and by FRAME, RDSTAT and the renderers alone; no instruction touches what is
presented. That the outputs and what is presented stand in State, and that RESET leaves both, is the model's choice
(log 6, DESIGN CHOICE); that a renderer runs as a step and puts its sample on the trace is log 7's. -/
def Obligations.RegisterWriters : Prop :=
  ∀ (i : Instr) (s t : State), exec i s = .next t →
    ((∀ a d, i ≠ .pwrite a d) → i ≠ .reset → t.slots = s.slots ∧ t.master = s.master) ∧
    ((∀ d, i ≠ .setrate d) → i ≠ .reset →
      t.sr = s.sr ∧ t.comp.att = s.comp.att ∧ t.comp.rel = s.comp.rel ∧ t.rev.len = s.rev.len ∧
      t.rev.tap = s.rev.tap) ∧
    ((∀ n, i ≠ .blkbegin n) → i ≠ .reset → t.sched.blockLen = s.sched.blockLen ∧
      (i ≠ .frame → t.sched = s.sched)) ∧
    (i = .nop ∨ i = .reset ∨ (∃ d, i = .setrate d) ∨ (∃ a d, i = .pwrite a d) ∨ (∃ n, i = .blkbegin n) ∨
      (∃ a n d, i = .evpush a n d) → t.out = s.out) ∧
    (∃ new : List Output, t.out = s.out ++ new ∧ new.length ≤ 1) ∧
    t.port = s.port
end

