-- ==== Sys2Proof/Laws/State.lean ====
section
/-! SUPPORT. What each state operation changes and what it leaves, one lemma a field, so that no proof unfolds a record
update. -/

-- One theorem at a time: many at once take a thread, and its stack, each.
set_option Elab.async false

namespace Sys2Proof.Machine

@[simp] theorem State.flag_voices (s : State) (c : Condition) : (s.flag c).voices = s.voices := rfl
@[simp] theorem State.flag_sr (s : State) (c : Condition) : (s.flag c).sr = s.sr := rfl
@[simp] theorem State.flag_sched (s : State) (c : Condition) : (s.flag c).sched = s.sched := rfl
@[simp] theorem State.flag_queue (s : State) (c : Condition) : (s.flag c).queue = s.queue := rfl
@[simp] theorem State.flag_sticky (s : State) (c : Condition) : (s.flag c).sticky = raiseSticky c s.sticky := rfl
@[simp] theorem State.flag_slots (s : State) (c : Condition) : (s.flag c).slots = s.slots := rfl
@[simp] theorem State.flag_master (s : State) (c : Condition) : (s.flag c).master = s.master := rfl
@[simp] theorem State.flag_comp (s : State) (c : Condition) : (s.flag c).comp = s.comp := rfl
@[simp] theorem State.flag_rev (s : State) (c : Condition) : (s.flag c).rev = s.rev := rfl
@[simp] theorem State.flag_port (s : State) (c : Condition) : (s.flag c).port = s.port := rfl
@[simp] theorem State.flag_out (s : State) (c : Condition) : (s.flag c).out = s.out := rfl

@[simp] theorem State.setVoice_voices (s : State) (i : Slot) (v : Voice) : (s.setVoice i v).voices = s.voices.set i v := rfl
@[simp] theorem State.setVoice_sr (s : State) (i : Slot) (v : Voice) : (s.setVoice i v).sr = s.sr := rfl
@[simp] theorem State.setVoice_sched (s : State) (i : Slot) (v : Voice) : (s.setVoice i v).sched = s.sched := rfl
@[simp] theorem State.setVoice_queue (s : State) (i : Slot) (v : Voice) : (s.setVoice i v).queue = s.queue := rfl
@[simp] theorem State.setVoice_sticky (s : State) (i : Slot) (v : Voice) : (s.setVoice i v).sticky = s.sticky := rfl
@[simp] theorem State.setVoice_slots (s : State) (i : Slot) (v : Voice) : (s.setVoice i v).slots = s.slots := rfl
@[simp] theorem State.setVoice_master (s : State) (i : Slot) (v : Voice) : (s.setVoice i v).master = s.master := rfl
@[simp] theorem State.setVoice_comp (s : State) (i : Slot) (v : Voice) : (s.setVoice i v).comp = s.comp := rfl
@[simp] theorem State.setVoice_rev (s : State) (i : Slot) (v : Voice) : (s.setVoice i v).rev = s.rev := rfl
@[simp] theorem State.setVoice_port (s : State) (i : Slot) (v : Voice) : (s.setVoice i v).port = s.port := rfl
@[simp] theorem State.setVoice_out (s : State) (i : Slot) (v : Voice) : (s.setVoice i v).out = s.out := rfl

@[simp] theorem State.evqPush_voices (s : State) (e : Event) : (s.evqPush e).voices = s.voices := rfl
@[simp] theorem State.evqPush_sr (s : State) (e : Event) : (s.evqPush e).sr = s.sr := rfl
@[simp] theorem State.evqPush_sched (s : State) (e : Event) : (s.evqPush e).sched = s.sched := rfl
@[simp] theorem State.evqPush_queue (s : State) (e : Event) : (s.evqPush e).queue = s.queue ++ [e] := rfl
@[simp] theorem State.evqPush_sticky (s : State) (e : Event) : (s.evqPush e).sticky = s.sticky := rfl
@[simp] theorem State.evqPush_slots (s : State) (e : Event) : (s.evqPush e).slots = s.slots := rfl
@[simp] theorem State.evqPush_master (s : State) (e : Event) : (s.evqPush e).master = s.master := rfl
@[simp] theorem State.evqPush_comp (s : State) (e : Event) : (s.evqPush e).comp = s.comp := rfl
@[simp] theorem State.evqPush_rev (s : State) (e : Event) : (s.evqPush e).rev = s.rev := rfl
@[simp] theorem State.evqPush_port (s : State) (e : Event) : (s.evqPush e).port = s.port := rfl
@[simp] theorem State.evqPush_out (s : State) (e : Event) : (s.evqPush e).out = s.out := rfl

@[simp] theorem State.evqClear_voices (s : State) : (s.evqClear).voices = s.voices := rfl
@[simp] theorem State.evqClear_sr (s : State) : (s.evqClear).sr = s.sr := rfl
@[simp] theorem State.evqClear_sched (s : State) : (s.evqClear).sched = s.sched := rfl
@[simp] theorem State.evqClear_queue (s : State) : (s.evqClear).queue = [] := rfl
@[simp] theorem State.evqClear_sticky (s : State) : (s.evqClear).sticky = s.sticky := rfl
@[simp] theorem State.evqClear_slots (s : State) : (s.evqClear).slots = s.slots := rfl
@[simp] theorem State.evqClear_master (s : State) : (s.evqClear).master = s.master := rfl
@[simp] theorem State.evqClear_comp (s : State) : (s.evqClear).comp = s.comp := rfl
@[simp] theorem State.evqClear_rev (s : State) : (s.evqClear).rev = s.rev := rfl
@[simp] theorem State.evqClear_port (s : State) : (s.evqClear).port = s.port := rfl
@[simp] theorem State.evqClear_out (s : State) : (s.evqClear).out = s.out := rfl

@[simp] theorem State.output_voices (s : State) (o : Output) : (s.output o).voices = s.voices := rfl
@[simp] theorem State.output_sr (s : State) (o : Output) : (s.output o).sr = s.sr := rfl
@[simp] theorem State.output_sched (s : State) (o : Output) : (s.output o).sched = s.sched := rfl
@[simp] theorem State.output_queue (s : State) (o : Output) : (s.output o).queue = s.queue := rfl
@[simp] theorem State.output_sticky (s : State) (o : Output) : (s.output o).sticky = s.sticky := rfl
@[simp] theorem State.output_slots (s : State) (o : Output) : (s.output o).slots = s.slots := rfl
@[simp] theorem State.output_master (s : State) (o : Output) : (s.output o).master = s.master := rfl
@[simp] theorem State.output_comp (s : State) (o : Output) : (s.output o).comp = s.comp := rfl
@[simp] theorem State.output_rev (s : State) (o : Output) : (s.output o).rev = s.rev := rfl
@[simp] theorem State.output_port (s : State) (o : Output) : (s.output o).port = s.port := rfl
@[simp] theorem State.output_out (s : State) (o : Output) : (s.output o).out = s.out ++ [o] := rfl

@[simp] theorem State.withPort_voices (s : State) (l : List Presented) : (s.withPort l).voices = s.voices := rfl
@[simp] theorem State.withPort_sr (s : State) (l : List Presented) : (s.withPort l).sr = s.sr := rfl
@[simp] theorem State.withPort_sched (s : State) (l : List Presented) : (s.withPort l).sched = s.sched := rfl
@[simp] theorem State.withPort_queue (s : State) (l : List Presented) : (s.withPort l).queue = s.queue := rfl
@[simp] theorem State.withPort_sticky (s : State) (l : List Presented) : (s.withPort l).sticky = s.sticky := rfl
@[simp] theorem State.withPort_slots (s : State) (l : List Presented) : (s.withPort l).slots = s.slots := rfl
@[simp] theorem State.withPort_master (s : State) (l : List Presented) : (s.withPort l).master = s.master := rfl
@[simp] theorem State.withPort_comp (s : State) (l : List Presented) : (s.withPort l).comp = s.comp := rfl
@[simp] theorem State.withPort_rev (s : State) (l : List Presented) : (s.withPort l).rev = s.rev := rfl
@[simp] theorem State.withPort_port (s : State) (l : List Presented) : (s.withPort l).port = l := rfl
@[simp] theorem State.withPort_out (s : State) (l : List Presented) : (s.withPort l).out = s.out := rfl

@[simp] theorem State.rendered_voices (s : State) (i : Slot) (r : Voice × F32) : (s.rendered i r).voices = s.voices.set i r.1 := rfl
@[simp] theorem State.rendered_sr (s : State) (i : Slot) (r : Voice × F32) : (s.rendered i r).sr = s.sr := rfl
@[simp] theorem State.rendered_sched (s : State) (i : Slot) (r : Voice × F32) : (s.rendered i r).sched = s.sched := rfl
@[simp] theorem State.rendered_queue (s : State) (i : Slot) (r : Voice × F32) : (s.rendered i r).queue = s.queue := rfl
@[simp] theorem State.rendered_sticky (s : State) (i : Slot) (r : Voice × F32) : (s.rendered i r).sticky = s.sticky := rfl
@[simp] theorem State.rendered_slots (s : State) (i : Slot) (r : Voice × F32) : (s.rendered i r).slots = s.slots := rfl
@[simp] theorem State.rendered_master (s : State) (i : Slot) (r : Voice × F32) : (s.rendered i r).master = s.master := rfl
@[simp] theorem State.rendered_comp (s : State) (i : Slot) (r : Voice × F32) : (s.rendered i r).comp = s.comp := rfl
@[simp] theorem State.rendered_rev (s : State) (i : Slot) (r : Voice × F32) : (s.rendered i r).rev = s.rev := rfl
@[simp] theorem State.rendered_port (s : State) (i : Slot) (r : Voice × F32) : (s.rendered i r).port = s.port := rfl
@[simp] theorem State.rendered_out (s : State) (i : Slot) (r : Voice × F32) : (s.rendered i r).out = s.out ++ [.rendered r.2] := rfl

@[simp] theorem State.writeParam_voices (s : State) (r : ParamReg) (v : F32) : (s.writeParam r v).voices = s.voices := by
  cases r <;> rfl
@[simp] theorem State.writeParam_sr (s : State) (r : ParamReg) (v : F32) : (s.writeParam r v).sr = s.sr := by
  cases r <;> rfl
@[simp] theorem State.writeParam_sched (s : State) (r : ParamReg) (v : F32) : (s.writeParam r v).sched = s.sched := by
  cases r <;> rfl
@[simp] theorem State.writeParam_queue (s : State) (r : ParamReg) (v : F32) : (s.writeParam r v).queue = s.queue := by
  cases r <;> rfl
@[simp] theorem State.writeParam_sticky (s : State) (r : ParamReg) (v : F32) : (s.writeParam r v).sticky = s.sticky := by
  cases r <;> rfl
@[simp] theorem State.writeParam_comp (s : State) (r : ParamReg) (v : F32) : (s.writeParam r v).comp = s.comp := by
  cases r <;> rfl
@[simp] theorem State.writeParam_rev (s : State) (r : ParamReg) (v : F32) : (s.writeParam r v).rev = s.rev := by
  cases r <;> rfl
@[simp] theorem State.writeParam_port (s : State) (r : ParamReg) (v : F32) : (s.writeParam r v).port = s.port := by
  cases r <;> rfl
@[simp] theorem State.writeParam_out (s : State) (r : ParamReg) (v : F32) : (s.writeParam r v).out = s.out := by
  cases r <;> rfl
@[simp] theorem advanceCursor_voices (s : State) : (advanceCursor s).voices = s.voices := rfl
@[simp] theorem advanceCursor_sr (s : State) : (advanceCursor s).sr = s.sr := rfl
@[simp] theorem advanceCursor_sched (s : State) : (advanceCursor s).sched = { s.sched with frameIdx := s.sched.frameIdx + 1 } := rfl
@[simp] theorem advanceCursor_queue (s : State) : (advanceCursor s).queue = s.queue := rfl
@[simp] theorem advanceCursor_sticky (s : State) : (advanceCursor s).sticky = s.sticky := rfl
@[simp] theorem advanceCursor_slots (s : State) : (advanceCursor s).slots = s.slots := rfl
@[simp] theorem advanceCursor_master (s : State) : (advanceCursor s).master = s.master := rfl
@[simp] theorem advanceCursor_comp (s : State) : (advanceCursor s).comp = s.comp := rfl
@[simp] theorem advanceCursor_rev (s : State) : (advanceCursor s).rev = s.rev := rfl
@[simp] theorem advanceCursor_port (s : State) : (advanceCursor s).port = s.port := rfl
@[simp] theorem advanceCursor_out (s : State) : (advanceCursor s).out = s.out := rfl
@[simp] theorem flagLate_voices (s : State) : (flagLate s).voices = s.voices := by
  unfold flagLate; split <;> rfl
@[simp] theorem flagLate_sr (s : State) : (flagLate s).sr = s.sr := by
  unfold flagLate; split <;> rfl
@[simp] theorem flagLate_slots (s : State) : (flagLate s).slots = s.slots := by
  unfold flagLate; split <;> rfl
@[simp] theorem flagLate_master (s : State) : (flagLate s).master = s.master := by
  unfold flagLate; split <;> rfl
@[simp] theorem flagLate_comp (s : State) : (flagLate s).comp = s.comp := by
  unfold flagLate; split <;> rfl
@[simp] theorem flagLate_rev (s : State) : (flagLate s).rev = s.rev := by
  unfold flagLate; split <;> rfl
@[simp] theorem flagLate_port (s : State) : (flagLate s).port = s.port := by
  unfold flagLate; split <;> rfl
@[simp] theorem flagLate_out (s : State) : (flagLate s).out = s.out := by
  unfold flagLate; split <;> rfl
@[simp] theorem flagRate_voices (d : F32) (s : State) : (flagRate d s).voices = s.voices := by
  unfold flagRate; split <;> rfl
@[simp] theorem flagRate_sr (d : F32) (s : State) : (flagRate d s).sr = s.sr := by
  unfold flagRate; split <;> rfl
@[simp] theorem flagRate_sched (d : F32) (s : State) : (flagRate d s).sched = s.sched := by
  unfold flagRate; split <;> rfl
@[simp] theorem flagRate_queue (d : F32) (s : State) : (flagRate d s).queue = s.queue := by
  unfold flagRate; split <;> rfl
@[simp] theorem flagRate_slots (d : F32) (s : State) : (flagRate d s).slots = s.slots := by
  unfold flagRate; split <;> rfl
@[simp] theorem flagRate_master (d : F32) (s : State) : (flagRate d s).master = s.master := by
  unfold flagRate; split <;> rfl
@[simp] theorem flagRate_comp (d : F32) (s : State) : (flagRate d s).comp = s.comp := by
  unfold flagRate; split <;> rfl
@[simp] theorem flagRate_rev (d : F32) (s : State) : (flagRate d s).rev = s.rev := by
  unfold flagRate; split <;> rfl
@[simp] theorem flagRate_port (d : F32) (s : State) : (flagRate d s).port = s.port := by
  unfold flagRate; split <;> rfl
@[simp] theorem flagRate_out (d : F32) (s : State) : (flagRate d s).out = s.out := by
  unfold flagRate; split <;> rfl

/-- BLKBEGIN leaves no event queued. -/
@[simp] theorem flagLate_queue (s : State) : (flagLate s).queue = [] := by
  unfold flagLate evqEmpty
  split
  · next h => exact List.isEmpty_iff.mp h
  · rfl

@[simp] theorem flagLate_sched (s : State) : (flagLate s).sched = s.sched := by
  unfold flagLate; split <;> rfl

/-! ### Voices -/

theorem State.setVoice_same (s : State) (i : Slot) (v : Voice) : (s.setVoice i v).voices[i] = v := by
  simp [State.setVoice]

theorem State.setVoice_other (s : State) {i j : Slot} (v : Voice) (h : j ≠ i) :
    (s.setVoice i v).voices[j] = s.voices[j] := by
  have : (i : Nat) ≠ (j : Nat) := fun e => h (Fin.ext e.symm)
  simp [State.setVoice, this]

theorem State.setVoice_get (s : State) (i j : Slot) (v : Voice) :
    (s.setVoice i v).voices[j] = if j = i then v else s.voices[j] := by
  by_cases h : j = i
  · subst h; rw [State.setVoice_same, if_pos rfl]
  · rw [State.setVoice_other s v h, if_neg h]

/-! ### Parameter registers -/

@[simp] theorem SlotParams.get_put (p : SlotParams) (f g : SlotField) (v : F32) :
    (p.put f v).get g = if g = f then v else p.get g := by
  cases f <;> cases g <;> rfl

@[simp] theorem MasterParams.get_put (m : MasterParams) (f g : MasterField) (v : F32) :
    (m.put f v).get g = if g = f then v else m.get g := by
  cases f <;> cases g <;> rfl

/-- A parameter register reads back what was written to it, and every other one what it read before. -/
theorem State.readParam_writeParam (s : State) (r q : ParamReg) (v : F32) :
    (s.writeParam r v).readParam q = if q = r then v else s.readParam q := by
  cases r with
  | slot i f =>
    cases q with
    | slot j g =>
      by_cases h : j = i
      · subst h; simp [State.writeParam, State.readParam]
      · have : (i : Nat) ≠ (j : Nat) := fun e => h (Fin.ext e.symm)
        simp [State.writeParam, State.readParam, this, h]
    | master g => simp [State.writeParam, State.readParam]
  | master f =>
    cases q with
    | slot j g => simp [State.writeParam, State.readParam]
    | master g => simp [State.writeParam, State.readParam]

/-! ### Flags -/

@[simp] theorem stickyBit_raise (c d : Condition) (f : Sticky) :
    stickyBit (raiseSticky c f) d = (decide (d = c) || stickyBit f d) := by
  cases c <;> cases d <;> simp [raiseSticky, stickyBit]

end Sys2Proof.Machine
end

