-- ==== Sys2Proof/Laws/Bank.lean ====
section
/-! SUPPORT. Everything the release loop and MIX can do: each changes the voices, the release loop the queue too, and
nothing else; a voice is changed by its own events and its own VPROC alone (42_voicebank.md R185). -/

-- One theorem at a time: many at once take a thread, and its stack, each.
set_option Elab.async false

namespace Sys2Proof.Machine

/-! ### DISPATCH and the release loop -/

@[simp] theorem dispatch_sr (C : Params) (s : State) (i : Slot) (v : F32) : (dispatch C s i v).sr = s.sr := rfl
@[simp] theorem dispatch_sched (C : Params) (s : State) (i : Slot) (v : F32) : (dispatch C s i v).sched = s.sched := rfl
@[simp] theorem dispatch_queue (C : Params) (s : State) (i : Slot) (v : F32) : (dispatch C s i v).queue = s.queue := rfl
@[simp] theorem dispatch_sticky (C : Params) (s : State) (i : Slot) (v : F32) : (dispatch C s i v).sticky = s.sticky := rfl
@[simp] theorem dispatch_slots (C : Params) (s : State) (i : Slot) (v : F32) : (dispatch C s i v).slots = s.slots := rfl
@[simp] theorem dispatch_master (C : Params) (s : State) (i : Slot) (v : F32) : (dispatch C s i v).master = s.master := rfl
@[simp] theorem dispatch_comp (C : Params) (s : State) (i : Slot) (v : F32) : (dispatch C s i v).comp = s.comp := rfl
@[simp] theorem dispatch_rev (C : Params) (s : State) (i : Slot) (v : F32) : (dispatch C s i v).rev = s.rev := rfl
@[simp] theorem dispatch_port (C : Params) (s : State) (i : Slot) (v : F32) : (dispatch C s i v).port = s.port := rfl
@[simp] theorem dispatch_out (C : Params) (s : State) (i : Slot) (v : F32) : (dispatch C s i v).out = s.out := rfl

/-- DISPATCH touches no voice but its own (R181). -/
theorem dispatch_voices (C : Params) (s : State) (i j : Slot) (vel : F32) :
    (dispatch C s i vel).voices[j] =
      if j = i then trig C.num s.sr s.master s.slots[j] j vel s.voices[j] else s.voices[j] := by
  unfold dispatch
  rw [State.setVoice_get]
  split
  · next h => subst h; rfl
  · rfl

/-- What DISPATCH keeps, a list of events keeps. -/
theorem foldl_dispatchEvent_keeps {α : Type} (C : Params) (f : State → α)
    (hf : ∀ s v, f { s with voices := v } = f s) (l : List Event) (s : State) :
    f (l.foldl (dispatchEvent C) s) = f s := by
  induction l generalizing s with
  | nil => rfl
  | cons e rest ih => rw [List.foldl_cons, ih]; exact hf s _

@[simp] theorem release_sr (C : Params) (s : State) : (release C s).sr = s.sr :=
  foldl_dispatchEvent_keeps C (·.sr) (fun _ _ => rfl) _ _

@[simp] theorem release_sched (C : Params) (s : State) : (release C s).sched = s.sched :=
  foldl_dispatchEvent_keeps C (·.sched) (fun _ _ => rfl) _ _

@[simp] theorem release_sticky (C : Params) (s : State) : (release C s).sticky = s.sticky :=
  foldl_dispatchEvent_keeps C (·.sticky) (fun _ _ => rfl) _ _

@[simp] theorem release_slots (C : Params) (s : State) : (release C s).slots = s.slots :=
  foldl_dispatchEvent_keeps C (·.slots) (fun _ _ => rfl) _ _

@[simp] theorem release_master (C : Params) (s : State) : (release C s).master = s.master :=
  foldl_dispatchEvent_keeps C (·.master) (fun _ _ => rfl) _ _

@[simp] theorem release_comp (C : Params) (s : State) : (release C s).comp = s.comp :=
  foldl_dispatchEvent_keeps C (·.comp) (fun _ _ => rfl) _ _

@[simp] theorem release_rev (C : Params) (s : State) : (release C s).rev = s.rev :=
  foldl_dispatchEvent_keeps C (·.rev) (fun _ _ => rfl) _ _

@[simp] theorem release_port (C : Params) (s : State) : (release C s).port = s.port :=
  foldl_dispatchEvent_keeps C (·.port) (fun _ _ => rfl) _ _

@[simp] theorem release_out (C : Params) (s : State) : (release C s).out = s.out :=
  foldl_dispatchEvent_keeps C (·.out) (fun _ _ => rfl) _ _

@[simp] theorem release_queue (C : Params) (s : State) : (release C s).queue = keptEvents s :=
  foldl_dispatchEvent_keeps C (·.queue) (fun _ _ => rfl) _ _

/-- TRIG of one voice by the velocities of a list of its events, in order. -/
def retrigger (C : Params) (s : State) (i : Slot) (vels : List F32) (v : Voice) : Voice :=
  vels.foldl (fun v vel => trig C.num s.sr s.master s.slots[i] i vel v) v

theorem foldl_dispatchEvent_voices (C : Params) (l : List Event) (s : State) (i : Slot) :
    (l.foldl (dispatchEvent C) s).voices[i] =
      retrigger C s i ((l.filter fun e => e.slot = i).map (·.velocity)) s.voices[i] := by
  induction l generalizing s with
  | nil => rfl
  | cons e rest ih =>
    rw [List.foldl_cons, ih]
    unfold dispatchEvent
    rw [dispatch_voices]
    by_cases h : i = e.slot
    · subst h; simp [retrigger]
    · simp [retrigger, h, Ne.symm h]

/-- A voice after the release loop: its own due events, in arrival order. -/
theorem release_voices (C : Params) (s : State) (i : Slot) :
    (release C s).voices[i] =
      retrigger C s i (((dueEvents s).filter fun e => e.slot = i).map (·.velocity)) s.voices[i] :=
  foldl_dispatchEvent_voices C _ _ i

/-! ### MIX -/

theorem foldl_mixSlot_keeps {α : Type} (C : Params) (f : State → α)
    (hf : ∀ s v, f { s with voices := v } = f s) (l : List Slot) (acc : State × F32 × F32) :
    f (l.foldl (mixSlot C) acc).1 = f acc.1 := by
  induction l generalizing acc with
  | nil => rfl
  | cons i rest ih => rw [List.foldl_cons, ih]; exact hf acc.1 _

@[simp] theorem mix_sr (C : Params) (s : State) : (mix C s).1.sr = s.sr :=
  foldl_mixSlot_keeps C (·.sr) (fun _ _ => rfl) _ _

@[simp] theorem mix_sched (C : Params) (s : State) : (mix C s).1.sched = s.sched :=
  foldl_mixSlot_keeps C (·.sched) (fun _ _ => rfl) _ _

@[simp] theorem mix_queue (C : Params) (s : State) : (mix C s).1.queue = s.queue :=
  foldl_mixSlot_keeps C (·.queue) (fun _ _ => rfl) _ _

@[simp] theorem mix_sticky (C : Params) (s : State) : (mix C s).1.sticky = s.sticky :=
  foldl_mixSlot_keeps C (·.sticky) (fun _ _ => rfl) _ _

@[simp] theorem mix_slots (C : Params) (s : State) : (mix C s).1.slots = s.slots :=
  foldl_mixSlot_keeps C (·.slots) (fun _ _ => rfl) _ _

@[simp] theorem mix_master (C : Params) (s : State) : (mix C s).1.master = s.master :=
  foldl_mixSlot_keeps C (·.master) (fun _ _ => rfl) _ _

@[simp] theorem mix_comp (C : Params) (s : State) : (mix C s).1.comp = s.comp :=
  foldl_mixSlot_keeps C (·.comp) (fun _ _ => rfl) _ _

@[simp] theorem mix_rev (C : Params) (s : State) : (mix C s).1.rev = s.rev :=
  foldl_mixSlot_keeps C (·.rev) (fun _ _ => rfl) _ _

@[simp] theorem mix_port (C : Params) (s : State) : (mix C s).1.port = s.port :=
  foldl_mixSlot_keeps C (·.port) (fun _ _ => rfl) _ _

@[simp] theorem mix_out (C : Params) (s : State) : (mix C s).1.out = s.out :=
  foldl_mixSlot_keeps C (·.out) (fun _ _ => rfl) _ _

theorem processVoice_congr (C : Params) {s t : State} {i : Slot} (hsr : t.sr = s.sr) (hp : t.slots = s.slots)
    (hv : t.voices[i] = s.voices[i]) : processVoice C t i = processVoice C s i := by
  unfold processVoice; rw [hsr, hp, hv]

theorem foldl_mixSlot_voices (C : Params) (l : List Slot) (hl : l.Nodup) (acc : State × F32 × F32) (j : Slot) :
    (l.foldl (mixSlot C) acc).1.voices[j] =
      if j ∈ l then (processVoice C acc.1 j).1 else acc.1.voices[j] := by
  induction l generalizing acc with
  | nil => rfl
  | cons i rest ih =>
    rw [List.nodup_cons] at hl
    rw [List.foldl_cons, ih hl.2]
    by_cases hji : j = i
    · subst hji
      rw [if_neg hl.1, if_pos List.mem_cons_self]
      exact State.setVoice_same _ _ _
    · have hv : (mixSlot C acc i).1.voices[j] = acc.1.voices[j] := State.setVoice_other _ _ hji
      rw [processVoice_congr C (s := acc.1) (t := (mixSlot C acc i).1) rfl rfl hv, hv]
      simp [List.mem_cons, hji]

theorem mem_allSlots : ∀ i : Slot, i ∈ allSlots := by decide

/-- Every voice is asked for one sample, each from its own bank alone. -/
theorem mix_voices (C : Params) (s : State) (i : Slot) : (mix C s).1.voices[i] = (processVoice C s i).1 := by
  have h := foldl_mixSlot_voices C allSlots (by decide) (s, Lit.c0, Lit.c0) i
  rw [if_pos (mem_allSlots i)] at h
  exact h

/-- What voice `i` adds to the sum whose gain `gain` picks. -/
def mixTerm (C : Params) (s : State) (gain : F32 × F32 → F32) (i : Slot) : F32 :=
  F32.mul (F32.mul (processVoice C s i).2 (levelOf s.slots[i])) (gain (panGains C.num s.slots[i].pan))

theorem mixSlot_left (C : Params) (acc : State × F32 × F32) (i : Slot) :
    (mixSlot C acc i).2.1 = F32.add acc.2.1 (mixTerm C acc.1 Prod.fst i) := by
  simp only [mixSlot, mixTerm]

theorem mixSlot_right (C : Params) (acc : State × F32 × F32) (i : Slot) :
    (mixSlot C acc i).2.2 = F32.add acc.2.2 (mixTerm C acc.1 Prod.snd i) := by
  simp only [mixSlot, mixTerm]

theorem mixTerm_congr (C : Params) {s t : State} (g : F32 × F32 → F32) {i : Slot} (hsr : t.sr = s.sr)
    (hp : t.slots = s.slots) (hv : t.voices[i] = s.voices[i]) : mixTerm C t g i = mixTerm C s g i := by
  unfold mixTerm; rw [processVoice_congr C hsr hp hv, hp]

theorem foldl_mixTerm_congr (C : Params) {s t : State} (g : F32 × F32 → F32) (hsr : t.sr = s.sr)
    (hp : t.slots = s.slots) (l : List Slot) (hv : ∀ j ∈ l, t.voices[j] = s.voices[j]) (a : F32) :
    l.foldl (fun a j => F32.add a (mixTerm C t g j)) a = l.foldl (fun a j => F32.add a (mixTerm C s g j)) a :=
  List.foldl_ext _ _ a fun b j hj => by rw [mixTerm_congr C g hsr hp (hv j hj)]

theorem foldl_mixSlot_sums (C : Params) (l : List Slot) (hl : l.Nodup) (acc : State × F32 × F32) :
    (l.foldl (mixSlot C) acc).2.1 = l.foldl (fun a i => F32.add a (mixTerm C acc.1 Prod.fst i)) acc.2.1 ∧
    (l.foldl (mixSlot C) acc).2.2 = l.foldl (fun a i => F32.add a (mixTerm C acc.1 Prod.snd i)) acc.2.2 := by
  induction l generalizing acc with
  | nil => simp only [List.foldl_nil, and_self]
  | cons i rest ih =>
    rw [List.nodup_cons] at hl
    have hv : ∀ j ∈ rest, (mixSlot C acc i).1.voices[j] = acc.1.voices[j] := by
      intro j hj
      refine State.setVoice_other _ _ ?_
      rintro rfl
      exact hl.1 hj
    have ih := ih hl.2 (mixSlot C acc i)
    have hl1 := foldl_mixTerm_congr C Prod.fst (s := acc.1) (t := (mixSlot C acc i).1) rfl rfl rest hv
    have hr1 := foldl_mixTerm_congr C Prod.snd (s := acc.1) (t := (mixSlot C acc i).1) rfl rfl rest hv
    simp only [List.foldl_cons]
    rw [ih.1, ih.2, hl1, hr1, mixSlot_left, mixSlot_right]
    exact ⟨rfl, rfl⟩

/-- The sums of MIX, in ascending slot order from `+0.0`. -/
def mixSum (C : Params) (s : State) (gain : F32 × F32 → F32) : F32 :=
  allSlots.foldl (fun a i => F32.add a (mixTerm C s gain i)) Lit.c0

/-- What MIX returns. -/
theorem mix_left (C : Params) (s : State) : (mix C s).2.1 = mixSum C s Prod.fst :=
  (foldl_mixSlot_sums C allSlots (by decide) (s, Lit.c0, Lit.c0)).1

theorem mix_right (C : Params) (s : State) : (mix C s).2.2 = mixSum C s Prod.snd :=
  (foldl_mixSlot_sums C allSlots (by decide) (s, Lit.c0, Lit.c0)).2

end Sys2Proof.Machine
end

