-- ==== Sys2Proof/Laws/Decode.lean ====
section
/-! SUPPORT. The fields of an encoded command word, what the decoder does with a reserved opcode, the bytes of a word on a
channel, and that the checks of WellFormed.lean are the operand forms of Machine/Operands.lean. -/

-- One theorem at a time: many at once take a thread, and its stack, each.
set_option Elab.async false

namespace Sys2Proof

@[simp] theorem cmdOp_commandWord (op a : U8) (n : U16) (d : F32) : cmdOp (commandWord op a n d) = op := by
  unfold cmdOp commandWord
  ext i hi
  simp only [BitVec.getElem_extractLsb', BitVec.getLsbD_append]
  simp +arith [hi, show ¬ 56 + i < 32 by omega]

@[simp] theorem cmdA_commandWord (op a : U8) (n : U16) (d : F32) : cmdA (commandWord op a n d) = a := by
  unfold cmdA commandWord
  ext i hi
  simp only [BitVec.getElem_extractLsb', BitVec.getLsbD_append]
  simp +arith [hi, show ¬ 48 + i < 32 by omega]

@[simp] theorem cmdN_commandWord (op a : U8) (n : U16) (d : F32) : cmdN (commandWord op a n d) = n := by
  unfold cmdN commandWord
  ext i hi
  simp only [BitVec.getElem_extractLsb', BitVec.getLsbD_append]
  simp +arith [hi, show ¬ 32 + i < 32 by omega]

@[simp] theorem cmdD_commandWord (op a : U8) (n : U16) (d : F32) : cmdD (commandWord op a n d) = d := by
  unfold cmdD commandWord
  ext i hi
  simp only [BitVec.getElem_extractLsb', BitVec.getLsbD_append]
  simp [hi]

/-- A reserved opcode is rejected by name, whatever the rest of the word holds (R97, R220). -/
theorem decodeCommand_reserved {w : U64} (h : 8 ≤ (cmdOp w).toNat) :
    decodeCommand w = .error (.reservedOpcode (cmdOp w)) := by
  unfold decodeCommand
  generalize cmdOp w = op at h
  split <;> first | (exfalso; omega) | rfl

/-! ### Bytes on a channel (R63) -/

@[simp] theorem leBytes_length {n : Nat} (k : Nat) (w : BitVec n) : (leBytes k w).length = k := by
  induction k generalizing w with
  | zero => rfl
  | succ k ih => simp [leBytes, ih]

/-- Byte `i` on the channel is bits `8i+7 : 8i` of the word. -/
theorem leBytes_getElem {n : Nat} (k : Nat) (w : BitVec n) (i : Nat) (h : i < (leBytes k w).length) :
    (leBytes k w)[i] = w.extractLsb' (8 * i) 8 := by
  induction k generalizing w i with
  | zero => simp at h
  | succ k ih =>
    cases i with
    | zero => rfl
    | succ i =>
      simp only [leBytes, List.getElem_cons_succ, ih]
      ext j hj
      simp [BitVec.getElem_extractLsb', BitVec.getLsbD_ushiftRight, show 8 + (8 * i + j) = 8 * (i + 1) + j by omega]

/-- The eight bytes of a word, each by its place in it. -/
theorem bytesOfWord_eq (w : U64) : bytesOfWord w =
    [w.extractLsb' 0 8, w.extractLsb' 8 8, w.extractLsb' 16 8, w.extractLsb' 24 8,
     w.extractLsb' 32 8, w.extractLsb' 40 8, w.extractLsb' 48 8, w.extractLsb' 56 8] := by
  refine List.ext_getElem (by simp [bytesOfWord]) fun i h _ => (leBytes_getElem 8 w i h).trans ?_
  replace h : i < 8 := by simpa [bytesOfWord] using h
  interval_cases i <;> rfl

theorem bytesOfWord32_eq (w : U32) : bytesOfWord32 w =
    [w.extractLsb' 0 8, w.extractLsb' 8 8, w.extractLsb' 16 8, w.extractLsb' 24 8] := by
  refine List.ext_getElem (by simp [bytesOfWord32]) fun i h _ => (leBytes_getElem 4 w i h).trans ?_
  replace h : i < 4 := by simpa [bytesOfWord32] using h
  interval_cases i <;> rfl

namespace Machine

@[simp] theorem Output.bytes_emit_length (r : U64) : (Output.emit r).bytes.length = 8 := leBytes_length 8 r

@[simp] theorem Output.bytes_respond_length (w : U32) : (Output.respond w).bytes.length = 4 := leBytes_length 4 w

/-- A parameter address is well formed exactly when it names a register (R96). -/
theorem paramReg_isSome (a : U8) : (paramReg a).isSome = paramDefined a := by
  revert a; decide

/-- A slot operand is well formed exactly when it names a slot (R95, R99). -/
theorem eventSlot_isSome (a : U8) : (eventSlot a).isSome = slotInRange a := by
  revert a; decide

end Machine

end Sys2Proof
end

