-- ==== Sys2Proof/Laws/Float.lean ====
section
/-! SUPPORT. The laws of binary32 arithmetic that the bounds of the model rest on: rounding is monotone and keeps what is
representable, so that a bound on the magnitudes of the operands bounds the magnitude of a sum, a product or a quotient. -/

-- One theorem at a time: many at once take a thread, and its stack, each.
set_option Elab.async false

namespace Sys2Proof

/-! ### Words -/

theorem F32.low_lt (x : F32) : F32.low x < 2 ^ 31 := Nat.mod_lt _ (by decide)

theorem F32.toNat_eq (x : F32) : x.toNat = (if F32.sign x then 2 ^ 31 else 0) + F32.low x := by
  have := x.isLt
  unfold F32.sign F32.low
  by_cases h : 2 ^ 31 ≤ x.toNat
  · simp only [h, decide_true, if_true]; omega
  · simp only [h, decide_false]
    rw [Nat.mod_eq_of_lt (by omega)]; simp

theorem F32.pack_toNat (b : Bool) {k : Nat} (h : k < 2 ^ 31) :
    (F32.pack b k).toNat = (if b then 2 ^ 31 else 0) + k := by
  unfold F32.pack
  rw [BitVec.toNat_ofNat]
  apply Nat.mod_eq_of_lt
  cases b
  · simp; omega
  · simp; omega

@[simp] theorem F32.low_pack (b : Bool) {k : Nat} (h : k < 2 ^ 31) : F32.low (F32.pack b k) = k := by
  unfold F32.low
  rw [F32.pack_toNat b h]
  cases b <;> simp <;> omega

@[simp] theorem F32.sign_pack (b : Bool) {k : Nat} (h : k < 2 ^ 31) : F32.sign (F32.pack b k) = b := by
  unfold F32.sign
  rw [F32.pack_toNat b h]
  cases b <;> simp
  omega

theorem F32.ext_sign_low {x y : F32} (hs : F32.sign x = F32.sign y) (hl : F32.low x = F32.low y) : x = y := by
  apply BitVec.eq_of_toNat_eq
  rw [F32.toNat_eq, F32.toNat_eq, hs, hl]

theorem F32.pack_sign_low (x : F32) : F32.pack (F32.sign x) (F32.low x) = x :=
  F32.ext_sign_low (F32.sign_pack _ (F32.low_lt x)) (F32.low_pack _ (F32.low_lt x))

theorem F32.neg_toNat (x : F32) : (F32.neg x).toNat = x.toNat ^^^ 2 ^ 31 := by
  unfold F32.neg
  rw [BitVec.toNat_xor]; rfl

theorem F32.low_neg (x : F32) : F32.low (F32.neg x) = F32.low x := by
  unfold F32.low
  rw [F32.neg_toNat, Nat.xor_mod_two_pow]; simp

theorem F32.sign_neg (x : F32) : F32.sign (F32.neg x) = !F32.sign x := by
  have e : ∀ y : F32, F32.sign y = y.toNat.testBit 31 := by
    intro y
    have := y.isLt
    unfold F32.sign
    rw [Nat.testBit_eq_decide_div_mod_eq]
    congr 1
    apply propext
    constructor
    · intro h; omega
    · intro h; omega
  have h31 : Nat.testBit (2 ^ 31) 31 = true := Nat.testBit_two_pow_self
  rw [e, e, F32.neg_toNat, Nat.testBit_xor, h31, Bool.xor_true]

theorem F32.low_abs (x : F32) : F32.low (F32.abs x) = F32.low x := by
  unfold F32.low F32.abs
  rw [BitVec.toNat_and]
  show (x.toNat &&& (2 ^ 31 - 1)) % 2 ^ 31 = _
  rw [Nat.and_two_pow_sub_one_eq_mod]; omega

theorem F32.sign_abs (x : F32) : F32.sign (F32.abs x) = false := by
  unfold F32.sign F32.abs
  rw [BitVec.toNat_and]
  show decide (2 ^ 31 ≤ x.toNat &&& (2 ^ 31 - 1)) = false
  rw [Nat.and_two_pow_sub_one_eq_mod]
  have : x.toNat % 2 ^ 31 < 2 ^ 31 := Nat.mod_lt _ (by decide)
  simp only [decide_eq_false_iff_not]; omega

/-! ### Classes and order -/

theorem F32.isFinite_iff {x : F32} : F32.isFinite x = true ↔ F32.low x < F32.infLow := by
  simp [F32.isFinite]

theorem F32.not_isNaN_of_isFinite {x : F32} (h : F32.isFinite x = true) : F32.isNaN x = false := by
  rw [F32.isFinite_iff] at h
  simp only [F32.isNaN, decide_eq_false_iff_not]; omega

theorem F32.not_isInf_of_isFinite {x : F32} (h : F32.isFinite x = true) : F32.isInf x = false := by
  rw [F32.isFinite_iff] at h
  simp only [F32.isInf, decide_eq_false_iff_not]; omega

theorem F32.le_iff {x y : F32} :
    F32.le x y = true ↔ F32.isNaN x = false ∧ F32.isNaN y = false ∧ F32.key x ≤ F32.key y := by
  simp [F32.le, and_assoc]

theorem F32.lt_iff {x y : F32} :
    F32.lt x y = true ↔ F32.isNaN x = false ∧ F32.isNaN y = false ∧ F32.key x < F32.key y := by
  simp [F32.lt, and_assoc]

theorem F32.eq_iff {x y : F32} :
    F32.eq x y = true ↔ F32.isNaN x = false ∧ F32.isNaN y = false ∧ F32.key x = F32.key y := by
  simp [F32.eq, and_assoc]

theorem F32.le_trans {x y z : F32} (h : F32.le x y = true) (h' : F32.le y z = true) : F32.le x z = true := by
  rw [F32.le_iff] at *
  exact ⟨h.1, h'.2.1, h.2.2.trans h'.2.2⟩

theorem F32.lt_of_not_le {x y : F32} (hx : F32.isNaN x = false) (hy : F32.isNaN y = false)
    (h : F32.le x y = false) : F32.lt y x = true := by
  rw [F32.lt_iff]
  refine ⟨hy, hx, ?_⟩
  by_contra hc
  rw [F32.le_iff.mpr ⟨hx, hy, by omega⟩] at h
  exact Bool.noConfusion h

theorem F32.key_abs (x : F32) : F32.key (F32.abs x) = (F32.low x : Int) := by
  unfold F32.key
  rw [F32.sign_abs, F32.low_abs]; simp

theorem F32.key_neg (x : F32) : F32.key (F32.neg x) = -F32.key x := by
  unfold F32.key
  rw [F32.sign_neg, F32.low_neg]
  cases F32.sign x <;> simp

theorem F32.isNaN_congr {x y : F32} (h : F32.low x = F32.low y) : F32.isNaN x = F32.isNaN y := by
  simp [F32.isNaN, h]

/-! ### Magnitudes -/

/-- The magnitude as a function of bits 30:0. -/
def F32.magOf (k : Nat) : Nat :=
  if k / 2 ^ 23 = 0 then k % 2 ^ 23 else (2 ^ 23 + k % 2 ^ 23) * 2 ^ (k / 2 ^ 23 - 1)

theorem F32.mag_eq (x : F32) : F32.mag x = F32.magOf (F32.low x) := by
  have h : F32.frac x = F32.low x % 2 ^ 23 := by
    unfold F32.frac F32.low
    rw [Nat.mod_mod_of_dvd _ (by decide)]
  unfold F32.mag F32.magOf F32.expo
  rw [h]

theorem F32.magOf_zero : F32.magOf 0 = 0 := by decide

/-- Where a significand `r` with 24 bits, or fewer at exponent 0, stands. -/
theorem F32.magOf_add {q r : Nat} (h : q = 0 ∨ 2 ^ 23 ≤ r) (h' : r < 2 ^ 24) :
    F32.magOf (q * 2 ^ 23 + r) = r * 2 ^ q := by
  unfold F32.magOf
  by_cases h23 : 2 ^ 23 ≤ r
  · have e1 : (q * 2 ^ 23 + r) / 2 ^ 23 = q + 1 := by omega
    have e2 : (q * 2 ^ 23 + r) % 2 ^ 23 = r - 2 ^ 23 := by omega
    have e3 : 2 ^ 23 + (r - 2 ^ 23) = r := by omega
    rw [e1, e2, if_neg (by omega), e3, Nat.add_sub_cancel]
  · obtain rfl : q = 0 := by omega
    have e1 : (0 * 2 ^ 23 + r) / 2 ^ 23 = 0 := by omega
    rw [e1, if_pos rfl]
    omega

/-- Every low word is a significand at an exponent. -/
theorem F32.split_low (k : Nat) : ∃ q r, k = q * 2 ^ 23 + r ∧ (q = 0 ∨ 2 ^ 23 ≤ r) ∧ r < 2 ^ 24 := by
  by_cases h : k / 2 ^ 23 = 0
  · exact ⟨0, k, by omega, .inl rfl, by omega⟩
  · exact ⟨k / 2 ^ 23 - 1, 2 ^ 23 + k % 2 ^ 23, by omega, .inr (by omega), by omega⟩

/-! ### Rounding -/

theorem F32.divEven_le (n d : Nat) : F32.divEven n d ≤ n / d + 1 := by
  unfold F32.divEven; split <;> omega

theorem F32.le_divEven (n d : Nat) : n / d ≤ F32.divEven n d := by
  unfold F32.divEven; split <;> omega

theorem F32.divEven_mono {n d n' d' : Nat} (hd : 0 < d) (hd' : 0 < d') (h : n * d' ≤ n' * d) :
    F32.divEven n d ≤ F32.divEven n' d' := by
  have hf : n / d ≤ n' / d' := by
    rw [Nat.le_div_iff_mul_le hd']
    have h1 : n / d * d ≤ n := Nat.div_mul_le_self n d
    have h2 : n / d * d * d' ≤ n' * d := (Nat.mul_le_mul_right d' h1).trans h
    refine Nat.le_of_mul_le_mul_right (c := d) ?_ hd
    calc n / d * d' * d = n / d * d * d' := by ring
      _ ≤ n' * d := h2
  rcases Nat.lt_or_ge (n / d) (n' / d') with hlt | hge
  · exact (F32.divEven_le n d).trans ((Nat.succ_le_of_lt hlt).trans (F32.le_divEven n' d'))
  · have heq : n / d = n' / d' := le_antisymm hf hge
    have e1 : d * (n / d) + n % d = n := Nat.div_add_mod n d
    have e2 : d' * (n' / d') + n' % d' = n' := Nat.div_add_mod n' d'
    have hrem : (n % d) * d' ≤ (n' % d') * d := by
      have h1 : n * d' = (n / d) * d * d' + (n % d) * d' := by nth_rewrite 1 [← e1]; ring
      have h2 : n' * d = (n / d) * d * d' + (n' % d') * d := by nth_rewrite 1 [← e2]; rw [heq]; ring
      omega
    unfold F32.divEven
    by_cases hu : d < 2 * (n % d) ∨ (2 * (n % d) = d ∧ n / d % 2 = 1)
    · rw [if_pos hu]
      have hge' : d' ≤ 2 * (n' % d') := by
        have : d ≤ 2 * (n % d) := by omega
        refine Nat.le_of_mul_le_mul_right (c := d) ?_ hd
        calc d' * d = d * d' := by ring
          _ ≤ 2 * (n % d) * d' := Nat.mul_le_mul_right _ this
          _ = 2 * ((n % d) * d') := by ring
          _ ≤ 2 * ((n' % d') * d) := Nat.mul_le_mul_left _ hrem
          _ = 2 * (n' % d') * d := by ring
      have hu' : d' < 2 * (n' % d') ∨ (2 * (n' % d') = d' ∧ n' / d' % 2 = 1) := by
        rcases hu with hu | ⟨-, hodd⟩
        · left
          refine Nat.lt_of_mul_lt_mul_right (a := d) ?_
          calc d' * d = d * d' := by ring
            _ < 2 * (n % d) * d' := Nat.mul_lt_mul_of_pos_right hu hd'
            _ = 2 * ((n % d) * d') := by ring
            _ ≤ 2 * ((n' % d') * d) := Nat.mul_le_mul_left _ hrem
            _ = 2 * (n' % d') * d := by ring
        · rw [heq] at hodd
          omega
      rw [if_pos hu']; omega
    · rw [if_neg hu]
      split <;> omega

theorem F32.roundExp_mono {n d n' d' : Nat} (h : n / d ≤ n' / d') : F32.roundExp n d ≤ F32.roundExp n' d' := by
  unfold F32.roundExp
  have : Nat.log2 (n / d) ≤ Nat.log2 (n' / d') := by
    rw [Nat.log2_eq_log_two, Nat.log2_eq_log_two]; exact Nat.log_mono_right h
  omega

/-- The integer part of the significand before rounding: 24 bits at most, and exactly 24 above exponent 0. -/
theorem F32.significand_bounds (n d : Nat) :
    n / (d * 2 ^ F32.roundExp n d) < 2 ^ 24 ∧
    (F32.roundExp n d ≠ 0 → 2 ^ 23 ≤ n / (d * 2 ^ F32.roundExp n d)) := by
  rw [← Nat.div_div_eq_div_mul]
  unfold F32.roundExp
  set t := n / d
  have hlt : t < 2 ^ (Nat.log2 t + 1) := Nat.lt_log2_self
  constructor
  · rw [Nat.div_lt_iff_lt_mul (by positivity)]
    refine hlt.trans_le ?_
    rw [← pow_add]
    exact Nat.pow_le_pow_right (by decide) (by omega)
  · intro hq
    have ht : t ≠ 0 := by
      rintro h0
      rw [h0] at hq
      exact hq (by decide)
    have hge : 2 ^ Nat.log2 t ≤ t := Nat.log2_self_le ht
    rw [Nat.le_div_iff_mul_le (by positivity), ← pow_add]
    have : 23 + (Nat.log2 t - 23) = Nat.log2 t := by omega
    rw [this]; exact hge

/-- Rounding is monotone in the exact rational result. -/
theorem F32.roundMag_mono {n d n' d' : Nat} (hd : 0 < d) (hd' : 0 < d') (h : n * d' ≤ n' * d) :
    F32.roundMag n d ≤ F32.roundMag n' d' := by
  have hf : n / d ≤ n' / d' := by
    rw [Nat.le_div_iff_mul_le hd']
    refine Nat.le_of_mul_le_mul_right (c := d) ?_ hd
    calc n / d * d' * d = n / d * d * d' := by ring
      _ ≤ n * d' := Nat.mul_le_mul_right d' (Nat.div_mul_le_self n d)
      _ ≤ n' * d := h
  have hq := F32.roundExp_mono hf
  unfold F32.roundMag
  refine min_le_min_right _ ?_
  rcases Nat.lt_or_ge (F32.roundExp n d) (F32.roundExp n' d') with hlt | hge
  · have h1 := (F32.significand_bounds n d).1
    have h2 := (F32.significand_bounds n' d').2 (by omega)
    have h3 := F32.divEven_le n (d * 2 ^ F32.roundExp n d)
    have h4 := F32.le_divEven n' (d' * 2 ^ F32.roundExp n' d')
    omega
  · have heq : F32.roundExp n d = F32.roundExp n' d' := le_antisymm hq hge
    rw [heq]
    refine Nat.add_le_add_left (F32.divEven_mono (by positivity) (by positivity) ?_) _
    calc n * (d' * 2 ^ F32.roundExp n' d') = n * d' * 2 ^ F32.roundExp n' d' := by ring
      _ ≤ n' * d * 2 ^ F32.roundExp n' d' := Nat.mul_le_mul_right _ h
      _ = n' * (d * 2 ^ F32.roundExp n' d') := by ring

theorem F32.divEven_mul_self {r d : Nat} (hd : 0 < d) : F32.divEven (r * d) d = r := by
  unfold F32.divEven
  rw [Nat.mul_mod_left, Nat.mul_div_cancel _ hd, if_neg (by omega)]

/-- A representable magnitude rounds to itself. -/
theorem F32.roundMag_exact {k d : Nat} (hd : 0 < d) (hk : k ≤ F32.infLow) :
    F32.roundMag (F32.magOf k * d) d = k := by
  obtain ⟨q, r, rfl, hqr, hr⟩ := F32.split_low k
  rw [F32.magOf_add hqr hr]
  have hdiv : r * 2 ^ q * d / d = r * 2 ^ q := Nat.mul_div_cancel _ hd
  have hexp : F32.roundExp (r * 2 ^ q * d) d = q := by
    unfold F32.roundExp
    rw [hdiv]
    rcases hqr with rfl | hr'
    · rw [pow_zero, mul_one]
      rcases Nat.eq_zero_or_pos r with rfl | hpos
      · decide
      · have : Nat.log2 r < 24 := (Nat.log2_lt hpos.ne').mpr hr
        omega
    · have hne : r * 2 ^ q ≠ 0 := by positivity
      have h1 : Nat.log2 (r * 2 ^ q) = 23 + q := by
        rw [Nat.log2_eq_iff hne]
        constructor
        · rw [pow_add]; exact Nat.mul_le_mul_right _ hr'
        · calc r * 2 ^ q < 2 ^ 24 * 2 ^ q := Nat.mul_lt_mul_of_pos_right hr (by positivity)
            _ = 2 ^ (23 + q + 1) := by rw [← pow_add]; congr 1; omega
      omega
  unfold F32.roundMag
  rw [hexp]
  have : r * 2 ^ q * d = r * (d * 2 ^ q) := by ring
  rw [this, F32.divEven_mul_self (by positivity)]
  exact min_eq_left hk

theorem F32.roundMag_le_inf (n d : Nat) : F32.roundMag n d ≤ F32.infLow := min_le_right _ _

theorem F32.infLow_lt : F32.infLow < 2 ^ 31 := by decide

theorem F32.low_round (b : Bool) (n d : Nat) : F32.low (F32.round b n d) = F32.roundMag n d :=
  F32.low_pack b ((F32.roundMag_le_inf n d).trans_lt F32.infLow_lt)

theorem F32.sign_round (b : Bool) (n d : Nat) : F32.sign (F32.round b n d) = b :=
  F32.sign_pack b ((F32.roundMag_le_inf n d).trans_lt F32.infLow_lt)

/-- `magOf` is monotone on the words up to infinity. -/
theorem F32.magOf_mono {j k : Nat} (h : j ≤ k) : F32.magOf j ≤ F32.magOf k := by
  obtain ⟨q, r, rfl, hqr, hr⟩ := F32.split_low j
  obtain ⟨q', r', rfl, hqr', hr'⟩ := F32.split_low k
  rw [F32.magOf_add hqr hr, F32.magOf_add hqr' hr']
  rcases Nat.lt_trichotomy q q' with hlt | rfl | hgt
  · have h23 : 2 ^ 23 ≤ r' := by omega
    calc r * 2 ^ q ≤ 2 ^ 24 * 2 ^ q := Nat.mul_le_mul_right _ hr.le
      _ = 2 ^ 23 * 2 ^ (q + 1) := by rw [pow_succ]; ring
      _ ≤ r' * 2 ^ q' := Nat.mul_le_mul h23 (Nat.pow_le_pow_right (by decide) hlt)
  · exact Nat.mul_le_mul_right _ (by omega)
  · omega

theorem F32.magOf_strictMono {j k : Nat} (hk : k ≤ F32.infLow) (h : j < k) : F32.magOf j < F32.magOf k := by
  refine lt_of_le_of_ne (F32.magOf_mono h.le) fun he => ?_
  have h1 := F32.roundMag_exact (k := j) (d := 1) (by decide) (h.le.trans hk)
  have h2 := F32.roundMag_exact (k := k) (d := 1) (by decide) hk
  rw [he] at h1
  omega

theorem F32.magOf_le_iff {j k : Nat} (hj : j ≤ F32.infLow) : F32.magOf j ≤ F32.magOf k ↔ j ≤ k := by
  refine ⟨fun h => ?_, F32.magOf_mono⟩
  by_contra hc
  have := F32.magOf_strictMono hj (Nat.lt_of_not_le hc)
  omega

/-- The order of finite values is the order of their numbers. -/
theorem F32.le_iff_val {x y : F32} (hx : F32.isFinite x = true) (hy : F32.isFinite y = true) :
    F32.le x y = true ↔ F32.val x ≤ F32.val y := by
  rw [F32.le_iff]
  simp only [F32.not_isNaN_of_isFinite hx, F32.not_isNaN_of_isFinite hy, true_and]
  rw [F32.isFinite_iff] at hx hy
  have h1 := F32.magOf_le_iff (j := F32.low x) (k := F32.low y) hx.le
  have h2 := F32.magOf_le_iff (j := F32.low y) (k := F32.low x) hy.le
  have h3 := F32.magOf_le_iff (j := F32.low x) (k := 0) hx.le
  have h4 := F32.magOf_le_iff (j := F32.low y) (k := 0) hy.le
  rw [F32.magOf_zero] at h3 h4
  unfold F32.key F32.val
  rw [F32.mag_eq, F32.mag_eq]
  cases F32.sign x <;> cases F32.sign y <;> simp <;> omega

theorem F32.lt_iff_val {x y : F32} (hx : F32.isFinite x = true) (hy : F32.isFinite y = true) :
    F32.lt x y = true ↔ F32.val x < F32.val y := by
  have h := F32.le_iff_val hy hx
  rw [F32.le_iff] at h
  rw [F32.lt_iff]
  simp only [F32.not_isNaN_of_isFinite hx, F32.not_isNaN_of_isFinite hy, true_and] at h ⊢
  omega

theorem F32.val_natAbs (x : F32) : (F32.val x).natAbs = F32.mag x := by
  unfold F32.val; split <;> omega

/-! ### Bounds on magnitudes

`F32.low x ≤ k` with `k` below the word of infinity says that `x` is finite and of magnitude at most that of `k`. -/

theorem F32.isFinite_of_low_le {x : F32} {k : Nat} (hk : k < F32.infLow) (h : F32.low x ≤ k) :
    F32.isFinite x = true := F32.isFinite_iff.mpr (h.trans_lt hk)

/-- What the finite operations return. -/
theorem F32.add_of_finite {x y : F32} (hx : F32.isFinite x = true) (hy : F32.isFinite y = true) :
    F32.add x y = F32.addFinite x y := by
  simp [F32.add, F32.not_isNaN_of_isFinite, F32.not_isInf_of_isFinite, hx, hy]

theorem F32.mul_of_finite {x y : F32} (hx : F32.isFinite x = true) (hy : F32.isFinite y = true) :
    F32.mul x y = F32.round (F32.sign x != F32.sign y) (F32.mag x * F32.mag y) (2 ^ 149) := by
  simp [F32.mul, F32.not_isNaN_of_isFinite, F32.not_isInf_of_isFinite, hx, hy]

theorem F32.isZero_iff {x : F32} : F32.isZero x = true ↔ F32.low x = 0 := by simp [F32.isZero]

theorem F32.div_of_finite {x y : F32} (hx : F32.isFinite x = true) (hy : F32.isFinite y = true)
    (h0 : F32.low y ≠ 0) :
    F32.div x y = F32.round (F32.sign x != F32.sign y) (F32.mag x * 2 ^ 149) (F32.mag y) := by
  have hz : F32.isZero y = false := by simpa [F32.isZero] using h0
  simp [F32.div, F32.not_isNaN_of_isFinite, F32.not_isInf_of_isFinite, hx, hy, hz]

theorem F32.roundMag_zero (d : Nat) : F32.roundMag 0 d = 0 := by
  unfold F32.roundMag F32.roundExp F32.divEven
  rw [Nat.zero_div, Nat.zero_mod, Nat.zero_div]
  rw [if_neg (by omega)]
  decide

theorem F32.low_addFinite (x y : F32) :
    F32.low (F32.addFinite x y) = F32.roundMag (F32.val x + F32.val y).natAbs 1 := by
  unfold F32.addFinite
  by_cases h : F32.val x + F32.val y = 0
  · simp only [h, if_true, Int.natAbs_zero, F32.roundMag_zero]
    split <;> decide
  · simp only [h, if_false, F32.low_round]

/-- A product of bounded values is bounded by the product of the bounds. -/
theorem F32.low_mul_le {x y : F32} {j k : Nat} (hj : j < F32.infLow) (hk : k < F32.infLow)
    (hx : F32.low x ≤ j) (hy : F32.low y ≤ k) :
    F32.low (F32.mul x y) ≤ F32.roundMag (F32.magOf j * F32.magOf k) (2 ^ 149) := by
  rw [F32.mul_of_finite (F32.isFinite_of_low_le hj hx) (F32.isFinite_of_low_le hk hy), F32.low_round,
    F32.mag_eq, F32.mag_eq]
  refine F32.roundMag_mono (by decide) (by decide) (Nat.mul_le_mul_right _ ?_)
  exact Nat.mul_le_mul (F32.magOf_mono hx) (F32.magOf_mono hy)

/-- A sum of bounded values is bounded by the sum of the bounds. -/
theorem F32.low_add_le {x y : F32} {j k : Nat} (hj : j < F32.infLow) (hk : k < F32.infLow)
    (hx : F32.low x ≤ j) (hy : F32.low y ≤ k) :
    F32.low (F32.add x y) ≤ F32.roundMag (F32.magOf j + F32.magOf k) 1 := by
  rw [F32.add_of_finite (F32.isFinite_of_low_le hj hx) (F32.isFinite_of_low_le hk hy), F32.low_addFinite]
  refine F32.roundMag_mono (by decide) (by decide) ?_
  have h1 := F32.magOf_mono hx
  have h2 := F32.magOf_mono hy
  rw [← F32.mag_eq, ← F32.val_natAbs] at h1 h2
  omega

theorem F32.low_sub_le {x y : F32} {j k : Nat} (hj : j < F32.infLow) (hk : k < F32.infLow)
    (hx : F32.low x ≤ j) (hy : F32.low y ≤ k) :
    F32.low (F32.sub x y) ≤ F32.roundMag (F32.magOf j + F32.magOf k) 1 :=
  F32.low_add_le hj hk hx ((F32.low_neg y).trans_le hy)

/-- A quotient of a bounded value by a value bounded from below is bounded by the quotient of the bounds. -/
theorem F32.low_div_le {x y : F32} {j k : Nat} (hj : j < F32.infLow) (hk : 0 < k) (hyf : F32.isFinite y = true)
    (hx : F32.low x ≤ j) (hy : k ≤ F32.low y) :
    F32.low (F32.div x y) ≤ F32.roundMag (F32.magOf j * 2 ^ 149) (F32.magOf k) := by
  have hk0 : 0 < F32.magOf k := by
    have := F32.magOf_strictMono (j := 0) ((hy.trans_lt (F32.isFinite_iff.mp hyf)).le) hk
    omega
  rw [F32.div_of_finite (F32.isFinite_of_low_le hj hx) hyf (by omega), F32.low_round, F32.mag_eq, F32.mag_eq]
  refine F32.roundMag_mono (hk0.trans_le (F32.magOf_mono hy)) hk0 ?_
  exact Nat.mul_le_mul (Nat.mul_le_mul_right _ (F32.magOf_mono hx)) (F32.magOf_mono hy)

/-- A product with a factor of magnitude at most 1 is no larger than the other factor. -/
theorem F32.low_mul_le_left {x c : F32} (hx : F32.isFinite x = true) (hc : F32.low c ≤ 0x3F800000) :
    F32.low (F32.mul x c) ≤ F32.low x := by
  have h := F32.low_mul_le (F32.isFinite_iff.mp hx) (by decide) (le_refl (F32.low x)) hc
  have e : F32.magOf 0x3F800000 = 2 ^ 149 := by decide +kernel
  rw [e, F32.roundMag_exact (by decide) (F32.isFinite_iff.mp hx).le] at h
  exact h

theorem F32.mul_comm (x y : F32) : F32.mul x y = F32.mul y x := by
  have hb : (F32.sign x != F32.sign y) = (F32.sign y != F32.sign x) := by
    cases F32.sign x <;> cases F32.sign y <;> rfl
  unfold F32.mul
  simp only [Bool.or_comm (F32.isNaN x), Bool.or_comm (F32.isInf x), Bool.or_comm (F32.isZero x), hb,
    Nat.mul_comm (F32.mag x)]

end Sys2Proof
end

