-- ==== Sys2Proof/Laws/Memory.lean ====
section
/-! SUPPORT. The laws of a delay line: what a word reads as after a write, and the canonical form, which every write
keeps. -/

-- One theorem at a time: many at once take a thread, and its stack, each.
set_option Elab.async false

namespace Sys2Proof.Machine

theorem DelayLine.get_cons_same (a : Nat) (x : F32) (m : DelayLine) : DelayLine.get ((a, x) :: m) a = x := by
  simp [DelayLine.get]

theorem DelayLine.get_cons_ne {a k : Nat} (h : a ≠ k) (x : F32) (m : DelayLine) :
    DelayLine.get ((a, x) :: m) k = DelayLine.get m k := by
  simp [DelayLine.get, h]

theorem DelayLine.risingFrom_cons {lo a : Nat} {x : F32} {m : DelayLine} :
    DelayLine.risingFrom lo ((a, x) :: m) = true ↔ lo ≤ a ∧ DelayLine.risingFrom (a + 1) m = true := by
  simp [DelayLine.risingFrom]

/-- Below the first listed index every word is `+0.0`. -/
theorem DelayLine.get_of_lt {m : DelayLine} {lo k : Nat} (h : DelayLine.risingFrom lo m = true) (hk : k < lo) :
    DelayLine.get m k = Lit.c0 := by
  induction m generalizing lo with
  | nil => rfl
  | cons c rest ih =>
    obtain ⟨a, x⟩ := c
    rw [DelayLine.risingFrom_cons] at h
    rw [DelayLine.get_cons_ne (by omega)]
    exact ih h.2 (by omega)

theorem DelayLine.risingFrom_weaken {m : DelayLine} {lo lo' : Nat} (h : DelayLine.risingFrom lo m = true)
    (hle : lo' ≤ lo) : DelayLine.risingFrom lo' m = true := by
  cases m with
  | nil => rfl
  | cons c rest =>
    obtain ⟨a, x⟩ := c
    simp only [DelayLine.risingFrom, Bool.and_eq_true, decide_eq_true_eq] at h ⊢
    exact ⟨by omega, h.2⟩

/-- A write changes the word at its index and no other. -/
theorem DelayLine.get_put {m : DelayLine} {lo : Nat} (h : DelayLine.risingFrom lo m = true) (k j : Nat) (v : F32) :
    DelayLine.get (DelayLine.put m k v) j = if j = k then v else DelayLine.get m j := by
  induction m generalizing lo with
  | nil =>
    by_cases hv : v = Lit.c0
    · subst hv; simp [DelayLine.put, DelayLine.get]
    · simp only [DelayLine.put, if_neg hv, DelayLine.get, eq_comm (a := k)]
  | cons c rest ih =>
    obtain ⟨a, x⟩ := c
    rw [DelayLine.risingFrom_cons] at h
    have ih := ih h.2
    have hlow : ∀ i, i < a + 1 → DelayLine.get rest i = Lit.c0 := fun i hi => DelayLine.get_of_lt h.2 hi
    rcases Nat.lt_trichotomy k a with h1 | rfl | h1
    · have e : DelayLine.put ((a, x) :: rest) k v = if v = Lit.c0 then (a, x) :: rest else (k, v) :: (a, x) :: rest := by
        simp [DelayLine.put, h1]
      rw [e]
      by_cases hj : j = k
      · subst hj
        rw [if_pos rfl]
        by_cases hv : v = Lit.c0
        · rw [if_pos hv, DelayLine.get_cons_ne (by omega), hlow j (by omega), hv]
        · rw [if_neg hv, DelayLine.get_cons_same]
      · rw [if_neg hj]
        by_cases hv : v = Lit.c0
        · rw [if_pos hv]
        · rw [if_neg hv, DelayLine.get_cons_ne (Ne.symm hj)]
    · have e : DelayLine.put ((k, x) :: rest) k v = if v = Lit.c0 then rest else (k, v) :: rest := by
        simp [DelayLine.put]
      rw [e]
      by_cases hj : j = k
      · subst hj
        rw [if_pos rfl]
        by_cases hv : v = Lit.c0
        · rw [if_pos hv, hlow j (by omega), hv]
        · rw [if_neg hv, DelayLine.get_cons_same]
      · rw [if_neg hj, DelayLine.get_cons_ne (Ne.symm hj)]
        by_cases hv : v = Lit.c0
        · rw [if_pos hv]
        · rw [if_neg hv, DelayLine.get_cons_ne (Ne.symm hj)]
    · have e : DelayLine.put ((a, x) :: rest) k v = (a, x) :: DelayLine.put rest k v := by
        simp [DelayLine.put, show ¬k < a by omega, show k ≠ a by omega]
      rw [e]
      by_cases hj : a = j
      · subst hj
        rw [DelayLine.get_cons_same, DelayLine.get_cons_same, if_neg (by omega)]
      · rw [DelayLine.get_cons_ne hj, DelayLine.get_cons_ne hj, ih]

theorem DelayLine.risingFrom_put {m : DelayLine} {lo : Nat} (h : DelayLine.risingFrom lo m = true) {k : Nat}
    (hk : lo ≤ k) (v : F32) : DelayLine.risingFrom lo (DelayLine.put m k v) = true := by
  induction m generalizing lo with
  | nil =>
    simp only [DelayLine.put]
    split <;> simp [DelayLine.risingFrom, hk]
  | cons c rest ih =>
    obtain ⟨a, x⟩ := c
    have h' := h
    simp only [DelayLine.risingFrom, Bool.and_eq_true, decide_eq_true_eq] at h
    simp only [DelayLine.put]
    by_cases h1 : k < a
    · rw [if_pos h1]
      split
      · exact h'
      · simp only [DelayLine.risingFrom, Bool.and_eq_true, decide_eq_true_eq]
        exact ⟨hk, by omega, h.2⟩
    · rw [if_neg h1]
      by_cases h2 : k = a
      · rw [if_pos h2]
        split
        · exact DelayLine.risingFrom_weaken h.2 (by omega)
        · simp only [DelayLine.risingFrom, Bool.and_eq_true, decide_eq_true_eq]
          exact ⟨hk, h2 ▸ h.2⟩
      · rw [if_neg h2]
        simp only [DelayLine.risingFrom, Bool.and_eq_true, decide_eq_true_eq]
        exact ⟨h.1, ih h.2 (by omega)⟩

/-- What a write lists: the cells of before, or the written one, which is not `+0.0`. -/
theorem DelayLine.mem_put {m : DelayLine} {k : Nat} {v : F32} {c : Nat × F32} (h : c ∈ DelayLine.put m k v) :
    c ∈ m ∨ (c = (k, v) ∧ v ≠ Lit.c0) := by
  induction m with
  | nil =>
    simp only [DelayLine.put] at h
    split at h
    · simp at h
    · next hv => exact .inr ⟨by simpa using h, hv⟩
  | cons d rest ih =>
    obtain ⟨a, x⟩ := d
    simp only [DelayLine.put] at h
    split at h
    · split at h
      · exact .inl h
      · next hv =>
        rcases List.mem_cons.mp h with h | h
        · exact .inr ⟨h, hv⟩
        · exact .inl h
    · split at h
      · split at h
        · exact .inl (List.mem_cons_of_mem _ h)
        · next hv =>
          rcases List.mem_cons.mp h with h | h
          · exact .inr ⟨h, hv⟩
          · exact .inl (List.mem_cons_of_mem _ h)
      · rcases List.mem_cons.mp h with h | h
        · exact .inl (h ▸ List.mem_cons_self)
        · rcases ih h with h | h
          · exact .inl (List.mem_cons_of_mem _ h)
          · exact .inr h

theorem DelayLine.wf_iff (m : DelayLine) : DelayLine.wf m = true ↔
    DelayLine.risingFrom 0 m = true ∧ ∀ c ∈ m, c.1 < Config.rvDepth ∧ c.2 ≠ Lit.c0 := by
  simp [DelayLine.wf, List.all_eq_true]

/-- `MemWrite` keeps the canonical form. -/
theorem memWrite_wf {m : DelayLine} (h : DelayLine.wf m = true) (k : LineIndex) (v : F32) :
    DelayLine.wf (memWrite m k v) = true := by
  rw [DelayLine.wf_iff] at h ⊢
  refine ⟨DelayLine.risingFrom_put h.1 (Nat.zero_le k) v, fun c hc => ?_⟩
  rcases DelayLine.mem_put hc with hc | ⟨rfl, hv⟩
  · exact h.2 c hc
  · exact ⟨k.isLt, hv⟩

/-- `MemRead` after `MemWrite`. -/
theorem memRead_memWrite {m : DelayLine} (h : DelayLine.wf m = true) (k j : LineIndex) (v : F32) :
    memRead (memWrite m k v) j = if j = k then v else memRead m j := by
  simp only [memRead, memWrite, DelayLine.get_put ((DelayLine.wf_iff m).mp h).1, Fin.ext_iff]

/-- Two canonical lines that read alike are the same list. -/
theorem DelayLine.ext_get {m m' : DelayLine} {lo : Nat} (h : DelayLine.risingFrom lo m = true)
    (h' : DelayLine.risingFrom lo m' = true) (hz : ∀ c ∈ m, c.2 ≠ Lit.c0) (hz' : ∀ c ∈ m', c.2 ≠ Lit.c0)
    (he : ∀ k, DelayLine.get m k = DelayLine.get m' k) : m = m' := by
  induction m generalizing m' lo with
  | nil =>
    cases m' with
    | nil => rfl
    | cons d rest =>
      obtain ⟨a, x⟩ := d
      have := he a
      rw [DelayLine.get_cons_same] at this
      exact absurd this.symm (hz' (a, x) List.mem_cons_self)
  | cons c rest ih =>
    obtain ⟨a, x⟩ := c
    have hr := h
    rw [DelayLine.risingFrom_cons] at h
    have hx : x ≠ Lit.c0 := hz (a, x) List.mem_cons_self
    cases m' with
    | nil =>
      have := he a
      rw [DelayLine.get_cons_same] at this
      exact absurd this hx
    | cons d rest' =>
      obtain ⟨b, y⟩ := d
      have hr' := h'
      rw [DelayLine.risingFrom_cons] at h'
      have hy : y ≠ Lit.c0 := hz' (b, y) List.mem_cons_self
      have hab : a = b := by
        rcases Nat.lt_trichotomy a b with hlt | heq | hgt
        · have := he a
          rw [DelayLine.get_cons_same, DelayLine.get_cons_ne (by omega), DelayLine.get_of_lt h'.2 (by omega)] at this
          exact absurd this hx
        · exact heq
        · have := he b
          rw [DelayLine.get_cons_same, DelayLine.get_cons_ne (by omega), DelayLine.get_of_lt h.2 (by omega)] at this
          exact absurd this.symm hy
      subst hab
      have hxy := he a
      rw [DelayLine.get_cons_same, DelayLine.get_cons_same] at hxy
      subst hxy
      congr 1
      refine ih h.2 h'.2 (fun c hc => hz c (List.mem_cons_of_mem _ hc))
        (fun c hc => hz' c (List.mem_cons_of_mem _ hc)) fun k => ?_
      by_cases hk : a = k
      · subst hk
        rw [DelayLine.get_of_lt h.2 (by omega), DelayLine.get_of_lt h'.2 (by omega)]
      · have := he k
        rwa [DelayLine.get_cons_ne hk, DelayLine.get_cons_ne hk] at this

/-- The reset lines are canonical. -/
theorem State.resetWith_lines (C : Params) :
    DelayLine.wf (State.resetWith C).rev.rvl = true ∧ DelayLine.wf (State.resetWith C).rev.rvr = true := ⟨rfl, rfl⟩

/-! ### The circular index (R62) -/

theorem modLen_lt (n : Nat) (len : LineLen) : (modLen n len).val < len.val :=
  Nat.mod_lt _ (by have := len.property; omega)

@[simp] theorem tapIndex_val (w : LineIndex) (len : LineLen) (d : LineIndex) :
    (tapIndex w len d).val = (w.val + len.val - d.val) % len.val := rfl

@[simp] theorem nextIndex_val (w : LineIndex) (len : LineLen) : (nextIndex w len).val = (w.val + 1) % len.val := rfl

theorem tapIndex_lt (w : LineIndex) (len : LineLen) (d : LineIndex) : (tapIndex w len d).val < len.val := modLen_lt _ _

theorem nextIndex_lt (w : LineIndex) (len : LineLen) : (nextIndex w len).val < len.val := modLen_lt _ _

end Sys2Proof.Machine
end

