-- ==== Sys2Proof/Laws/Master.lean ====
section
/-! SUPPORT. Everything the stages of the master bus can do: what REV_STEP writes, and that a
bypassed stage changes nothing (43_masterbus.md R191, R194, R197). -/

-- One theorem at a time: many at once take a thread, and its stack, each.
set_option Elab.async false

namespace Sys2Proof.Machine

@[simp] theorem sat_bypassed {m : MasterParams} (h : bypassed m.drive = true) (l r : F32) : sat m l r = (l, r) := by
  simp [sat, h]

@[simp] theorem compStep_bypassed (N : Numerics) {m : MasterParams} (h : bypassed m.comp = true) (c : Comp) (l r : F32) :
    compStep N m c l r = (c, l, r) := by
  simp [compStep, h]

@[simp] theorem revStep_bypassed {m : MasterParams} (h : bypassed m.reverb = true) (rv : Reverb) (l r : F32) :
    revStep m rv l r = (rv, l, r) := by
  simp [revStep, h]

/-- The coefficients are written by SETRATE and reset alone. -/
@[simp] theorem compStep_coefs (N : Numerics) (m : MasterParams) (c : Comp) (l r : F32) :
    (compStep N m c l r).1.att = c.att ∧ (compStep N m c l r).1.rel = c.rel := by
  unfold compStep
  split <;> exact ⟨rfl, rfl⟩

/-- The left wet signal of a reverb. -/
def wetLeft (rv : Reverb) : F32 :=
  wetOf (DelayLine.get rv.rvl (tapIndex rv.w rv.len rv.tap.l1)) (DelayLine.get rv.rvl (tapIndex rv.w rv.len rv.tap.l2))

/-- The right wet signal of a reverb. -/
def wetRight (rv : Reverb) : F32 :=
  wetOf (DelayLine.get rv.rvr (tapIndex rv.w rv.len rv.tap.r1)) (DelayLine.get rv.rvr (tapIndex rv.w rv.len rv.tap.r2))

/-- A REV_STEP that is not bypassed, whole. -/
theorem revStep_eq {m : MasterParams} (h : bypassed m.reverb = false) (rv : Reverb) (l r : F32) :
    revStep m rv l r =
      ({ rv with
          rvl := DelayLine.put rv.rvl rv.w (fedWord (monoMix l r) (wetLeft rv))
          rvr := DelayLine.put rv.rvr rv.w (fedWord (monoMix l r) (wetRight rv))
          w := nextIndex rv.w rv.len },
        wetDry (clamp01 m.reverb) l (wetLeft rv), wetDry (clamp01 m.reverb) r (wetRight rv)) := by
  simp [revStep, h, wetSignal, memRead, memWrite, wetLeft, wetRight]

/-- The geometry is written by SETRATE and reset alone. -/
@[simp] theorem revStep_geometry (m : MasterParams) (rv : Reverb) (l r : F32) :
    (revStep m rv l r).1.len = rv.len ∧ (revStep m rv l r).1.tap = rv.tap := by
  unfold revStep
  split <;> exact ⟨rfl, rfl⟩

end Sys2Proof.Machine
end

