-- ==== Sys2Proof/Laws/Frame.lean ====
section
/-! SUPPORT. Everything FRAME can do (44_scheduler_commands.md R217): the whole next state. -/

-- One theorem at a time: many at once take a thread, and its stack, each.
set_option Elab.async false

namespace Sys2Proof.Machine

/-- The voices after a frame: each triggered by its own released events, then asked for one sample. -/
def framedVoices (C : Params) (s : State) : Vector Voice 8 := (mix C (release C s)).1.voices

theorem framedVoices_get (C : Params) (s : State) (i : Slot) :
    (framedVoices C s)[i] = (processVoice C (release C s) i).1 := mix_voices C _ i

theorem mix_release_eq (C : Params) (s : State) :
    (mix C (release C s)).1 = { s with voices := framedVoices C s, queue := keptEvents s } := by
  have hsr := mix_sr C (release C s)
  have hsched := mix_sched C (release C s)
  have hq := mix_queue C (release C s)
  have hst := mix_sticky C (release C s)
  have hsl := mix_slots C (release C s)
  have hm := mix_master C (release C s)
  have hc := mix_comp C (release C s)
  have hr := mix_rev C (release C s)
  have hp := mix_port C (release C s)
  have ho := mix_out C (release C s)
  simp only [release_sr, release_sched, release_queue, release_sticky, release_slots, release_master, release_comp,
    release_rev, release_port, release_out] at hsr hsched hq hst hsl hm hc hr hp ho
  unfold framedVoices
  generalize (mix C (release C s)).1 = x at *
  cases x
  simp only at *
  subst hsr hsched hq hst hsl hm hc hr hp ho
  rfl

/-- What MASTER is given in a frame. -/
theorem masterFrame_mix (C : Params) (s : State) : masterFrame C (mix C (release C s)) =
    master C.num s.master s.comp s.rev (mixSum C (release C s) Prod.fst) (mixSum C (release C s) Prod.snd) := by
  unfold masterFrame
  rw [mix_left, mix_right, mix_master, mix_comp, mix_rev, release_master, release_comp, release_rev]

/-- The state a frame leaves, for what the master bus returns. -/
theorem emitFrame_mix (C : Params) (s : State) (y : Comp × Reverb × F32 × F32) :
    emitFrame (mix C (release C s)).1 y =
      { s with
        voices := framedVoices C s
        sched := { s.sched with frameIdx := s.sched.frameIdx + 1 }
        queue := keptEvents s
        comp := y.1
        rev := y.2.1
        out := s.out ++ [.emit (frameRecord y.2.2.1 y.2.2.2)] } := by
  rw [mix_release_eq]; rfl

/-- What the master bus returns in a frame. -/
def masteredFrame (C : Params) (s : State) : Comp × Reverb × F32 × F32 :=
  master C.num s.master s.comp s.rev (mixSum C (release C s) Prod.fst) (mixSum C (release C s) Prod.snd)

/-- A frame inside its block, whole. -/
theorem renderFrame_eq (C : Params) (s : State) :
    renderFrame C s =
      { s with
        voices := framedVoices C s
        sched := { s.sched with frameIdx := s.sched.frameIdx + 1 }
        queue := keptEvents s
        comp := (masteredFrame C s).1
        rev := (masteredFrame C s).2.1
        out := s.out ++ [.emit (frameRecord (masteredFrame C s).2.2.1 (masteredFrame C s).2.2.2)] } := by
  show emitFrame (mix C (release C s)).1 (masterFrame C (mix C (release C s))) = _
  rw [masterFrame_mix, emitFrame_mix]; rfl

/-- FRAME inside a block, whole. -/
theorem execFrame_inBlock {s : State} (h : s.sched.frameIdx.toNat < s.sched.blockLen.toNat) :
    execFrame s = .next (renderFrame Config.params s) := by
  simp only [execFrame, frameWith, if_neg (Nat.not_le.mpr h)]

/-- The master bus leaves the rate-dependent registers. -/
theorem master_keeps (N : Numerics) (m : MasterParams) (c : Comp) (rv : Reverb) (l r : F32) :
    (master N m c rv l r).1.att = c.att ∧ (master N m c rv l r).1.rel = c.rel ∧
    (master N m c rv l r).2.1.len = rv.len ∧ (master N m c rv l r).2.1.tap = rv.tap :=
  ⟨(compStep_coefs ..).1, (compStep_coefs ..).2, (revStep_geometry ..).1, (revStep_geometry ..).2⟩

end Sys2Proof.Machine
end

