-- ==== Sys2Proof/Laws/Rounding.lean ====
section
/-! SUPPORT. `F32.round` is correct rounding (00_scope.md R9): to the nearest binary32 value, the even one of a tie, and
to an infinity exactly from `2^128 - 2^103` on. -/

-- One theorem at a time: many at once take a thread, and its stack, each.
set_option Elab.async false

namespace Sys2Proof

/-! ### Nearest magnitudes -/

/-- `k` is the nearest magnitude word to `n / d` in units of `2^-149`, and of two equally near the even one. -/
def F32.NearestMag (n d k : Nat) : Prop :=
  ∀ j, |(F32.magOf k * d : Int) - n| < |(F32.magOf j * d : Int) - n| ∨
    (|(F32.magOf k * d : Int) - n| = |(F32.magOf j * d : Int) - n| ∧ (F32.magOf j = F32.magOf k ∨ k % 2 = 0))

/-- A significand that has just rounded up to `2^24` too. -/
theorem F32.magOf_succ_significand {q r : Nat} (h : q = 0 ∨ 2 ^ 23 ≤ r) (h' : r ≤ 2 ^ 24) :
    F32.magOf (q * 2 ^ 23 + r) = r * 2 ^ q := by
  rcases h'.lt_or_eq with hl | rfl
  · exact F32.magOf_add h hl
  · rw [show q * 2 ^ 23 + 2 ^ 24 = (q + 1) * 2 ^ 23 + 2 ^ 23 by ring, F32.magOf_add (.inr le_rfl) (by norm_num)]
    ring

/-- A number between two consecutive magnitudes, rounded to the nearer, the even one of a tie. -/
theorem F32.nearestMag_of_between {n d lo : Nat} (hd : 0 < d) (hlo : F32.magOf lo * d ≤ n)
    (hhi : n ≤ F32.magOf (lo + 1) * d) (up : Bool)
    (hup : up = true → F32.magOf (lo + 1) * d - n < n - F32.magOf lo * d ∨
      (F32.magOf (lo + 1) * d - n = n - F32.magOf lo * d ∧ lo % 2 = 1))
    (hdown : up = false → n - F32.magOf lo * d < F32.magOf (lo + 1) * d - n ∨
      (n - F32.magOf lo * d = F32.magOf (lo + 1) * d - n ∧ lo % 2 = 0)) :
    F32.NearestMag n d (if up then lo + 1 else lo) := by
  intro j
  have hj : (F32.magOf j * d = F32.magOf lo * d ∧ F32.magOf j = F32.magOf lo) ∨ F32.magOf j * d < F32.magOf lo * d ∨
      (F32.magOf j * d = F32.magOf (lo + 1) * d ∧ F32.magOf j = F32.magOf (lo + 1)) ∨
      F32.magOf (lo + 1) * d < F32.magOf j * d := by
    rcases Nat.lt_or_ge j (lo + 1) with h | h
    · have h1 := F32.magOf_mono (show j ≤ lo by omega)
      rcases h1.eq_or_lt with h2 | h2
      · exact .inl ⟨by rw [h2], h2⟩
      · exact .inr (.inl (Nat.mul_lt_mul_of_pos_right h2 hd))
    · have h1 := F32.magOf_mono h
      rcases h1.eq_or_lt with h2 | h2
      · exact .inr (.inr (.inl ⟨by rw [h2], h2.symm⟩))
      · exact .inr (.inr (.inr (Nat.mul_lt_mul_of_pos_right h2 hd)))
  have c : ∀ m : Nat, (F32.magOf m : Int) * d = ((F32.magOf m * d : Nat) : Int) := fun m => by push_cast; rfl
  cases up
  · have := hdown rfl
    simp only [Bool.false_eq_true, if_false, c]
    generalize F32.magOf lo * d = A at *
    generalize F32.magOf (lo + 1) * d = B at *
    generalize F32.magOf j * d = C at *
    rcases hj with ⟨hj, hm⟩ | hj | ⟨hj, hm⟩ | hj
    · right; rw [hj]; exact ⟨rfl, .inl hm⟩
    · left; rw [abs_of_nonpos (by omega), abs_of_nonpos (by omega)]; omega
    · subst hj
      rw [abs_of_nonpos (by omega), abs_of_nonneg (by omega)]; omega
    · left; rw [abs_of_nonpos (by omega), abs_of_nonneg (by omega)]; omega
  · have := hup rfl
    simp only [if_true, c]
    generalize F32.magOf lo * d = A at *
    generalize F32.magOf (lo + 1) * d = B at *
    generalize F32.magOf j * d = C at *
    rcases hj with ⟨hj, hm⟩ | hj | ⟨hj, hm⟩ | hj
    · subst hj
      rw [abs_of_nonneg (by omega), abs_of_nonpos (by omega)]; omega
    · left; rw [abs_of_nonneg (by omega), abs_of_nonpos (by omega)]; omega
    · right; rw [hj]; exact ⟨rfl, .inl hm⟩
    · left; rw [abs_of_nonneg (by omega), abs_of_nonneg (by omega)]; omega

/-- Rounding before the cut at infinity is to the nearest magnitude. -/
theorem F32.nearestMag_uncut {n d : Nat} (hd : 0 < d) :
    F32.NearestMag n d (F32.roundExp n d * 2 ^ 23 + F32.divEven n (d * 2 ^ F32.roundExp n d)) := by
  obtain ⟨hlt, hge⟩ := F32.significand_bounds n d
  set q := F32.roundExp n d
  have hD : 0 < d * 2 ^ q := by positivity
  have hqa : q = 0 ∨ 2 ^ 23 ≤ n / (d * 2 ^ q) := by
    rcases Nat.eq_zero_or_pos q with h | h
    · exact .inl h
    · exact .inr (hge (by omega))
  have hdm := Nat.div_add_mod n (d * 2 ^ q)
  have hr := Nat.mod_lt n hD
  unfold F32.divEven
  generalize n % (d * 2 ^ q) = rem at *
  generalize n / (d * 2 ^ q) = a at *
  have m0 : F32.magOf (q * 2 ^ 23 + a) * d = d * 2 ^ q * a := by
    rw [F32.magOf_succ_significand hqa hlt.le]; ring
  have m1 : F32.magOf (q * 2 ^ 23 + a + 1) * d = d * 2 ^ q * a + d * 2 ^ q := by
    rw [add_assoc, F32.magOf_succ_significand (by omega) (by omega)]; ring
  have key := F32.nearestMag_of_between (n := n) hd (lo := q * 2 ^ 23 + a) (by omega) (by omega)
    (decide (d * 2 ^ q < 2 * rem ∨ (2 * rem = d * 2 ^ q ∧ a % 2 = 1)))
  rw [m0, m1] at key
  have key := key (by simp only [decide_eq_true_eq]; omega) (by simp only [decide_eq_false_iff_not]; omega)
  simp only [decide_eq_true_eq] at key
  split at key <;> rename_i h
  · rw [if_pos h]; rw [← Nat.add_assoc]; exact key
  · rw [if_neg h]; exact key

/-- `2^128 - 2^103` in units of `2^-149`. -/
def F32.overflowMag : Nat := (2 ^ 25 - 1) * 2 ^ 252

/-- When rounding overflows. -/
theorem F32.roundMag_eq_inf_iff {n d : Nat} (hd : 0 < d) :
    F32.roundMag n d = F32.infLow ↔ F32.overflowMag * d ≤ n := by
  have aux : ∀ X m n : Nat, X * 2 * (2 ^ 24 - 1) + m = n → X * 2 ≤ 2 * m → (2 ^ 25 - 1) * X ≤ n := by
    intro X m n h h'; norm_num at h ⊢; omega
  constructor
  · intro h
    obtain ⟨hlt, hge⟩ := F32.significand_bounds n d
    have hle := F32.divEven_le n (d * 2 ^ F32.roundExp n d)
    have hinf : F32.infLow ≤ F32.roundExp n d * 2 ^ 23 + F32.divEven n (d * 2 ^ F32.roundExp n d) := by
      unfold F32.roundMag at h; omega
    set q := F32.roundExp n d
    have hD : 0 < d * 2 ^ q := by positivity
    have hi : F32.infLow = 255 * 2 ^ 23 := by decide
    have hq : 253 ≤ q := by omega
    have hge := hge (by omega)
    have hdm := Nat.div_mul_le_self n (d * 2 ^ q)
    rcases hq.eq_or_lt with hq | hq
    · have hdm2 := Nat.div_add_mod n (d * 2 ^ q)
      have : n / (d * 2 ^ q) = 2 ^ 24 - 1 := by omega
      have hrem : d * 2 ^ q ≤ 2 * (n % (d * 2 ^ q)) := by
        unfold F32.divEven at hinf
        split at hinf <;> omega
      rw [this] at hdm2
      rw [← hq] at hdm2 hrem
      unfold F32.overflowMag
      rw [show (2 ^ 253 : Nat) = 2 ^ 252 * 2 from pow_succ 2 252, ← mul_assoc] at hdm2 hrem
      rw [mul_assoc, Nat.mul_comm (2 ^ 252) d]
      exact aux _ _ _ hdm2 hrem
    · calc F32.overflowMag * d ≤ 2 ^ 25 * 2 ^ 252 * d := Nat.mul_le_mul_right _ (Nat.mul_le_mul_right _ (by decide))
        _ = 2 ^ 23 * (d * 2 ^ 254) := by rw [show (2 ^ 254 : Nat) = 2 ^ 252 * 4 from pow_add 2 252 2]; ring
        _ ≤ 2 ^ 23 * (d * 2 ^ q) := Nat.mul_le_mul_left _ (Nat.mul_le_mul_left _ (Nat.pow_le_pow_right (by decide) hq))
        _ ≤ n / (d * 2 ^ q) * (d * 2 ^ q) := Nat.mul_le_mul_right _ hge
        _ ≤ n := hdm
  · intro h
    refine le_antisymm (F32.roundMag_le_inf n d) ?_
    have e : F32.roundMag F32.overflowMag 1 = F32.infLow := by decide +kernel
    rw [← e]
    exact F32.roundMag_mono (by decide) hd (by simpa using h)

/-- Rounding a number that does not overflow is to the nearest magnitude. -/
theorem F32.nearestMag_roundMag {n d : Nat} (hd : 0 < d) (h : n < F32.overflowMag * d) :
    F32.NearestMag n d (F32.roundMag n d) := by
  have hne : F32.roundMag n d ≠ F32.infLow := fun e => by
    have := (F32.roundMag_eq_inf_iff hd).mp e; omega
  have := F32.nearestMag_uncut (n := n) hd
  unfold F32.roundMag at hne ⊢
  rwa [min_eq_left (by omega)]

/-! ### Correct rounding -/

theorem F32.toRat_cast (x : F32) :
    (F32.toRat x : ℝ) = (if F32.sign x then -(F32.magOf (F32.low x) : ℝ) else F32.magOf (F32.low x)) / 2 ^ 149 := by
  unfold F32.toRat F32.val
  rw [← F32.mag_eq]
  split <;> push_cast <;> rfl

theorem F32.overflowAt_eq : F32.overflowAt = (F32.overflowMag : ℝ) / 2 ^ 149 := by
  norm_num [F32.overflowAt, F32.overflowMag]

/-- The same of real numbers. -/
theorem F32.nearestMag_real {n d k : Nat} (hd : 0 < d) (h : F32.NearestMag n d k) (j : Nat) :
    |(F32.magOf k : ℝ) - n / d| < |(F32.magOf j : ℝ) - n / d| ∨
      (|(F32.magOf k : ℝ) - n / d| = |(F32.magOf j : ℝ) - n / d| ∧ (F32.magOf j = F32.magOf k ∨ k % 2 = 0)) := by
  have hdR : (0 : ℝ) < d := by exact_mod_cast hd
  have e : ∀ m : Nat, |(m : ℝ) - n / d| = |((m * d - n : Int) : ℝ)| / d := fun m => by
    rw [eq_div_iff hdR.ne', ← abs_of_pos hdR, ← abs_mul, abs_of_pos hdR, sub_mul, div_mul_cancel₀ _ hdR.ne']
    push_cast; rfl
  rw [e, e, div_lt_div_iff_of_pos_right hdR, div_left_inj' hdR.ne']
  exact_mod_cast h j

/-- With signs: a nearest magnitude under the number's own sign is nearest among all signed magnitudes. -/
theorem F32.nearest_signed {K J r : ℝ} {even : Prop} (hr : 0 ≤ r) (hJ : 0 ≤ J)
    (hz : |K - r| < |0 - r| ∨ (|K - r| = |0 - r| ∧ (0 = K ∨ even)))
    (hj : |K - r| < |J - r| ∨ (|K - r| = |J - r| ∧ (J = K ∨ even))) (b c : Bool) :
    |(if b then -K else K) - (if b then -r else r)| < |(if c then -J else J) - (if b then -r else r)| ∨
    (|(if b then -K else K) - (if b then -r else r)| = |(if c then -J else J) - (if b then -r else r)| ∧
      ((if c then -J else J) = (if b then -K else K) ∨ even)) := by
  have flip : ∀ u v : ℝ, |-u - -v| = |u - v| := fun u v => by rw [← abs_neg]; congr 1; ring
  have other : ∀ x : ℝ, |x| = J + r → |K - r| < |x| ∨ (|K - r| = |x| ∧ (J = 0 ∧ (0 = K ∨ even))) := fun x hx => by
    rw [zero_sub, abs_neg, abs_of_nonneg hr] at hz
    rw [hx]
    rcases hJ.eq_or_lt with h | h
    · rw [← h, zero_add]
      rcases hz with hz | ⟨hz, hk⟩
      · exact .inl hz
      · exact .inr ⟨hz, rfl, hk⟩
    · left
      rcases hz with hz | ⟨hz, -⟩ <;> linarith
  have fin : J = 0 ∧ (0 = K ∨ even) → -J = K ∨ even := fun ⟨h, hk⟩ => by rw [h, neg_zero]; exact hk
  cases b <;> cases c <;> simp only [Bool.false_eq_true, if_true, if_false, flip]
  · exact hj
  · exact (other _ (by rw [← abs_neg, abs_of_nonneg (by linarith)]; ring)).imp_right fun h => ⟨h.1, fin h.2⟩
  · refine (other (J - -r) (by rw [abs_of_nonneg (by linarith)]; ring)).imp_right fun h => ⟨h.1, ?_⟩
    exact (fin h.2).imp_left fun h => by rw [← h, neg_neg]
  · simpa using hj

/-- `F32.round` is correct rounding: of `± (n / d) * 2^-149`, overflow to an infinity included. -/
theorem F32.roundsTo_round (b : Bool) {n d : Nat} (hd : 0 < d) :
    F32.RoundsTo ((if b then -((n : ℝ) / d) else (n : ℝ) / d) / 2 ^ 149) (F32.round b n d) := by
  have hdR : (0 : ℝ) < d := by exact_mod_cast hd
  have hP : (0 : ℝ) < 2 ^ 149 := by positivity
  unfold F32.RoundsTo
  rw [F32.overflowAt_eq]
  rcases Nat.lt_or_ge n (F32.overflowMag * d) with h | h
  · refine .inr (.inr ⟨?_, ?_, fun y hy => ?_⟩)
    · have : (n : ℝ) / d < F32.overflowMag := by rw [div_lt_iff₀ hdR]; exact_mod_cast h
      have h0 : (0 : ℝ) ≤ (n : ℝ) / d := by positivity
      rw [abs_div, abs_of_pos hP, div_lt_div_iff_of_pos_right hP]
      cases b <;> simp [abs_of_nonneg h0, this]
    · rw [F32.isFinite_iff, F32.low_round]
      refine lt_of_le_of_ne (F32.roundMag_le_inf n d) fun e => ?_
      have := (F32.roundMag_eq_inf_iff hd).mp e
      omega
    · have hN := F32.nearestMag_roundMag hd h
      simp only [← Rat.cast_inj (α := ℝ), F32.toRat_cast, F32.low_round, F32.sign_round, ← sub_div, abs_div, abs_of_pos hP,
        div_lt_div_iff_of_pos_right hP, div_left_inj' hP.ne']
      have hz := F32.nearestMag_real hd hN 0
      have hj := F32.nearestMag_real hd hN (F32.low y)
      rw [F32.magOf_zero] at hz
      exact F32.nearest_signed (by positivity) (by positivity) (by exact_mod_cast hz) (by exact_mod_cast hj) b (F32.sign y)
  · have e := (F32.roundMag_eq_inf_iff hd).mpr h
    have : (F32.overflowMag : ℝ) ≤ (n : ℝ) / d := by rw [le_div_iff₀ hdR]; exact_mod_cast h
    cases b
    · refine .inl ⟨?_, ?_⟩
      · simpa [div_le_div_iff_of_pos_right hP] using this
      · unfold F32.round; rw [e]; decide
    · refine .inr (.inl ⟨?_, ?_⟩)
      · rw [if_pos rfl, neg_div, neg_le_neg_iff, div_le_div_iff_of_pos_right hP]; exact this
      · unfold F32.round; rw [e]; decide

end Sys2Proof
end

