-- ==== Sys2Proof/Tests/Slice0.lean ====
section
/-! SUPPORT. The author's own tests. Expected values are the words and vectors of 30_encoding.md and
95_test_vectors.md (named in each docstring) or hand computation from the rules; none is an output of this model. The
last part shows, for every obligation with hypotheses, a state or operands that meet them. -/

-- One theorem at a time: many at once take a thread, and its stack, each.
set_option Elab.async false

open Sys2Proof Sys2Proof.Machine Sys2Proof.Claims

namespace Sys2Proof.Tests

/-! ### Well-formedness -/

/-- R96, R98: the reserved field of slot 0 and the first address past the master registers. -/
theorem test_wellFormed_refuses_reserved_address :
    (Instr.pwrite 0x07#8 Lit.c1).wellFormed = false ∧ (Instr.pwrite 0x45#8 Lit.c1).wellFormed = false := by decide

/-- R99 -/
theorem test_wellFormed_refuses_slot_out_of_range : (Instr.evpush 8#8 0#16 Lit.c1).wellFormed = false := by decide

theorem test_wellFormed_accepts :
    (Instr.pwrite 0x3E#8 Lit.c1).wellFormed = true ∧ (Instr.pwrite 0x44#8 Lit.c1).wellFormed = true ∧
    (Instr.evpush 7#8 65535#16 Lit.c1).wellFormed = true ∧ Instr.frame.wellFormed = true := by decide

/-! ### Decoding: the words of V-ENC, and the tags of R101 -/

theorem test_decode_commands :
    decodeCommand 0x0000000000000000#64 = .ok .nop ∧
    decodeCommand 0x0100000000000000#64 = .ok .reset ∧
    decodeCommand 0x02000000C0A00000#64 = .ok (.setrate 0xC0A00000#32) ∧
    decodeCommand 0x033E00003F800000#64 = .ok (.pwrite 0x3E#8 0x3F800000#32) ∧
    decodeCommand 0x0400FFFF00000000#64 = .ok (.blkbegin 0xFFFF#16) ∧
    decodeCommand 0x050900003F800000#64 = .ok (.evpush 9#8 0#16 0x3F800000#32) ∧
    decodeCommand 0x0600000000000000#64 = .ok .frame ∧
    decodeCommand 0x0700000000000000#64 = .ok .rdstat := by decide

/-- V-ENC, last paragraph: unused fields are ignored. -/
theorem test_decode_ignores_unused_fields :
    decodeCommand 0x06FFFFFFFFFFFFFF#64 = .ok .frame ∧ decodeCommand 0x00DEADBEEFCAFE00#64 = .ok .nop ∧
    decodeCommand 0x07000000FFFFFFFF#64 = .ok .rdstat := by decide

/-- V-ENC: `.word 0x80...`, and the first reserved opcode. -/
theorem test_decode_reserved_opcode :
    decodeCommand 0x8000000000000000#64 = .error (.reservedOpcode 0x80#8) ∧
    decodeCommand 0x0800000000000000#64 = .error (.reservedOpcode 0x08#8) := by decide

theorem test_decode_kinds :
    decodeKind 0b000#3 = .kick ∧ decodeKind 0b001#3 = .snare ∧ decodeKind 0b010#3 = .clap ∧
    decodeKind 0b011#3 = .hatclosed ∧ decodeKind 0b100#3 = .hatopen ∧ decodeKind 0b101#3 = .tom ∧
    decodeKind 0b110#3 = .perc1 ∧ decodeKind 0b111#3 = .perc2 := by decide

/-- R63: `ev 1, 1.0, @2` with the least significant byte first; seven bytes are no command. -/
theorem test_decode_bytes :
    decodeBytes [0x00, 0x00, 0x80, 0x3F, 0x02, 0x00, 0x01, 0x05, 0xAA] = .ok (.evpush 1#8 2#16 0x3F800000#32, [0xAA]) ∧
    decodeBytes [0, 0, 0, 0, 0, 0, 0] = .error (.shortWord 7) := by decide

/-- R63 on the status word of R102's example, and on the frame record of the samples 1.0 and -0.5 (R103). -/
theorem test_output_bytes :
    (Output.respond 0x00030100#32).bytes = [0x00, 0x01, 0x03, 0x00] ∧
    (Output.emit (frameRecord 0x3F800000#32 0xBF000000#32)).bytes =
      [0x00, 0x00, 0x00, 0xBF, 0x00, 0x00, 0x80, 0x3F] := by decide

/-- Words numbered as spec/opcode_table.json numbers them: 64 bits for a command, a byte for a kind tag. -/
theorem test_decode_table_words :
    decodeTableWord 64 0x050100023F800000 = some (.evpush 1#8 2#16 0x3F800000#32) ∧
    decodeTableWord 8 6 = some .perc1 ∧ decodeTableWord 8 8 = none ∧ decodeTableWord 64 0x0800000000000000 = none := by
  decide

/-! ### Arithmetic (R9): hand computed from IEEE 754 binary32 -/

/-- What `2^128` is correctly rounded to (R9, R10 P-ACC): the infinity, not the greatest finite value. -/
theorem test_correctly_rounded_overflow :
    F32.RoundsTo (2 ^ 128) F32.posInf ∧ ¬ F32.RoundsTo (2 ^ 128) 0x7F7FFFFF#32 := by
  constructor
  · exact .inl ⟨by norm_num [F32.overflowAt], rfl⟩
  · rintro (⟨-, h⟩ | ⟨-, h⟩ | ⟨h, -⟩)
    · exact absurd h (by decide)
    · exact absurd h (by decide)
    · norm_num [F32.overflowAt, abs_lt] at h

/-- Ties to even: `1 + 2^-24` is 1, `(1 + 2^-23) + 2^-24` is `1 + 2^-22`; an exact zero sum is positive. -/
theorem test_add :
    F32.add 0x3F800000#32 0x33800000#32 = 0x3F800000#32 ∧ F32.add 0x3F800001#32 0x33800000#32 = 0x3F800002#32 ∧
    F32.add 0x3F800000#32 0xBF800000#32 = 0x00000000#32 ∧ F32.add 0x80000000#32 0x80000000#32 = 0x80000000#32 ∧
    F32.add 0x7F800000#32 0xFF800000#32 = F32.qNaN := by decide +kernel

/-- Subnormals are kept, half the smallest one ties to zero, overflow gives an infinity. -/
theorem test_mul :
    F32.mul 0x00800000#32 0x3F000000#32 = 0x00400000#32 ∧ F32.mul 0x00000001#32 0x3F000000#32 = 0x00000000#32 ∧
    F32.mul 0x00000003#32 0x3F000000#32 = 0x00000002#32 ∧ F32.mul 0x7F7FFFFF#32 0xC0000000#32 = 0xFF800000#32 ∧
    F32.mul 0x7F800000#32 0x00000000#32 = F32.qNaN := by decide +kernel

/-- `1/3` is `0x3EAAAAAB` (R192's example at drive 1); `-1/0` is an infinity. -/
theorem test_div :
    F32.div 0x3F800000#32 0x40400000#32 = 0x3EAAAAAB#32 ∧ F32.div 0xBF800000#32 0x00000000#32 = 0xFF800000#32 ∧
    F32.div 0x3F800000#32 0xFF800000#32 = 0x80000000#32 := by decide +kernel

/-- P-FLOOR: 2.5 to 2, -0.5 to -1, an infinity to itself. -/
theorem test_floor :
    F32.floor 0x40200000#32 = 0x40000000#32 ∧ F32.floor 0xBF000000#32 = 0xBF800000#32 ∧
    F32.floor F32.negInf = F32.negInf := by decide +kernel

/-! ### Primitives -/

/-- V-CLAMP -/
theorem test_clamp :
    clamp 0x80000000#32 Lit.c0 Lit.c1 = 0x00000000#32 ∧ clamp F32.qNaN Lit.c5 Lit.c60000 = Lit.c5 ∧
    clamp F32.posInf Lit.c0 Lit.c2 = Lit.c2 ∧ clamp F32.negInf Lit.n1 Lit.c1 = Lit.n1 ∧
    clamp 0x43960000#32 Lit.c200 Lit.c0_45 = Lit.c0_45 := by decide +kernel

/-- V-LCG -/
theorem test_lcg :
    lcg 0#32 = 0x3C6EF35F#32 ∧ lcg 0x3C6EF35F#32 = 0x47502932#32 ∧ lcg 1#32 = 0x3C88596C#32 ∧
    lcg 0xFFFFFFFF#32 = 0x3C558D52#32 := by decide

/-- V-NOISE: bipolar values of advanced states, and 0.7 times two of them. -/
theorem test_bipolar :
    bipolarOf 0x000001FF#32 = 0xBF800000#32 ∧ bipolarOf 0x00000200#32 = 0xBF7FFFFC#32 ∧
    bipolarOf 0x7FFFFFFF#32 = 0xB4800000#32 ∧ bipolarOf 0x80000000#32 = 0x00000000#32 ∧
    F32.mul Lit.c0_7 (bipolarOf 0xCD305E6A#32) = 0x3ED82107#32 ∧
    F32.mul Lit.c0_7 (bipolarOf 0xFFFFFFFF#32) = 0x3F333330#32 := by decide +kernel

/-- V-WRAP -/
theorem test_wrap :
    wrap 0x40C90FDB#32 = 0x00000000#32 ∧ wrap 0x40D00000#32 = 0x3E5E04A0#32 ∧ wrap 0x414B3333#32 = 0x3E08D600#32 ∧
    wrap 0x42C80000#32 = 0x40B81230#32 ∧ wrap Lit.n1 = 0x00000000#32 ∧ wrap F32.posInf = 0x00000000#32 := by
  decide +kernel

/-- V-SOFTSAT -/
theorem test_softsat :
    softsat 0x3F000000#32 = 0x3EEE7EE8#32 ∧ softsat 0x4039999A#32 = 0x3F7FFF5B#32 ∧
    softsat 0x403FFFFF#32 = 0x3F800000#32 ∧ softsat 0xBF800000#32 = 0xBF471C72#32 ∧
    softsat F32.negInf = 0xBF800000#32 ∧ softsat F32.qNaN = 0x00000000#32 := by decide +kernel

/-- V-FLUSH -/
theorem test_flush :
    flush 0x1E3CE508#32 = 0x1E3CE508#32 ∧ flush 0x9E3CE507#32 = 0x00000000#32 ∧ flush 0x80000000#32 = 0x00000000#32 := by
  decide

/-! ### A small reference `Num`

The correctly rounded functions at the operands the vectors below meet, computed outside the model; elsewhere `+0.0`. -/

def lookup : List (F32 × F32) → F32 → F32
  | [], _ => Lit.c0
  | (a, y) :: rest, x => if a = x then y else lookup rest x

def ref : Numerics where
  sin := lookup [(0x3CC5F7AA#32, 0x3CC5F2BB#32), (0x3CD216D6#32, 0x3CD210F1#32), (0x3CA36719#32, 0x3CA36453#32),
    (0x3DCC40DF#32, 0x3DCBEA3B#32), (0x3E1930A7#32, 0x3E189E8A#32), (0x3F490FDB#32, 0x3F3504F3#32)]
  cos := lookup [(0x3F490FDB#32, 0x3F3504F3#32), (0x00000000#32, 0x3F800000#32)]
  exp := lookup [(0xB89E83CF#32, 0x3F7FFB0C#32), (0xBF5AD7CA#32, 0x3ED9C6CB#32), (0xBF365E7E#32, 0x3EFB1FA5#32),
    (0xBE4C40DF#32, 0x3F51B4FD#32), (0xBFA421D7#32, 0x3E8E07D0#32), (0xBF88C6DE#32, 0x3EAFDF32#32),
    (0xBEDAD7CA#32, 0x3F26F592#32), (0xBF489B23#32, 0x3EE9DB40#32), (0xBF2421D7#32, 0x3F06D538#32)]
  log10 := lookup [(0x3F000000#32, 0xBE9A209B#32)]
  pow b e :=
    if b = Lit.c2 then lookup [(0x00000000#32, 0x3F800000#32), (0x3FCFF7F4#32, 0x40455E90#32)] e
    else if b = Lit.c1 then Lit.c1
    else if b = Lit.c10 then lookup [(0xBE37AFEA#32, 0x3F2960DD#32)] e
    else lookup [(0x3E99999A#32, 0x3F7FFE84#32), (0x3FE00000#32, 0x3F7FF755#32), (0x3FCCCCCD#32, 0x3F7FF813#32),
      (0x3F333333#32, 0x3F7FFC88#32), (0x3F666666#32, 0x3F7FFB8B#32)] e
  ulpErr := 0

/-- The reference parameters of 95_test_vectors.md. -/
def refParams : Params where
  num := ref
  seed := Vector.ofFn fun i => BitVec.ofNat 32 (0x12345678 + i.val)
  tapMs := ⟨0x42140000#32, 0x42E20000#32, 0x42540000#32, 0x43170000#32⟩

/-- V-KICK, V-KINDS: tone and snap 0.5, decay 300 ms, level 1, the rest 0. -/
def kindParams : SlotParams := { SlotParams.reset with level := Lit.c1, tone := Lit.c0_5, snap := Lit.c0_5, decayMs := 0x43960000#32 }

/-- The voice of V-KINDS after TRIG, its envelope multiplied once. -/
def struck (i : Slot) : Voice :=
  { Voice.reset refParams i with
    active := true, envelope := 0x3F7FFB0C#32, decayCoef := 0x3F7FFB0C#32, velocity := Lit.c1
    prngState := lcg (BitVec.ofNat 32 (0x12345678 + i.val)) }

/-- The reset state with the parameters of V-KINDS in every slot and every voice struck. -/
def kindState : State :=
  { State.resetWith refParams with
    voices := Vector.ofFn struck
    slots := Vector.replicate 8 kindParams
    master := { MasterParams.reset with velocityCurve := Lit.c0_5 } }

/-! ### TRIG and VPROC -/

/-- V-TRIG-KICK -/
theorem test_trig : trig ref Lit.c44100 kindState.master kindParams 0 Lit.c1 (Voice.reset refParams 0) =
    { active := true, envelope := Lit.c1, decayCoef := 0x3F7FFB0C#32, velocity := Lit.c1, prngState := 0x75432777#32
      noiseLowpass := Lit.c0, oscPhase := Lit.c0, baseFreq := Lit.c55, humanAmp := Lit.c1, humanPitch := Lit.c0
      humanDecayMul := Lit.c1 } := by decide +kernel

/-- V-TRIG-HUM: the draws and what humanize 0.5 makes of them; `prng_state` advances four times. -/
theorem test_trig_humanize : trigHumanize Lit.c0_5 { Voice.reset refParams 1 with prngState := 0x12345679#32 } =
    { Voice.reset refParams 1 with
      prngState := 0x54D67CBD#32, humanAmp := 0x3F8787DB#32, humanPitch := 0x3F7F6F0C#32
      humanDecayMul := 0x3F6A6B3E#32 } := by decide +kernel

/-- V-KICK, call 1: the output, the filter, the phase and the PRNG. -/
theorem test_vproc_kick :
    let r := vproc ref Lit.c44100 kindParams .kick { struck 0 with envelope := Lit.c1 }
    r.2 = 0x3DB84F26#32 ∧ r.1.noiseLowpass = 0x3E786639#32 ∧ r.1.oscPhase = 0x3CC5F7AA#32 ∧
    r.1.prngState = 0xCD305E6A#32 := by decide +kernel

/-- E3: the terminal call at `0x38D1B717 * 0x3F7ED775` draws no noise and clears the envelope. -/
theorem test_vproc_terminal :
    vproc ref Lit.c44100 kindParams .kick { struck 0 with envelope := 0x38D1B717#32, decayCoef := 0x3F7ED775#32 } =
    ({ struck 0 with envelope := Lit.c0, active := false, decayCoef := 0x3F7ED775#32 }, Lit.c0) := by decide +kernel

/-! ### The renderers as steps: V-KICK and V-KINDS, call 1 (the raw sample and the advanced PRNG) -/

theorem test_kick : (kickStep refParams kindState).out = [.rendered 0x3DB8C476#32] ∧
    ((kickStep refParams kindState).voices[0]).prngState = 0xCD305E6A#32 := by decide +kernel
theorem test_snare : (snareStep refParams kindState).out = [.rendered 0x3E8C8557#32] ∧
    ((snareStep refParams kindState).voices[1]).noiseLowpass = 0x3E8F401B#32 := by decide +kernel
theorem test_clap : (clapStep refParams kindState).out = [.rendered 0x3F385018#32] ∧
    ((clapStep refParams kindState).voices[2]).oscPhase = Lit.c0 := by decide +kernel
theorem test_hatclosed : (hatClosedStep refParams kindState).out = [.rendered 0xBE2989DA#32] ∧
    ((hatClosedStep refParams kindState).voices[3]).prngState = 0x12D97465#32 := by decide +kernel
theorem test_hatopen : (hatOpenStep refParams kindState).out = [.rendered 0xBE2D8A17#32] ∧
    ((hatOpenStep refParams kindState).voices[4]).prngState = 0x2A11D10E#32 := by decide +kernel
theorem test_tom : (tomStep refParams kindState).out = [.rendered 0xBD49500F#32] ∧
    ((tomStep refParams kindState).voices[5]).oscPhase = 0x3CA36719#32 := by decide +kernel
theorem test_perc1 : (perc1Step refParams kindState).out = [.rendered 0xBD7142A1#32] ∧
    ((perc1Step refParams kindState).voices[6]).oscPhase = 0x3DCC40DF#32 := by decide +kernel
theorem test_perc2 : (perc2Step refParams kindState).out = [.rendered 0x3D872575#32] ∧
    ((perc2Step refParams kindState).voices[7]).oscPhase = 0x3E1930A7#32 := by decide +kernel

/-! ### The commands -/

/-- Some part of the next state; `none` where there is none. -/
def part {α : Type} (o : Host.Outcome State Fault Refusal) (f : State → α) : Option α :=
  match o with
  | .next t => some (f t)
  | .fault _ => none
  | .refused _ => none

/-- A state in which much differs from reset. -/
def busyState : State :=
  { kindState with
    sr := Lit.c1, sched := { frameIdx := 2, blockLen := 2 }, queue := [{ slot := 2, velocity := Lit.c1, offset := 5 }]
    sticky := { Sticky.reset with pdrop := true, seq := true, badcmd := true, evslot := true } }

theorem test_nop : exec .nop busyState = .next busyState := rfl

theorem test_reset : part (exec .reset busyState) (fun t => (t.sr, t.sched, t.queue, t.sticky)) =
    some (Lit.c44100, { frameIdx := 0, blockLen := 0 }, [], Sticky.reset) := by decide +kernel

/-- V-SETRATE, V-REVGEOM at 48000 -/
theorem test_setrate :
    (setRate refParams 0x473B8000#32 kindState).rev = ⟨⟨12000, by decide⟩, ⟨1776, 5424, 2544, 7248⟩, 0, [], []⟩ ∧
    (setRate refParams 0x473B8000#32 kindState).sticky = Sticky.reset ∧
    (setRate refParams 0x473B8000#32 kindState).voices[0] =
      { struck 0 with active := false, envelope := Lit.c0 } := by decide +kernel

/-- V-SETRATE: 200000 and -5 are conditioned and flagged; V-REVGEOM at 1.0. -/
theorem test_setrate_conditioned :
    (setRate refParams 0x48435000#32 kindState).sr = Lit.c192000 ∧
    (setRate refParams 0xC0A00000#32 kindState).sr = Lit.c1 ∧
    (setRate refParams 0xC0A00000#32 kindState).sticky.ratefix = true ∧
    (setRate refParams 0xC0A00000#32 kindState).rev.len.val = 2 ∧
    (setRate refParams 0xC0A00000#32 kindState).rev.tap = ⟨1, 1, 1, 1⟩ := by decide +kernel

/-- `pwrite s7.humanize, 1.0` -/
theorem test_pwrite : part (exec (.pwrite 0x3E#8 Lit.c1) busyState) (fun t => (t.slots[7], t.sticky)) =
    some ({ kindParams with humanize := Lit.c1 }, busyState.sticky) := by decide +kernel

/-- V-ENC's reserved address, and a NaN. -/
theorem test_pwrite_drops :
    part (exec (.pwrite 0x07#8 Lit.c1) kindState) (fun t => (t.slots, t.sticky.pdrop)) = some (kindState.slots, true) ∧
    part (exec (.pwrite 0x00#8 F32.qNaN) kindState) (fun t => (t.slots, t.sticky.pdrop)) = some (kindState.slots, true) := by
  decide +kernel

theorem test_blkbegin : part (exec (.blkbegin 4#16) busyState) (fun t => (t.sched, t.queue, t.sticky.evlate)) =
    some (⟨0, 4⟩, [], true) := by decide +kernel

theorem test_evpush : part (exec (.evpush 1#8 2#16 Lit.c1) busyState) (fun t => t.queue) =
    some [{ slot := 2, velocity := Lit.c1, offset := 5 }, { slot := 1, velocity := Lit.c1, offset := 2 }] := by
  decide +kernel

theorem test_evpush_bad_slot : part (exec (.evpush 9#8 0#16 Lit.c1) kindState) (fun t => (t.queue, t.sticky)) =
    some ([], { Sticky.reset with evslot := true }) := by decide +kernel

/-- V-STATUS: the word of P4. -/
theorem test_rdstat :
    part (exec .rdstat { busyState with voices := Vector.ofFn (Voice.reset refParams) }) (fun t => t.out) =
    some [.respond 0x000200BA#32] := by decide +kernel

/-- P1, first FRAME: the event fires, the Kick renders, the dry mix is emitted. -/
theorem test_frame :
    (fun t => (t.out, t.sched.frameIdx, t.queue, (t.voices[0]).prngState)) (frameWith refParams { State.resetWith refParams with
        slots := (Vector.replicate 8 SlotParams.reset).set 0 kindParams
        master := { MasterParams.reset with velocityCurve := Lit.c0_5 }
        sched := { frameIdx := 0, blockLen := 4 }
        queue := [{ slot := 0, velocity := Lit.c1, offset := 0 }] }) =
    ([.emit 0x3D8253863D825386#64], 1, [], 0xCD305E6A#32) := by decide +kernel

/-- P2, the fourth FRAME: beyond the block. -/
theorem test_frame_outside_block :
    part (exec .frame busyState) (fun t => (t.out, t.voices, t.sticky.seq)) = some ([], busyState.voices, true) := by
  decide +kernel

/-! ### The master bus -/

/-- V-SAT: drive 0.0005 bypasses, 0.001 does not. -/
theorem test_sat :
    sat { MasterParams.reset with drive := 0x3A03126F#32 } Lit.c0_5 0xC0000000#32 = (Lit.c0_5, 0xC0000000#32) ∧
    sat { MasterParams.reset with drive := 0x3A83126F#32 } Lit.c0_5 0xC0000000#32 = (0x3EEED792#32, 0xBF7B8C5A#32) ∧
    sat { MasterParams.reset with drive := Lit.c1 } Lit.c0_5 0xC0000000#32 = (0x3EAA6911#32, 0xBEAAAAAB#32) := by
  decide +kernel

/-- V-COMP, run B -/
theorem test_comp :
    compStep ref { MasterParams.reset with comp := Lit.c0_5 } ⟨Lit.c0_5, Lit.c1, 0x3F7ED775#32, 0x3F7FED6D#32⟩
      Lit.c0_5 Lit.c0_5 =
    (⟨0x3F000000#32, 0x3F54B06E#32, 0x3F7ED775#32, 0x3F7FED6D#32⟩, 0x3ED4B06E#32, 0x3ED4B06E#32) := by decide +kernel

/-- V-REV, frame 0 -/
theorem test_rev :
    revStep { MasterParams.reset with reverb := Lit.c1 }
      ⟨⟨11025, by decide⟩, ⟨1631, 4983, 2337, 6659⟩, 0, [], []⟩ Lit.c1 Lit.c0_5 =
    (⟨⟨11025, by decide⟩, ⟨1631, 4983, 2337, 6659⟩, 1, [(0, 0x3F400000#32)], [(0, 0x3F400000#32)]⟩,
      0x3ECCCCCC#32, 0x3E4CCCCC#32) := by decide +kernel

/-- V-REV, frame 1631: the word written 1631 frames earlier comes back at 0.7. -/
theorem test_rev_tap :
    (revStep { MasterParams.reset with reverb := Lit.c1 }
      ⟨⟨11025, by decide⟩, ⟨1631, 4983, 2337, 6659⟩, 1631, [(0, 0x3F400000#32)], [(0, 0x3F400000#32)]⟩ Lit.c0 Lit.c0).2.1 =
      0x3F066666#32 := by decide +kernel

/-! ### Witnesses: the hypotheses of the obligations can be met

`blockState` is the reset state inside a block of four frames with a FRAME word presented; `wetState` has the reverb
engaged besides. -/

def blockState : State :=
  { State.reset with sched := { frameIdx := 0, blockLen := 4 }, port := [.command 0x0600000000000000#64] }

def wetState : State := { blockState with master := { blockState.master with reverb := Lit.c1 } }

theorem reset_voice_inRange (i : Slot) : (Voice.reset Config.params i).InRange := by
  constructor <;> (fin_cases i <;> decide)

theorem reset_params_finite (s : State) (hs : s.slots = State.reset.slots) (hm : s.master = State.reset.master) :
    s.ParamsOk := by
  rintro (⟨i, f⟩ | f)
  · simp only [State.readParam, hs]
    fin_cases i <;> cases f <;> rfl
  · simp only [State.readParam, hm]
    cases f <;> rfl

theorem blockState_structured : blockState.Structured where
  sched := by decide
  queue := by decide
  rate := by show F32.Within Config.srMin Config.srMax Config.srReset; decide
  params := reset_params_finite _ rfl rfl
  derived := ⟨rfl, rfl, rfl, rfl⟩
  lines := by
    refine ⟨?_, ⟨rfl, ?_⟩, ⟨rfl, ?_⟩⟩
    · show 0 < (revLen Config.srReset).val
      exact Nat.lt_of_lt_of_le (by decide) (revLen Config.srReset).property.1
    · intro c hc; cases hc
    · intro c hc; cases hc

theorem blockState_sound : blockState.Sound where
  structured := blockState_structured
  inRange :=
    { voices := fun i => by
        have h : blockState.voices[i] = Voice.reset Config.params i := by fin_cases i <;> rfl
        rw [h]
        exact reset_voice_inRange i
      comp := ⟨by show F32.Within Lit.c0 Lit.c16 Lit.c0; decide, by show F32.Within Lit.c0 Lit.c1 Lit.c1; decide⟩
      rvl := fun c hc => by cases hc
      rvr := fun c hc => by cases hc }

theorem wetState_structured : wetState.Structured where
  sched := blockState_structured.sched
  queue := blockState_structured.queue
  rate := blockState_structured.rate
  params := by
    rintro (⟨i, f⟩ | f)
    · exact blockState_structured.params (.slot i f)
    · cases f <;> rfl
  derived := blockState_structured.derived
  lines := blockState_structured.lines

/-- For the statements over the words of the opcodes; the last two words differ in every field FRAME ignores. -/
theorem witness_UnusedFieldsIgnored :
    [0x00, 0x01, 0x02, 0x03, 0x04, 0x05, 0x06, 0x07].map (fun op : U8 => cmdOp (commandWord op 0xFF 0xFFFF 0xFFFFFFFF)) =
      [0x00#8, 0x01#8, 0x02#8, 0x03#8, 0x04#8, 0x05#8, 0x06#8, 0x07#8] ∧
    cmdOp 0x06FFFFFFFFFFFFFF#64 = cmdOp 0x0600000000000000#64 ∧
    cmdOp 0x06FFFFFFFFFFFFFF#64 ∉ [0x03#8, 0x05#8] ∧ cmdOp 0x06FFFFFFFFFFFFFF#64 ∉ [0x04#8, 0x05#8] ∧
    cmdOp 0x06FFFFFFFFFFFFFF#64 ∉ [0x02#8, 0x03#8, 0x05#8] := by decide

theorem witness_ParamAddressMap :
    [0x06, 0x07, 0x3E, 0x3F, 0x40, 0x44, 0x45, 0xFF].map (fun a : U8 => (paramReg a).isSome) =
      [true, false, true, false, true, true, false, false] := by decide

theorem witness_StepRunsDecodedInstruction :
    blockState.port = [.command 0x0600000000000000#64] ∧ decode (.command 0x0600000000000000#64) = .ok .frame ∧
    State.reset.port = [] := by decide

theorem witness_ReservedOpcodeSetsBadcmdOnly :
    ({ State.reset with port := [.command 0x08FFFFFFFFFFFFFF#64] } : State).port =
      [.command 0x08FFFFFFFFFFFFFF#64] ∧ 0x08 ≤ ((0x08FFFFFFFFFFFFFF#64).extractLsb' 56 8).toNat := ⟨rfl, by decide⟩

/-- The bounds themselves, a NaN, and the nearest words outside. -/
theorem witness_SetrateConditionsEveryOperand :
    F32.Within Lit.c1 Lit.c192000 Lit.c1 ∧ F32.Within Lit.c1 Lit.c192000 Lit.c192000 ∧ F32.isNaN F32.qNaN = true ∧
    F32.lt 0x3F7FFFFF#32 Lit.c1 = true ∧ F32.lt Lit.c192000 0x483B8001#32 = true ∧
    ¬F32.Within Lit.c1 Lit.c192000 0x483B8001#32 := by decide

theorem witness_PwriteStoresOrDrops :
    paramReg 0x44#8 = some (.master .velocityCurve) ∧ F32.isFinite 0x7F7FFFFF#32 = true ∧ paramReg 0x45#8 = none ∧
    F32.isFinite F32.posInf = false := by decide

theorem witness_EvpushQueuesOrDrops :
    7 < (8#8).toNat ∧ (7#8).toNat ≤ 7 ∧
    64 ≤ ({ State.reset with queue := List.replicate 64 ⟨0, Lit.c1, 0⟩ } : State).queue.length ∧
    ({ State.reset with queue := List.replicate 63 ⟨0, Lit.c1, 0⟩ } : State).queue.length < 64 := by
  refine ⟨by decide, by decide, ?_, ?_⟩ <;> simp

theorem witness_FrameOutsideBlockSetsSeqOnly :
    State.reset.sched.blockLen.toNat ≤ State.reset.sched.frameIdx.toNat := by decide

/-- For FrameRendersOneFrame, FrameRendersEachVoice, FrameEmitsTheMasteredMix and FrameWritesOneWordPerLine. -/
theorem witness_FrameInBlock :
    blockState.Structured ∧ inBlock blockState ∧ stageOff blockState.master.reverb ∧
    wetState.Structured ∧ inBlock wetState ∧ ¬stageOff wetState.master.reverb :=
  ⟨blockState_structured, by decide, by decide, wetState_structured, by decide, by decide⟩

theorem witness_SilentBankEmitsZeros :
    (∀ i : Slot, (blockState.voices[i]).active = false) ∧ releasedEvents blockState = [] ∧
    stageOff blockState.master.drive ∧ stageOff blockState.master.comp ∧ stageOff blockState.master.reverb :=
  ⟨fun i => by fin_cases i <;> rfl, rfl, by decide, by decide, by decide⟩

/-- The second state differs in another voice and in the flags. -/
theorem witness_VoicesDoNotInterfere : ∃ s' t t' : State,
    s'.voices[(0 : Slot)] = blockState.voices[(0 : Slot)] ∧ s'.voices[(1 : Slot)] ≠ blockState.voices[(1 : Slot)] ∧
    s'.slots = blockState.slots ∧ s'.master = blockState.master ∧ s'.sr = blockState.sr ∧
    s'.sched = blockState.sched ∧ s'.queue = blockState.queue ∧
    exec .frame blockState = .next t ∧ exec .frame s' = .next t' ∧ inBlock blockState := by
  refine ⟨{ blockState with voices := blockState.voices.set 1 (struck 1), sticky := busyState.sticky }, _, _, rfl, ?_,
    rfl, rfl, rfl, rfl, rfl, rfl, rfl, by decide⟩
  intro h
  exact absurd (congrArg Voice.active h) (by decide)

theorem witness_RendererResultsBounded : blockState.RateOk ∧ ∀ i : Slot, (blockState.voices[i]).InRange :=
  ⟨blockState_structured.rate, blockState_sound.inRange.voices⟩

/-- Two voices that differ and hold the same PRNG state. -/
theorem witness_TrigWritesEveryField :
    ({ Voice.reset refParams 0 with prngState := (struck 0).prngState } : Voice).prngState = (struck 0).prngState ∧
    (Voice.reset refParams 0).envelope ≠ (struck 0).envelope := by decide

/-- Finite operands with a divisor that is no zero: the greatest value, and 1.0 with its negative, whose sum is zero. -/
theorem witness_ArithmeticRoundsOnce :
    F32.isFinite 0x7F7FFFFF#32 = true ∧ F32.isFinite Lit.c1 = true ∧ F32.isFinite Lit.n1 = true ∧
    F32.isZero Lit.n1 = false ∧ F32.toRat Lit.c1 + F32.toRat Lit.n1 = 0 := by
  refine ⟨by decide, by decide, by decide, by decide, ?_⟩
  rw [F32.toRat, F32.toRat, show F32.val Lit.c1 = 2 ^ 149 by decide +kernel, show F32.val Lit.n1 = -2 ^ 149 by decide +kernel]
  norm_num

/-- An inactive voice, one that ends, and one whose envelope falls to 1.0e-4 exactly, which does not end. -/
theorem witness_VprocOneSample :
    (Voice.reset refParams 0).active = false ∧ (struck 0).active = true ∧
    F32.lt (F32.mul 0x38D1B717#32 0x3F7ED775#32) Lit.c1_0em4 = true ∧
    F32.lt (F32.mul Lit.c1_0em4 Lit.c1) Lit.c1_0em4 = false := by decide +kernel

theorem witness_EnvelopeNeverIncreases :
    F32.Within Lit.c0 Lit.c1 (struck 0).envelope ∧ F32.Within Lit.c0 Lit.c1 (struck 0).decayCoef := by decide

theorem witness_EveryHitEnds : (struck 0).active = true ∧ (struck 0).InRange :=
  ⟨rfl, by constructor <;> decide +kernel⟩

/-- A NaN, bounds in order, an operand at each bound, bounds crossed. -/
theorem witness_ClampOnEveryWord :
    F32.isNaN F32.qNaN = true ∧ F32.le Lit.c0 Lit.c1 = true ∧ F32.Within Lit.c0 Lit.c1 Lit.c0 ∧
    F32.Within Lit.c0 Lit.c1 Lit.c1 ∧ F32.lt Lit.c0_45 Lit.c200 = true ∧ F32.isFinite Lit.c0_45 = true ∧
    F32.lt Lit.c0 Lit.c1 = true := by decide

/-- Both ends of each range: 3 and the word below it, the flush threshold and the word below it. -/
theorem witness_SoftsatAndFlush :
    F32.isNaN F32.negInf = false ∧ F32.isZero F32.negZero = true ∧ F32.le Lit.c3 Lit.c3 = true ∧
    F32.le Lit.n3 Lit.n3 = true ∧ F32.isNaN F32.qNaN = true ∧
    F32.lt Lit.n3 0x403FFFFF#32 = true ∧ F32.lt 0x403FFFFF#32 Lit.c3 = true ∧
    F32.lt (F32.abs 0x9E3CE507#32) 0x1E3CE508#32 = true ∧ F32.lt (F32.abs 0x9E3CE508#32) 0x1E3CE508#32 = false := by decide

theorem witness_PanLaw :
    Numerics.flat.Admissible ∧ F32.isZero F32.negZero = true ∧ F32.le Lit.n1 Lit.n1 = true :=
  ⟨Numerics.flat_admissible, by decide, by decide⟩

/-- For the stages of the master bus: the amount just below the epsilon, and the epsilon. -/
theorem witness_StageOff : stageOff 0x3A83126E#32 ∧ ¬stageOff 0x3A83126F#32 := by decide

theorem witness_CompressorNeverIncreases :
    F32.Within Lit.c0 Lit.c1 State.reset.comp.gain ∧ F32.isFinite 0xFF7FFFFF#32 = true := by decide

/-- Two steps in a line of full depth at its last index: `d` is 2, and in the shortest line 1 is the only delay. -/
theorem witness_TapReadsTheWordWrittenDFramesAgo :
    ∃ (rv : Reverb) (x : MasterParams × F32 × F32) (d : LineIndex),
      (∀ y ∈ [x, x], ¬stageOff y.1.reverb) ∧ DelayLine.wf rv.rvl = true ∧ DelayLine.wf rv.rvr = true ∧
      rv.w.val < rv.len.val ∧ d.val = [x].length + 1 ∧ d.val ≤ rv.len.val - 1 ∧
      ([] : List (MasterParams × F32 × F32)).length < (1 : LineIndex).val ∧
      (1 : LineIndex).val ≤ (revLen Lit.c1).val - 1 :=
  ⟨⟨⟨48000, by decide⟩, ⟨1, 1, 1, 1⟩, 47999, [], []⟩, (wetState.master, Lit.c1, Lit.c1), 2,
    by decide, by decide, by decide, by decide, by decide, by decide, by decide, by decide +kernel⟩

/-- For StructureKeptByEveryStep, RangesKeptByEveryStep and OutputsBounded: the step is a FRAME. -/
theorem witness_SoundStep : blockState.Sound ∧ ∃ t, step blockState = .next t := by
  exact ⟨blockState_sound, _, rfl⟩

theorem witness_StickyFlagsPersist : ∃ t, exec (.blkbegin 4#16) busyState = .next t ∧ Instr.blkbegin 4#16 ≠ .reset ∧
    stickyBit busyState.sticky .badcmd = true := ⟨_, rfl, by decide, by decide⟩

theorem witness_StickyFlagsAreUnread : ∃ t, exec .frame blockState = .next t ∧ Instr.frame ≠ .rdstat :=
  ⟨_, rfl, by decide⟩

/-- For every clause of RegisterWriters: NOP is none of the writers. -/
theorem witness_RegisterWriters : exec .nop blockState = .next blockState ∧ (∀ a d, Instr.nop ≠ .pwrite a d) ∧
    (∀ d, Instr.nop ≠ .setrate d) ∧ (∀ n, Instr.nop ≠ .blkbegin n) ∧ Instr.nop ≠ .reset ∧ Instr.nop ≠ .frame := by
  refine ⟨rfl, ?_, ?_, ?_, by decide, by decide⟩ <;> intros <;> exact Instr.noConfusion

end Sys2Proof.Tests
end

section
/-! PROOFS. The encoding (30_encoding.md R91, R96): what the decoder reads from the word of each defined opcode, that it
reads no other field, and the parameter address map. -/

namespace Sys2Proof

/-! ### The decoder, one equation an opcode (R91, R92) -/

section

variable {w w' : U64}

theorem decodeCommand_nop (h : cmdOp w = 0x00#8) : decodeCommand w = .ok .nop := by
  simp [decodeCommand, h]

theorem decodeCommand_reset (h : cmdOp w = 0x01#8) : decodeCommand w = .ok .reset := by
  simp [decodeCommand, h]

theorem decodeCommand_setrate (h : cmdOp w = 0x02#8) : decodeCommand w = .ok (.setrate (cmdD w)) := by
  simp [decodeCommand, h]

theorem decodeCommand_pwrite (h : cmdOp w = 0x03#8) : decodeCommand w = .ok (.pwrite (cmdA w) (cmdD w)) := by
  simp [decodeCommand, h]

theorem decodeCommand_blkbegin (h : cmdOp w = 0x04#8) : decodeCommand w = .ok (.blkbegin (cmdN w)) := by
  simp [decodeCommand, h]

theorem decodeCommand_evpush (h : cmdOp w = 0x05#8) :
    decodeCommand w = .ok (.evpush (cmdA w) (cmdN w) (cmdD w)) := by
  simp [decodeCommand, h]

theorem decodeCommand_frame (h : cmdOp w = 0x06#8) : decodeCommand w = .ok .frame := by
  simp [decodeCommand, h]

theorem decodeCommand_rdstat (h : cmdOp w = 0x07#8) : decodeCommand w = .ok .rdstat := by
  simp [decodeCommand, h]

/-- An opcode is one of the eight defined ones or reserved (R92, R97). -/
theorem opcode_defined_or_reserved (op : U8) :
    op = 0x00#8 ∨ op = 0x01#8 ∨ op = 0x02#8 ∨ op = 0x03#8 ∨ op = 0x04#8 ∨ op = 0x05#8 ∨ op = 0x06#8 ∨ op = 0x07#8 ∨
      8 ≤ op.toNat := by
  bv_omega

/-- The decoder looks at no field that the opcode does not use (R91): the split is on the opcode, and in each case the two
words decode by the same equation. -/
theorem decodeCommand_congr (hop : cmdOp w = cmdOp w')
    (ha : cmdOp w ∈ [0x03#8, 0x05#8] → cmdA w = cmdA w')
    (hn : cmdOp w ∈ [0x04#8, 0x05#8] → cmdN w = cmdN w')
    (hd : cmdOp w ∈ [0x02#8, 0x03#8, 0x05#8] → cmdD w = cmdD w') :
    decodeCommand w = decodeCommand w' := by
  obtain h | h | h | h | h | h | h | h | h := opcode_defined_or_reserved (cmdOp w)
  · rw [decodeCommand_nop h, decodeCommand_nop (hop ▸ h)]
  · rw [decodeCommand_reset h, decodeCommand_reset (hop ▸ h)]
  · rw [decodeCommand_setrate h, decodeCommand_setrate (hop ▸ h), hd (by simp [h])]
  · rw [decodeCommand_pwrite h, decodeCommand_pwrite (hop ▸ h), ha (by simp [h]), hd (by simp [h])]
  · rw [decodeCommand_blkbegin h, decodeCommand_blkbegin (hop ▸ h), hn (by simp [h])]
  · rw [decodeCommand_evpush h, decodeCommand_evpush (hop ▸ h), ha (by simp [h]), hn (by simp [h]), hd (by simp [h])]
  · rw [decodeCommand_frame h, decodeCommand_frame (hop ▸ h)]
  · rw [decodeCommand_rdstat h, decodeCommand_rdstat (hop ▸ h)]
  · rw [decodeCommand_reserved h, decodeCommand_reserved (hop ▸ h), hop]

end

/-- Settles O3: the equation of each opcode, and that the decoder depends on no unused field. -/
theorem unusedFieldsIgnored : Obligations.UnusedFieldsIgnored :=
  ⟨fun _ => ⟨decodeCommand_nop, decodeCommand_reset, decodeCommand_setrate, decodeCommand_pwrite,
    decodeCommand_blkbegin, decodeCommand_evpush, decodeCommand_frame, decodeCommand_rdstat⟩,
   fun _ _ => decodeCommand_congr⟩

/-! ### The parameter address map (R96) -/

namespace Machine

/-- Below 0x40 an address is `8 * slot + field`, and it names a register when `field` names one. -/
theorem paramReg_slot (i : Slot) (b : Fin 8) :
    paramReg (BitVec.ofNat 8 (8 * i + b)) = (slotFieldOf (BitVec.ofFin b)).map (.slot i) := by
  have hlow : (BitVec.ofNat 8 (8 * i + b)).extractLsb' 0 3 = BitVec.ofFin b :=
    BitVec.eq_of_toNat_eq (by simp)
  have hhigh : slotOfBits ((BitVec.ofNat 8 (8 * i + b)).extractLsb' 3 3) = i := by
    apply Fin.ext
    simp [slotOfBits, Nat.shiftRight_eq_div_pow]
    omega
  have hslot : (BitVec.ofNat 8 (8 * i + b)).toNat < 0x40 := by
    simp
    omega
  rw [paramReg, if_pos hslot, hlow, hhigh]
  cases slotFieldOf (BitVec.ofFin b) <;> rfl

/-- An address names no register exactly when its field is the unassigned 7 or it lies past the last master register. -/
theorem paramReg_eq_none_iff (a : U8) :
    paramReg a = none ↔ (a.toNat ≤ 0x3F ∧ a.toNat % 8 = 7) ∨ 0x45 ≤ a.toNat := by
  rw [← Option.not_isSome_iff_eq_none, paramReg_isSome]
  simp only [paramDefined, Bool.or_eq_true, decide_eq_true_eq]
  omega

/-- Settles O4: the slot registers by their addresses' two parts, the master registers one by one, and the reserved
addresses by the check of WellFormed.lean. -/
theorem paramAddressMap : Obligations.ParamAddressMap :=
  ⟨fun i => ⟨paramReg_slot i 0, paramReg_slot i 1, paramReg_slot i 2, paramReg_slot i 3, paramReg_slot i 4,
    paramReg_slot i 5, paramReg_slot i 6⟩, rfl, rfl, rfl, rfl, rfl, paramReg_eq_none_iff⟩

end Machine

end Sys2Proof

end

section
/-! PROOFS. The primitives (40_primitives.md R123, R124): binary32 addition and multiplication keep the order of their
operands, so NOISE ranges between the values of its formula at the two ends of the PRNG's range; and WRAP's range. -/

namespace Sys2Proof

/-! ### The operations keep the order

The order of finite values is that of their numbers, and rounding keeps it (`F32.roundMag_mono`). -/

/-- The order key of `n / d` units of `2^-149`, rounded. -/
def F32.roundKey (n : Int) (d : Nat) : Int :=
  if n < 0 then -(F32.roundMag n.natAbs d : Int) else (F32.roundMag n.natAbs d : Int)

theorem F32.roundKey_mono {n n' : Int} {d : Nat} (hd : 0 < d) (h : n ≤ n') :
    F32.roundKey n d ≤ F32.roundKey n' d := by
  have mono {a b : Nat} (hab : a ≤ b) : F32.roundMag a d ≤ F32.roundMag b d :=
    F32.roundMag_mono hd hd (Nat.mul_le_mul_right d hab)
  unfold F32.roundKey
  split
  case isTrue hn =>
    split
    case isTrue hn' =>
      have := mono (a := n'.natAbs) (b := n.natAbs) (by omega)
      omega
    case isFalse => omega
  case isFalse hn =>
    rw [if_neg (by omega)]
    exact_mod_cast mono (by omega)

section

variable {c x y lo hi : F32}

theorem F32.key_add (hx : F32.isFinite x = true) (hy : F32.isFinite y = true) :
    F32.key (F32.add x y) = F32.roundKey (F32.val x + F32.val y) 1 := by
  rw [F32.add_of_finite hx hy, F32.key, F32.low_addFinite, F32.addFinite, F32.roundKey]
  by_cases h0 : F32.val x + F32.val y = 0
  · simp [h0, F32.roundMag_zero]
  · simp [h0, F32.sign_round]

theorem F32.val_mul_val_neg_iff (h : F32.mag x * F32.mag y ≠ 0) :
    F32.val x * F32.val y < 0 ↔ (F32.sign x != F32.sign y) = true := by
  have hpos : 0 < (F32.mag x : Int) * F32.mag y := by exact_mod_cast Nat.pos_of_ne_zero h
  unfold F32.val
  cases F32.sign x <;> cases F32.sign y <;> simp <;> omega

theorem F32.key_mul (hx : F32.isFinite x = true) (hy : F32.isFinite y = true) :
    F32.key (F32.mul x y) = F32.roundKey (F32.val x * F32.val y) (2 ^ 149) := by
  rw [F32.mul_of_finite hx hy, F32.key, F32.low_round, F32.sign_round, F32.roundKey, Int.natAbs_mul,
    F32.val_natAbs, F32.val_natAbs]
  by_cases h0 : F32.mag x * F32.mag y = 0
  · simp [h0, F32.roundMag_zero]
  · simp only [F32.val_mul_val_neg_iff h0]

theorem F32.isNaN_eq_false_of_low_eq_roundMag {n d : Nat} (h : F32.low x = F32.roundMag n d) :
    F32.isNaN x = false := by
  have := F32.roundMag_le_inf n d
  simp only [F32.isNaN, decide_eq_false_iff_not]
  omega

theorem F32.isNaN_add (hx : F32.isFinite x = true) (hy : F32.isFinite y = true) :
    F32.isNaN (F32.add x y) = false :=
  F32.isNaN_eq_false_of_low_eq_roundMag (by rw [F32.add_of_finite hx hy, F32.low_addFinite])

theorem F32.isNaN_mul (hx : F32.isFinite x = true) (hy : F32.isFinite y = true) :
    F32.isNaN (F32.mul x y) = false :=
  F32.isNaN_eq_false_of_low_eq_roundMag (by rw [F32.mul_of_finite hx hy, F32.low_round])

theorem F32.add_le_add_right (hx : F32.isFinite x = true) (hy : F32.isFinite y = true) (hc : F32.isFinite c = true)
    (h : F32.le x y = true) : F32.le (F32.add x c) (F32.add y c) = true := by
  rw [F32.le_iff_val hx hy] at h
  rw [F32.le_iff, F32.key_add hx hc, F32.key_add hy hc]
  exact ⟨F32.isNaN_add hx hc, F32.isNaN_add hy hc, F32.roundKey_mono (by decide) (by omega)⟩

theorem F32.mul_le_mul_left (hx : F32.isFinite x = true) (hy : F32.isFinite y = true) (hc : F32.isFinite c = true)
    (hc0 : 0 ≤ F32.val c) (h : F32.le x y = true) : F32.le (F32.mul c x) (F32.mul c y) = true := by
  rw [F32.le_iff_val hx hy] at h
  rw [F32.le_iff, F32.key_mul hc hx, F32.key_mul hc hy]
  exact ⟨F32.isNaN_mul hc hx, F32.isNaN_mul hc hy,
    F32.roundKey_mono (by decide) (mul_le_mul_of_nonneg_left h hc0)⟩

theorem F32.natAbs_key (x : F32) : (F32.key x).natAbs = F32.low x := by
  unfold F32.key
  split <;> omega

theorem F32.isFinite_of_within (hlo : F32.isFinite lo = true) (hhi : F32.isFinite hi = true)
    (h : F32.Within lo hi x) : F32.isFinite x = true := by
  obtain ⟨-, -, hl⟩ := F32.le_iff.mp h.1
  obtain ⟨-, -, hh⟩ := F32.le_iff.mp h.2
  rw [F32.isFinite_iff, ← F32.natAbs_key] at *
  omega

/-- A sum lies between the sums at the two ends of its first operand's range. -/
theorem F32.within_add_right (hlo : F32.isFinite lo = true) (hhi : F32.isFinite hi = true)
    (hc : F32.isFinite c = true) (h : F32.Within lo hi x) :
    F32.Within (F32.add lo c) (F32.add hi c) (F32.add x c) :=
  have hx := F32.isFinite_of_within hlo hhi h
  ⟨F32.add_le_add_right hlo hx hc h.1, F32.add_le_add_right hx hhi hc h.2⟩

/-- A product with a nonnegative factor lies between the products at the two ends of the other factor's range. -/
theorem F32.within_mul_left (hlo : F32.isFinite lo = true) (hhi : F32.isFinite hi = true)
    (hc : F32.isFinite c = true) (hc0 : 0 ≤ F32.val c) (h : F32.Within lo hi x) :
    F32.Within (F32.mul c lo) (F32.mul c hi) (F32.mul c x) :=
  have hx := F32.isFinite_of_within hlo hhi h
  ⟨F32.mul_le_mul_left hlo hx hc hc0 h.1, F32.mul_le_mul_left hx hhi hc hc0 h.2⟩

theorem F32.key_of_toNat_lt (h : x.toNat < 2 ^ 31) : F32.key x = x.toNat := by
  have hsign : F32.sign x = false := decide_eq_false (Nat.not_le.mpr h)
  have hlow : F32.low x = x.toNat := Nat.mod_eq_of_lt h
  simp [F32.key, hsign, hlow]

theorem F32.isNaN_of_toNat_le (h : x.toNat ≤ F32.infLow) : F32.isNaN x = false :=
  decide_eq_false (Nat.not_lt.mpr ((Nat.mod_le _ _).trans h))

/-- Among the words from `+0.0` up to infinity the order of values is that of the words as integers. -/
theorem F32.le_of_toNat_le (h : x.toNat ≤ y.toNat) (hy : y.toNat ≤ F32.infLow) : F32.le x y = true := by
  have hlt : y.toNat < 2 ^ 31 := hy.trans_lt F32.infLow_lt
  rw [F32.le_iff, F32.key_of_toNat_lt (h.trans_lt hlt), F32.key_of_toNat_lt hlt]
  exact ⟨F32.isNaN_of_toNat_le (h.trans hy), F32.isNaN_of_toNat_le hy, by exact_mod_cast h⟩

end

namespace Machine

/-! ### NOISE (R122, R123) -/

/-- The float whose fraction is the top 23 bits of `s` lies in [1, 2) (R122). -/
theorem unitFloat_within (s : U32) : F32.Within Lit.c1 0x3FFFFFFF#32 (0x3F800000#32 ||| (s >>> 9)) := by
  have htop : s.toNat >>> 9 < 2 ^ 23 := by
    rw [Nat.shiftRight_eq_div_pow]
    omega
  have hword : (0x3F800000#32 ||| (s >>> 9)).toNat = 2 ^ 23 * 127 + s.toNat >>> 9 := by
    rw [Nat.two_pow_add_eq_or_of_lt htop]
    simp
  have hlo : Lit.c1.toNat = 2 ^ 23 * 127 := rfl
  have hhi : (0x3FFFFFFF#32 : F32).toNat = 2 ^ 23 * 128 - 1 := rfl
  have hinf : F32.infLow = 2 ^ 23 * 255 := rfl
  exact ⟨F32.le_of_toNat_le (by omega) (by omega), F32.le_of_toNat_le (by omega) (by omega)⟩

/-- The bipolar value of an advanced state lies in [-1, 1 - 2^-22] (R122). -/
theorem bipolarOf_within (s : U32) : F32.Within Lit.n1 0x3F7FFFFC#32 (bipolarOf s) := by
  have hdouble : F32.Within Lit.c2 0x407FFFFF#32 (F32.mul Lit.c2 (0x3F800000#32 ||| (s >>> 9))) := by
    have h := F32.within_mul_left (by decide) (by decide) (c := Lit.c2) (by decide) (by decide) (unitFloat_within s)
    have elo : F32.mul Lit.c2 Lit.c1 = Lit.c2 := by decide +kernel
    have ehi : F32.mul Lit.c2 0x3FFFFFFF#32 = 0x407FFFFF#32 := by decide +kernel
    rwa [elo, ehi] at h
  have h := F32.within_add_right (by decide) (by decide) (c := F32.neg Lit.c3) (by decide) hdouble
  have elo : F32.add Lit.c2 (F32.neg Lit.c3) = Lit.n1 := by decide +kernel
  have ehi : F32.add 0x407FFFFF#32 (F32.neg Lit.c3) = 0x3F7FFFFC#32 := by decide +kernel
  rw [elo, ehi] at h
  rwa [bipolarOf, F32.mul_comm]

theorem noise_within (v : Voice) : F32.Within 0xBF333333#32 0x3F333330#32 (noise v).2 := by
  have h := F32.within_mul_left (by decide) (by decide) (c := Lit.c0_7) (by decide) (by decide)
    (bipolarOf_within (lcg v.prngState))
  have elo : F32.mul Lit.c0_7 Lit.n1 = 0xBF333333#32 := by decide +kernel
  have ehi : F32.mul Lit.c0_7 0x3F7FFFFC#32 = 0x3F333330#32 := by decide +kernel
  rwa [elo, ehi] at h

/-- Settles O44: the formula is NOISE's definition, and its range follows that of the bipolar value. -/
theorem noiseRange : Obligations.NoiseRange :=
  fun v => ⟨rfl, rfl, noise_within v⟩

/-! ### WRAP (R124) -/

/-- The second line of WRAP answers for every word: one it keeps is in the interval, and so is `+0.0`. -/
theorem wrap_range (p : F32) : F32.le Lit.c0 (wrap p) = true ∧ F32.lt (wrap p) Lit.twoPi = true := by
  unfold wrap
  split
  case isTrue h => exact Bool.and_eq_true_iff.mp h
  case isFalse => decide

/-- Settles O45: the two lines are WRAP's definition, and its range is `wrap_range`. -/
theorem wrapInRange : Obligations.WrapInRange :=
  fun p => ⟨rfl, wrap_range p⟩

end Machine

end Sys2Proof

end

section
/-! PROOFS. The drum voice (41_voice.md): what the oscillator and the noise band change of a voice, and from it the
renderers' results (R162 to R169), TRIG (R150 to R156) and VPROC (R157 to R161). -/

namespace Sys2Proof.Machine

open Sys2Proof.Claims

/-! ### The two generators in the words of the statements (R123, R125, R126)

OSC writes `osc_phase` alone, and a noise band only the PRNG and the band filter; neither reads what the other writes,
so that run in either order they give `stepped`. -/

section

variable (N : Numerics) (sr fc f : F32) (v : Voice)

theorem noiseBand_eq : noiseBand N sr fc v = (filtered N sr fc v, bandOf N sr fc v) := by
  simp only [noiseBand, hpband, hpAlpha, noise, bipolar, advance, filtered, bandOf, lowpassAfter, noiseOf]

theorem osc_snd : (osc N sr f v).2 = N.sin (phaseAfter sr f v) := rfl

theorem noiseBand_osc : noiseBand N sr fc (osc N sr f v).1 = (stepped N sr fc f v, bandOf N sr fc v) :=
  noiseBand_eq N sr fc (osc N sr f v).1

theorem osc_filtered : osc N sr f (filtered N sr fc v) = (stepped N sr fc f v, N.sin (phaseAfter sr f v)) := rfl

end

theorem rendered_eq_renderedTo (s : State) (i : Slot) (v : Voice) (x : F32) :
    s.rendered i (v, x) = renderedTo s i v x := rfl

/-! ### The renderers (R162 to R169)

Each proof runs the generators in the renderer's own order; what is left is the statement with `clamp01` written out. -/

/-- Settles O25: the oscillator, then the noise band. -/
theorem kickResult : Obligations.KickResult := by
  intro s
  simp only [exec, execKick, kickStep, renderKick, osc_snd, noiseBand_osc, rendered_eq_renderedTo, clamp01]

/-- Settles O26: the oscillator, then the noise band. -/
theorem snareResult : Obligations.SnareResult := by
  intro s
  simp only [exec, execSnare, snareStep, renderSnare, osc_snd, noiseBand_osc, rendered_eq_renderedTo, clamp01]

/-- Settles O27: the noise band alone. -/
theorem clapResult : Obligations.ClapResult := by
  intro s
  simp only [exec, execClap, clapStep, renderClap, noiseBand_eq, rendered_eq_renderedTo, clamp01]

/-- Settles O28: the noise band alone. -/
theorem hatClosedResult : Obligations.HatClosedResult := by
  intro s
  simp only [exec, execHatclosed, hatClosedStep, renderHatClosed, noiseBand_eq, rendered_eq_renderedTo, clamp01]

/-- Settles O29: the noise band alone. -/
theorem hatOpenResult : Obligations.HatOpenResult := by
  intro s
  simp only [exec, execHatopen, hatOpenStep, renderHatOpen, noiseBand_eq, rendered_eq_renderedTo, clamp01]

/-- Settles O30: the oscillator, then the noise band. -/
theorem tomResult : Obligations.TomResult := by
  intro s
  simp only [exec, execTom, tomStep, renderTom, osc_snd, noiseBand_osc, rendered_eq_renderedTo, clamp01]

/-- Settles O31: the noise band, then the oscillator. -/
theorem percOneResult : Obligations.PercOneResult := by
  intro s
  simp only [exec, execPerc1, perc1Step, renderPerc1, noiseBand_eq, osc_filtered, rendered_eq_renderedTo, clamp01]

/-- Settles O32: the oscillator, then the noise band. -/
theorem percTwoResult : Obligations.PercTwoResult := by
  intro s
  simp only [exec, execPerc2, perc2Step, renderPerc2, osc_snd, noiseBand_osc, rendered_eq_renderedTo, clamp01]

/-- A renderer advances the PRNG once and may change besides only the band filter and the phase (R170): with a body it
leaves `stepped`, without one `filtered`. -/
theorem render_fst (N : Numerics) (sr : F32) (p : SlotParams) (k : Kind) (env : F32) (v : Voice) :
    (render N sr p k env v).1 = { v with
      prngState := lcg v.prngState
      noiseLowpass := (render N sr p k env v).1.noiseLowpass
      oscPhase := (render N sr p k env v).1.oscPhase } := by
  cases k
  case kick | snare | tom | perc2 =>
    simp only [render, renderKick, renderSnare, renderTom, renderPerc2, noiseBand_osc, stepped]
  case perc1 => simp only [render, renderPerc1, noiseBand_eq, osc_filtered, stepped]
  case clap | hatClosed | hatOpen =>
    simp only [render, renderClap, renderHatClosed, renderHatOpen, noiseBand_eq, filtered]

/-! ### TRIG (R150 to R156) -/

/-- The table of R156 in slot order. -/
theorem basePitch_eq (i : Slot) :
    basePitch i = #v[Lit.c55, Lit.c180, Lit.c250, Lit.c8000, Lit.c7000, Lit.c140, Lit.c400, Lit.c700][i] := by
  revert i
  decide

/-- Step 3 of TRIG field by field: the branch decides the four humanize fields and nothing else (R153). -/
theorem trigHumanize_eq (humanize : F32) (v : Voice) :
    let g1 := lcg v.prngState
    let h := clamp humanize Lit.c0 Lit.c1
    let on := F32.lt Lit.c0 h
    trigHumanize humanize v = { v with
      prngState := if on then lcg (lcg (lcg g1)) else g1
      humanAmp := if on then F32.add Lit.c1 (F32.mul (F32.mul Lit.c0_15 h) (bipolarOf (lcg g1))) else Lit.c1
      humanPitch := if on then F32.mul (F32.mul Lit.c3 h) (bipolarOf (lcg (lcg g1))) else Lit.c0
      humanDecayMul :=
        if on then F32.add Lit.c1 (F32.mul (F32.mul Lit.c0_5 h) (bipolarOf (lcg (lcg (lcg g1))))) else Lit.c1 } := by
  cases hon : F32.lt Lit.c0 (clamp humanize Lit.c0 Lit.c1)
  case false => simp [trigHumanize, advance, clamp01, hon]
  case true => simp [trigHumanize, bipolar, advance, clamp01, hon]

/-- Settles O35: the five steps, the third by `trigHumanize_eq`; each field is then written out, and nothing of the
prior voice but its PRNG state is left in it. -/
theorem trigWritesEveryField : Obligations.TrigWritesEveryField := by
  constructor
  · intro N sr m p i vel v
    simp only [trig, trigStart, trigVelocity, trigHumanize_eq, trigDecay, trigPitch, shapedVelocity, poleCoef, decayTau,
      pitchedFreq, basePitch_eq, clamp01, Config.decayMsMin, Config.decayMsMax]
  · intro N sr m p i vel v v' h
    simp only [trig, trigStart, trigVelocity, trigHumanize_eq, trigDecay, trigPitch, h]

/-! ### VPROC (R157 to R161) -/

section

variable (N : Numerics) (sr : F32) (p : SlotParams) (k : Kind) {v : Voice}

theorem vproc_inactive (ha : v.active = false) : vproc N sr p k v = (v, Lit.c0) := by
  simp [vproc, ha]

theorem vproc_terminal (ha : v.active = true) (he : F32.lt (decayed v) Config.envFloor = true) :
    vproc N sr p k v = ({ v with envelope := Lit.c0, active := false }, Lit.c0) := by
  simp [vproc, ha, he]

theorem vproc_sounding (ha : v.active = true) (he : F32.lt (decayed v) Config.envFloor = false) :
    let raw := render N sr p k (decayed v) { v with envelope := decayed v }
    vproc N sr p k v = (raw.1, shapeSample raw.1 raw.2) := by
  simp [vproc, ha, he]

end

/-- Settles O37: one lemma a case; a sounding call keeps what `render_fst` says its renderer keeps. -/
theorem vprocOneSample : Obligations.VprocOneSample := by
  intro N sr p k v e
  refine ⟨vproc_inactive N sr p k, vproc_terminal N sr p k, fun ha he => ?_⟩
  intro raw
  have hraw : raw.1 = { v with
      envelope := e
      prngState := lcg v.prngState
      noiseLowpass := raw.1.noiseLowpass
      oscPhase := raw.1.oscPhase } := render_fst N sr p k e { v with envelope := e }
  rw [vproc_sounding N sr p k ha he]
  refine ⟨?_, hraw⟩
  show shapeSample raw.1 raw.2 = _
  rw [hraw]
  rfl

end Sys2Proof.Machine

end

section
/-! PROOFS. The voice bank (42_voicebank.md R180): a renderer run as a step of its own is the dispatch on the kind tag of
its bank, put back into the state. -/

namespace Sys2Proof.Machine

/-! ### What a renderer leaves of its voice (R164 to R166) -/

theorem noiseBand_oscPhase (N : Numerics) (sr fc : F32) (v : Voice) : (noiseBand N sr fc v).1.oscPhase = v.oscPhase :=
  rfl

/-- The kinds without a body take no sine, so that OSC does not run. -/
theorem render_oscPhase_of_noBody (N : Numerics) (sr : F32) (p : SlotParams) {k : Kind} (env : F32) (v : Voice)
    (hk : k = .clap ∨ k = .hatClosed ∨ k = .hatOpen) : (render N sr p k env v).1.oscPhase = v.oscPhase := by
  rcases hk with rfl | rfl | rfl <;> exact noiseBand_oscPhase ..

theorem kindOf_noBody {i : Slot} (h : i ∈ [2, 3, 4]) :
    kindOf i = .clap ∨ kindOf i = .hatClosed ∨ kindOf i = .hatOpen := by
  revert i
  decide

/-! ### The state a renderer leaves -/

section

variable (s : State) (i : Slot) (r : Voice × F32)

theorem State.rendered_same : (s.rendered i r).voices[i] = r.1 := State.setVoice_same s i r.1

theorem State.rendered_other {j : Slot} (h : j ≠ i) : (s.rendered i r).voices[j] = s.voices[j] :=
  State.setVoice_other s r.1 h

theorem State.rendered_eq :
    s.rendered i r = { s with voices := (s.rendered i r).voices, out := s.out ++ [.rendered r.2] } := rfl

end

/-- The dispatch on the kind tag of bank `i`, on the envelope the bank holds (R160, R180). -/
def bankRender (s : State) (i : Slot) : Voice × F32 :=
  render Config.params.num s.sr s.slots[i] (kindOf i) s.voices[i].envelope s.voices[i]

/-- The renderer of each number completes, and is the one VPROC dispatches to for the bank of that number. -/
theorem exec_renderer (i : Slot) (s : State) :
    exec ([.kick, .snare, .clap, .hatclosed, .hatopen, .tom, .perc1, .perc2].get i) s =
      .next (s.rendered i (bankRender s i)) := by
  fin_cases i <;> rfl

/-- Settles O33: the step by `exec_renderer`, its voice by `render_fst`, and the rest by the rules of `State.rendered`. -/
theorem renderersAdvancePrngOnce : Obligations.RenderersAdvancePrngOnce := by
  intro i s
  have hv : (s.rendered i (bankRender s i)).voices[i] = (bankRender s i).1 := State.rendered_same ..
  refine ⟨_, (bankRender s i).2, exec_renderer i s, ?dispatched, ?voice, ?phase, ?others, State.rendered_eq ..⟩
  case dispatched =>
    rw [hv]
    rfl
  case voice =>
    rw [hv]
    exact render_fst ..
  case phase =>
    intro hi
    rw [hv]
    exact render_oscPhase_of_noBody _ _ _ _ _ (kindOf_noBody hi)
  case others => exact fun j hj => State.rendered_other s i _ hj

end Sys2Proof.Machine

end

section
/-! PROOFS. The master bus (43_masterbus.md): the saturator's output stays below 1 (R192), what the compressor and the
reverb do when they are not bypassed (R194, R197), and the reverb geometry (R196). -/

namespace Sys2Proof

/-! ### Order, sign and magnitude of binary32 values -/

section

variable {b c x y : F32}

theorem F32.le_self (hx : F32.isNaN x = false) : F32.le x x = true :=
  F32.le_iff.mpr ⟨hx, hx, Int.le_refl _⟩

theorem F32.le_of_lt (h : F32.lt x y = true) : F32.le x y = true := by
  obtain ⟨hx, hy, hlt⟩ := F32.lt_iff.mp h
  exact F32.le_iff.mpr ⟨hx, hy, hlt.le⟩

theorem F32.le_of_not_lt (hx : F32.isNaN x = false) (hy : F32.isNaN y = false) (h : ¬F32.lt x y = true) :
    F32.le y x = true := by
  simp only [F32.lt_iff, hx, hy, true_and, not_lt] at h
  exact F32.le_iff.mpr ⟨hy, hx, h⟩

theorem F32.add_comm_of_finite (hx : F32.isFinite x = true) (hy : F32.isFinite y = true) :
    F32.add x y = F32.add y x := by
  rw [F32.add_of_finite hx hy, F32.add_of_finite hy hx, F32.addFinite, F32.addFinite, Int.add_comm, Bool.and_comm]

theorem F32.sign_eq_false_of_key_pos (h : 0 < F32.key x) : F32.sign x = false := by
  unfold F32.key at h
  split at h
  case isTrue => omega
  case isFalse hs => exact Bool.eq_false_iff.mpr hs

theorem F32.key_of_sign_eq_false (h : F32.sign x = false) : F32.key x = F32.low x := by
  simp [F32.key, h]

theorem F32.low_le_of_within (hb : F32.key b = -F32.key c) (h : F32.Within b c x) : F32.low x ≤ F32.low c := by
  obtain ⟨-, -, hlow⟩ := F32.le_iff.mp h.1
  obtain ⟨-, -, hhigh⟩ := F32.le_iff.mp h.2
  rw [← F32.natAbs_key, ← F32.natAbs_key]
  omega

/-- A value of magnitude at most 1 times a nonnegative factor has at most the factor's magnitude. -/
theorem F32.abs_mul_le (hx : F32.low x ≤ 0x3F800000) (hc : F32.isFinite c = true) (hc0 : F32.sign c = false) :
    F32.le (F32.abs (F32.mul x c)) c = true := by
  have hlow : F32.low (F32.mul x c) ≤ F32.low c := by
    rw [F32.mul_comm]
    exact F32.low_mul_le_left hc hx
  have hfin : F32.isFinite (F32.abs (F32.mul x c)) = true :=
    F32.isFinite_of_low_le (F32.isFinite_iff.mp hc) (by rwa [F32.low_abs])
  rw [F32.le_iff, F32.key_abs, F32.key_of_sign_eq_false hc0]
  exact ⟨F32.not_isNaN_of_isFinite hfin, F32.not_isNaN_of_isFinite hc, by exact_mod_cast hlow⟩

end

namespace Machine

open Sys2Proof.Claims

/-! ### CLAMP and SOFTSAT (R120, R127) -/

theorem le_fmax {x lo : F32} (hlo : F32.isNaN lo = false) : F32.le lo (fmax x lo) = true := by
  unfold fmax
  split
  case isTrue h => exact F32.le_of_lt h
  case isFalse => exact F32.le_self hlo

/-- CLAMP answers inside its bounds for every word: a NaN becomes the lower one. -/
theorem clamp_within {lo hi : F32} (h : F32.le lo hi = true) (x : F32) : F32.Within lo hi (clamp x lo hi) := by
  obtain ⟨hlo, hhi, -⟩ := F32.le_iff.mp h
  unfold clamp fmin
  split
  case isTrue hlt => exact ⟨le_fmax hlo, F32.le_of_lt hlt⟩
  case isFalse => exact ⟨h, F32.le_self hhi⟩

theorem softsat_within (x : F32) : F32.Within Lit.n1 Lit.c1 (softsat x) := by
  unfold softsat
  split
  case isTrue => decide
  split
  case isTrue => decide
  split
  case isTrue => decide
  case isFalse => exact clamp_within (by decide) _

theorem low_softsat_le (x : F32) : F32.low (softsat x) ≤ 0x3F800000 :=
  F32.low_le_of_within (c := Lit.c1) (by decide) (softsat_within x)

/-! ### The bypass test (R191) -/

theorem bypassed_eq_false {amount : F32} (h : ¬stageOff amount) : bypassed amount = false :=
  Bool.eq_false_iff.mpr h

/-- The amount of a stage that is not bypassed lies between the epsilon and 1. -/
theorem amount_within {amount : F32} (h : ¬stageOff amount) : F32.Within Lit.c0_001 Lit.c1 (clamp01 amount) := by
  have hle : F32.le (clamp01 amount) Lit.c1 = true := (clamp_within (by decide) amount).2
  exact ⟨F32.le_of_not_lt (F32.le_iff.mp hle).1 (by decide) h, hle⟩

/-! ### Saturation (R192) -/

theorem sat_eq {m : MasterParams} (h : bypassed m.drive = false) (l r : F32) :
    sat m l r = (satChannel (clamp01 m.drive) l, satChannel (clamp01 m.drive) r) := by
  simp [sat, h]

section

variable {d : F32} (hd : F32.Within Lit.c0_001 Lit.c1 d)

include hd

/-- The divisor of the makeup gain is at least `0x3F804189`, that of the epsilon, which lies above 1. -/
theorem makeupDivisor_within : F32.Within 0x3F804189#32 Lit.c3 (F32.add Lit.c1 (F32.mul Lit.c2 d)) := by
  have hdouble : F32.Within 0x3B03126F#32 Lit.c2 (F32.mul Lit.c2 d) := by
    have h := F32.within_mul_left (by decide) (by decide) (c := Lit.c2) (by decide) (by decide) hd
    have elo : F32.mul Lit.c2 Lit.c0_001 = 0x3B03126F#32 := by decide +kernel
    have ehi : F32.mul Lit.c2 Lit.c1 = Lit.c2 := by decide +kernel
    rwa [elo, ehi] at h
  have h := F32.within_add_right (by decide) (by decide) (c := Lit.c1) (by decide) hdouble
  have elo : F32.add 0x3B03126F#32 Lit.c1 = 0x3F804189#32 := by decide +kernel
  have ehi : F32.add Lit.c2 Lit.c1 = Lit.c3 := by decide +kernel
  rw [elo, ehi] at h
  rwa [F32.add_comm_of_finite (by decide) (F32.isFinite_of_within (by decide) (by decide) hdouble)]

/-- The makeup gain is positive and below 1. -/
theorem satMakeup_sign_low : F32.sign (satMakeup d) = false ∧ F32.low (satMakeup d) < 0x3F800000 := by
  have hdiv := makeupDivisor_within hd
  have hfin := F32.isFinite_of_within (by decide) (by decide) hdiv
  obtain ⟨-, -, hkey⟩ := F32.le_iff.mp hdiv.1
  have elo : F32.key 0x3F804189#32 = 0x3F804189 := by decide
  rw [elo] at hkey
  have hsign := F32.sign_eq_false_of_key_pos (hkey.trans_lt' (by decide))
  have hlow : 0x3F804189 ≤ F32.low (F32.add Lit.c1 (F32.mul Lit.c2 d)) := by
    rw [F32.key_of_sign_eq_false hsign] at hkey
    exact_mod_cast hkey
  constructor
  · rw [satMakeup, F32.div_of_finite (by decide) hfin (by omega), F32.sign_round, hsign]
    decide
  · calc F32.low (satMakeup d)
      _ ≤ F32.roundMag (F32.magOf 0x3F800000 * 2 ^ 149) (F32.magOf 0x3F804189) :=
        F32.low_div_le (by decide) (by decide) hfin (by decide) hlow
      _ < 0x3F800000 := by decide +kernel

theorem isFinite_satMakeup : F32.isFinite (satMakeup d) = true :=
  F32.isFinite_iff.mpr ((satMakeup_sign_low hd).2.trans (by decide))

theorem satMakeup_lt_one : F32.lt (satMakeup d) Lit.c1 = true := by
  obtain ⟨hsign, hlow⟩ := satMakeup_sign_low hd
  have hone : F32.key Lit.c1 = (0x3F800000 : Nat) := by decide
  rw [F32.lt_iff, F32.key_of_sign_eq_false hsign, hone]
  exact ⟨F32.not_isNaN_of_isFinite (isFinite_satMakeup hd), by decide, by exact_mod_cast hlow⟩

theorem abs_satChannel_le (x : F32) : F32.le (F32.abs (satChannel d x)) (satMakeup d) = true :=
  F32.abs_mul_le (low_softsat_le _) (isFinite_satMakeup hd) (satMakeup_sign_low hd).1

end

/-- Settles O49: not bypassed, the drive is at least the epsilon, so that the makeup gain is below 1, and SOFTSAT's value
is in [-1, 1]. -/
theorem saturationStage : Obligations.SaturationStage := by
  intro m l r
  refine ⟨fun hoff => sat_bypassed hoff l r, fun hon => ?_⟩
  have hd := amount_within hon
  rw [sat_eq (bypassed_eq_false hon)]
  exact ⟨rfl, abs_satChannel_le hd l, abs_satChannel_le hd r, satMakeup_lt_one hd⟩

/-! ### Compressor (R194) -/

/-- A COMP_STEP that is not bypassed, whole. -/
theorem compStep_eq (N : Numerics) {m : MasterParams} (h : bypassed m.comp = false) (c : Comp) (l r : F32) :
    compStep N m c l r =
      (compNext N (clamp01 m.comp) c l r, F32.mul l (compNext N (clamp01 m.comp) c l r).gain,
        F32.mul r (compNext N (clamp01 m.comp) c l r).gain) := by
  simp [compStep, h]

/-- Settles O50: the formulas of R194 are those of `compNext`. -/
theorem compressorStage : Obligations.CompressorStage := by
  intro N m c l r
  exact ⟨fun hoff => compStep_bypassed N hoff c l r, fun hon => compStep_eq N (bypassed_eq_false hon) c l r⟩

/-! ### Reverb (R196, R197) -/

/-- Settles O52: the next write index is `nextIndex`, and the rest is `revStep_eq`. -/
theorem reverbStage : Obligations.ReverbStage := by
  intro m rv l r
  refine ⟨fun hoff => revStep_bypassed hoff rv l r, fun hon => ?_⟩
  exact ⟨nextIndex rv.w rv.len, nextIndex_val .., revStep_eq (bypassed_eq_false hon) rv l r⟩

/-- A tap lies inside its line, at least one word back: a line has at least two words. -/
theorem revTap_range (ms sr : F32) : 1 ≤ (revTap ms sr).val ∧ (revTap ms sr).val ≤ (revLen sr).val - 1 := by
  have hlen := (revLen sr).property.1
  exact ⟨le_min (le_max_right _ _) (by omega), min_le_right _ _⟩

/-- Settles O10: the formulas are the definitions', the bounds of the length those of its type, and a tap's
`revTap_range`. -/
theorem reverbGeometry : Obligations.ReverbGeometry := by
  refine ⟨fun _ _ _ _ _ => rfl, fun ms sr => ?_⟩
  obtain ⟨hlo, hhi⟩ := (revLen sr).property
  obtain ⟨htapLo, htapHi⟩ := revTap_range ms sr
  exact ⟨rfl, rfl, hlo, hhi, htapLo, htapHi⟩

end Machine

end Sys2Proof

end

section
/-! PROOFS. The host commands (44_scheduler_commands.md R211, R213 to R216, R219, R220): what each leaves of the state,
and the bits of the status word (30_encoding.md R102). -/

namespace Sys2Proof.Machine

/-! ### PWRITE (R214) -/

/-- Writing a parameter register changes no state but the parameter registers. -/
theorem State.writeParam_frame (s : State) (r : ParamReg) (v : F32) :
    s.writeParam r v = { s with slots := (s.writeParam r v).slots, master := (s.writeParam r v).master } := by
  cases r <;> rfl

theorem paramWrite_stores {a : U8} {d : F32} {r : ParamReg} (hr : paramReg a = some r) (hd : F32.isFinite d = true)
    (s : State) : paramWrite a d s = s.writeParam r d := by
  simp [paramWrite, hr, hd]

theorem paramWrite_drops {a : U8} {d : F32} (h : paramReg a = none ∨ F32.isFinite d = false) (s : State) :
    paramWrite a d s = s.flag .pdrop := by
  cases hr : paramReg a with
  | none => simp [paramWrite, hr]
  | some r =>
    have hd : F32.isFinite d = false := h.resolve_left (by simp [hr])
    simp [paramWrite, hr, hd]

/-- Settles O13: a stored value is read back by `readParam_writeParam`, and nothing else changes by
`writeParam_frame`. -/
theorem pwriteStoresOrDrops : Obligations.PwriteStoresOrDrops := by
  refine ⟨fun a d s r hr hd => ⟨s.writeParam r d, ?_, ?_, ?_, s.writeParam_frame r d⟩, fun a d s h => ?_⟩
  · exact congrArg Host.Outcome.next (paramWrite_stores hr hd s)
  · rw [State.readParam_writeParam, if_pos rfl]
  · intro q hq
    rw [State.readParam_writeParam, if_neg hq]
  · exact congrArg Host.Outcome.next (paramWrite_drops h s)

/-! ### RDSTAT and the bits of the status word (R219, R102) -/

/-- The code of a condition, which is its bit in the status word (R241). -/
def Condition.code : Condition → Nat
  | .evfull => 0
  | .evslot => 1
  | .evlate => 2
  | .badcmd => 3
  | .seq => 4
  | .pdrop => 5
  | .ratefix => 6

theorem Condition.code_lt (c : Condition) : c.code < 7 := by
  cases c <;> decide

theorem stickyBits_getLsbD (f : Sticky) (c : Condition) : (stickyBits f).getLsbD c.code = stickyBit f c := by
  unfold stickyBits
  simp only [BitVec.getLsbD_append, BitVec.getLsbD_ofBool]
  cases c <;> rfl

theorem activeBits_getLsbD (vs : Vector Voice 8) (i : Slot) : (activeBits vs).getLsbD i = (vs[i]).active := by
  unfold activeBits
  simp only [BitVec.getLsbD_append, BitVec.getLsbD_ofBool]
  fin_cases i <;> rfl

/-- The four parts of the status word, by the place of a bit. The appends give the same cases, each place counted from
the end of the part below. -/
theorem statusWord_getLsbD (s : State) (k : Nat) :
    (statusWord s).getLsbD k =
      if k < 7 then (stickyBits s.sticky).getLsbD k
      else if k < 8 then !s.queue.isEmpty
      else if k < 16 then (activeBits s.voices).getLsbD (k - 8)
      else s.sched.frameIdx.getLsbD (k - 16) := by
  unfold statusWord
  simp only [BitVec.getLsbD_append, BitVec.getLsbD_ofBool]
  grind

theorem statusWord_sticky (s : State) (c : Condition) : (statusWord s).getLsbD c.code = stickyBit s.sticky c := by
  rw [statusWord_getLsbD, if_pos c.code_lt, stickyBits_getLsbD]

theorem statusWord_queue (s : State) : (statusWord s).getLsbD 7 = !s.queue.isEmpty :=
  statusWord_getLsbD s 7

theorem statusWord_active (s : State) (i : Slot) : (statusWord s).getLsbD (8 + i) = (s.voices[i]).active := by
  rw [statusWord_getLsbD, if_neg (by omega), if_neg (by omega), if_pos (by omega), Nat.add_sub_cancel_left,
    activeBits_getLsbD]

theorem statusWord_frameIdx (s : State) : (statusWord s).extractLsb' 16 16 = s.sched.frameIdx := by
  ext k hk
  rw [BitVec.getElem_extractLsb', statusWord_getLsbD, if_neg (by omega), if_neg (by omega), if_neg (by omega),
    Nat.add_sub_cancel_left, BitVec.getLsbD_eq_getElem hk]

/-- Settles O16: RDSTAT responds with `statusWord`, and each of its parts is read by a lemma above. -/
theorem rdstatReportsState : Obligations.RdstatReportsState := by
  intro s
  exact ⟨statusWord s, rfl, statusWord_frameIdx s, statusWord_active s, statusWord_queue s,
    statusWord_sticky s .ratefix, statusWord_sticky s .pdrop, statusWord_sticky s .seq, statusWord_sticky s .badcmd,
    statusWord_sticky s .evlate, statusWord_sticky s .evslot, statusWord_sticky s .evfull⟩

/-! ### NOP and the reserved opcodes (R211, R220) -/

/-- A word that the decoder rejects is consumed and sets `BADCMD`. -/
theorem step_of_rejected {s : State} {p : Presented} {rest : List Presented} {e : Reject} (hport : s.port = p :: rest)
    (hp : decode p = .error e) : step s = .next (badCommand (s.withPort rest)) := by
  simp [step, hport, hp]

/-- Settles O7: the decoder rejects a reserved opcode, and `step` answers a rejection with `BADCMD`. -/
theorem reservedOpcodeSetsBadcmdOnly : Obligations.ReservedOpcodeSetsBadcmdOnly :=
  fun _ _ _ hport hop => step_of_rejected hport (decodeCommand_reserved hop)

/-- Settles O8: `exec` of NOP is the state itself, and the word of zeros has opcode 0. -/
theorem nopChangesNothing : Obligations.NopChangesNothing :=
  ⟨fun _ => rfl, decodeCommand_nop (by decide)⟩

/-! ### SETRATE (R213) -/

theorem flagRate_sticky (d : F32) (s : State) : (flagRate d s).sticky =
    { s.sticky with ratefix := s.sticky.ratefix || !F32.eq (conditionedRate d) d } := by
  unfold flagRate
  split
  · next h => simp [h]
  · next h => simp [h, raiseSticky]

/-- Settles O11: the record of `setRate`, its flag by `flagRate_sticky`. -/
theorem setrateSilencesAndRecomputes : Obligations.SetrateSilencesAndRecomputes := by
  intro d s
  show Host.Outcome.next (setRate Config.params d s) = _
  simp only [setRate, flagRate_sched, flagRate_queue, flagRate_slots, flagRate_master, flagRate_port, flagRate_out,
    flagRate_sticky]
  rfl

/-! ### BLKBEGIN (R215) -/

theorem flagLate_sticky (s : State) :
    (flagLate s).sticky = { s.sticky with evlate := s.sticky.evlate || !s.queue.isEmpty } := by
  unfold flagLate evqEmpty
  split
  · next h => simp [h]
  · next h => simp [h, raiseSticky]

/-- Settles O14: the record of `blockBegin`, its queue by `flagLate_queue` and its flag by `flagLate_sticky`. -/
theorem blkbeginOpensBlock : Obligations.BlkbeginOpensBlock := by
  intro n s
  show Host.Outcome.next (blockBegin n s) = _
  simp [blockBegin, flagLate_sticky]

/-! ### EVPUSH (R216) -/

theorem eventSlot_of_gt {a : U8} (h : 7 < a.toNat) : eventSlot a = none := if_neg (by omega)

/-- A slot operand in range names the slot of its own value (R99). -/
theorem eventSlot_of_le {a : U8} (h : a.toNat ≤ 7) : ∃ i : Slot, i.val = a.toNat ∧ eventSlot a = some i := by
  refine ⟨slotOfBits (a.extractLsb' 0 3), ?_, if_pos h⟩
  simp [slotOfBits]
  omega

section

variable {a : U8} (n : U16) (d : F32) {s : State}

theorem eventPush_badSlot (ha : eventSlot a = none) : eventPush a n d s = s.flag .evslot := by
  simp [eventPush, ha]

theorem eventPush_full {i : Slot} (ha : eventSlot a = some i) (hq : 64 ≤ s.queue.length) :
    eventPush a n d s = s.flag .evfull := by
  simp [eventPush, ha, evqFull, Config.evqDepth, hq]

theorem eventPush_queued {i : Slot} (ha : eventSlot a = some i) (hq : s.queue.length < 64) :
    eventPush a n d s = s.evqPush { slot := i, velocity := d, offset := n } := by
  simp [eventPush, ha, evqFull, Config.evqDepth, Nat.not_le.mpr hq]

end

/-- Settles O15: the slot check decides first, the capacity second. -/
theorem evpushQueuesOrDrops : Obligations.EvpushQueuesOrDrops := by
  refine fun a n d s => ⟨fun ha => ?_, fun ha hq => ?_, fun ha hq => ?_⟩
  · exact congrArg Host.Outcome.next (eventPush_badSlot n d (eventSlot_of_gt ha))
  · obtain ⟨i, -, hi⟩ := eventSlot_of_le ha
    exact congrArg Host.Outcome.next (eventPush_full n d hi hq)
  · obtain ⟨i, hval, hi⟩ := eventSlot_of_le ha
    exact ⟨i, hval, congrArg Host.Outcome.next (eventPush_queued n d hi hq)⟩

end Sys2Proof.Machine

end

section
/-! PROOFS. Reset (70_reset_and_hazards.md R261): what RESET leaves in the voice banks, the parameter registers and the
delay lines. -/

namespace Sys2Proof.Machine

section

variable (C : Params) (s : State)

theorem resetOp_voices (i : Slot) : (resetOp C s).voices[i] = Voice.reset C i := by
  simp [resetOp, State.resetWith]

theorem SlotParams.reset_get (f : SlotField) : SlotParams.reset.get f = Lit.c0 := by
  cases f <;> rfl

theorem MasterParams.reset_get (f : MasterField) : MasterParams.reset.get f = Lit.c0 := by
  cases f <;> rfl

/-- Each of the 61 parameter registers is `+0.0`: 56 of the slots, 5 of the master. -/
theorem resetOp_readParam (r : ParamReg) : (resetOp C s).readParam r = Lit.c0 := by
  cases r with
  | slot i f =>
    have hslot : (resetOp C s).slots[i] = SlotParams.reset := by simp [resetOp, State.resetWith]
    rw [State.readParam, hslot, SlotParams.reset_get]
  | master f => exact MasterParams.reset_get f

/-- Both lines list no word, so every word reads as `+0.0` (R40). -/
theorem resetOp_lines (k : Nat) :
    DelayLine.get (resetOp C s).rev.rvl k = Lit.c0 ∧ DelayLine.get (resetOp C s).rev.rvr k = Lit.c0 :=
  ⟨rfl, rfl⟩

end

/-- Settles O9: the voices, the parameter registers and the delay lines by the lemmas above, the base pitches by the
table of R156, and every other field as the record of `resetOp` states it. -/
theorem resetWritesEveryRegister : Obligations.ResetWritesEveryRegister := by
  intro s
  refine ⟨resetOp Config.params s, rfl, rfl, fun i => ?voice, resetOp_readParam _ s, rfl, rfl, rfl, rfl, rfl, rfl, rfl,
    rfl, rfl, rfl, resetOp_lines _ s, rfl, rfl⟩
  rw [resetOp_voices, Voice.reset, basePitch_eq]

end Sys2Proof.Machine

end

section
/-! PROOFS. The encoder and the byte-wide channel (30_encoding.md R107, 20_memory.md R63): the decoder reads back every
encoded instruction, and a word is put together again from its bytes. -/

namespace Sys2Proof

/-! ### The round trip (R90 to R95, R101, R107) -/

/-- The decoder reads back what the encoder writes: of a command word the opcode selects the arm and the laws of
`commandWord` give the fields; a kind tag is its number. -/
theorem decode_encode (i : Instr) : decode (encode i) = .ok i := by
  cases i
  case nop | reset | setrate | pwrite | blkbegin | evpush | frame | rdstat =>
    simp [encode, decode, decodeCommand]
  case kick | snare | clap | hatclosed | hatopen | tom | perc1 | perc2 => rfl

/-- Settles O2: `decode_encode`. -/
theorem decodeEncodeRoundTrip : Obligations.DecodeEncodeRoundTrip := decode_encode

/-- Settles O1: twelve closed words. -/
theorem sampleWordsDecode : Obligations.SampleWordsDecode := by
  unfold Obligations.SampleWordsDecode
  decide

/-! ### Bytes on a channel (R63, R104) -/

/-- Eight bytes in channel order put the word together again that they were taken from. -/
theorem wordOfBytes_bytes (w : U64) :
    wordOfBytes (w.extractLsb' 0 8) (w.extractLsb' 8 8) (w.extractLsb' 16 8) (w.extractLsb' 24 8)
      (w.extractLsb' 32 8) (w.extractLsb' 40 8) (w.extractLsb' 48 8) (w.extractLsb' 56 8) = w := by
  simp only [wordOfBytes]
  ext k hk
  simp only [BitVec.getElem_append, BitVec.getElem_extractLsb']
  grind

/-- A stream that begins with the bytes of a word decodes to that word's command and leaves the rest. -/
theorem decodeBytes_bytesOfWord (w : U64) (rest : List (BitVec 8)) :
    decodeBytes (bytesOfWord w ++ rest) = (decodeCommand w).map (·, rest) := by
  rw [bytesOfWord_eq]
  simp only [List.cons_append, List.nil_append, decodeBytes, wordOfBytes_bytes]
  cases decodeCommand w <;> rfl

/-- The low half of a frame record is the right sample, the high half the left (R103). -/
theorem extractLsb'_frameRecord (l r : F32) {k n : Nat} (hk : k + n ≤ 32) :
    (Machine.frameRecord l r).extractLsb' k n = r.extractLsb' k n ∧
    (Machine.frameRecord l r).extractLsb' (32 + k) n = l.extractLsb' k n := by
  constructor
  all_goals
    ext j hj
    simp only [Machine.frameRecord, BitVec.getElem_extractLsb', BitVec.getLsbD_append]
    grind

/-- Settles O5: a command by `decodeBytes_bytesOfWord`, a frame record by the halves of the record, a status word by its
bytes. -/
theorem byteStreamDecode : Obligations.ByteStreamDecode := by
  refine ⟨fun w rest => ?command, fun l r => ?record, bytesOfWord32_eq⟩
  case command =>
    rw [decodeBytes_bytesOfWord]
    cases decodeCommand w <;> rfl
  case record =>
    have half {k : Nat} (hk : k + 8 ≤ 32) := extractLsb'_frameRecord l r hk
    refine (bytesOfWord_eq _).trans ?_
    rw [(half (k := 0) (by decide)).1, (half (k := 8) (by decide)).1, (half (k := 16) (by decide)).1,
      (half (k := 24) (by decide)).1, (half (k := 0) (by decide)).2, (half (k := 8) (by decide)).2,
      (half (k := 16) (by decide)).2, (half (k := 24) (by decide)).2]

end Sys2Proof

end

section
/-! PROOFS. Binary32 arithmetic: intervals through sums, differences and products, magnitudes through the operations,
and when a rounding is exact or how far it is off (00_scope.md R9, 40_primitives.md R130). -/

namespace Sys2Proof

/-! ### Signs, words and classes -/

section

variable {x y : F32}

theorem F32.isFinite_neg (x : F32) : F32.isFinite (F32.neg x) = F32.isFinite x := by
  simp [F32.isFinite, F32.low_neg]

theorem F32.isNaN_neg (x : F32) : F32.isNaN (F32.neg x) = F32.isNaN x := F32.isNaN_congr (F32.low_neg x)

theorem F32.val_neg (x : F32) : F32.val (F32.neg x) = -F32.val x := by
  unfold F32.val
  rw [F32.mag_eq, F32.mag_eq, F32.sign_neg, F32.low_neg]
  cases F32.sign x <;> simp

@[simp] theorem F32.neg_neg (x : F32) : F32.neg (F32.neg x) = x :=
  F32.ext_sign_low (by simp [F32.sign_neg]) (by simp [F32.low_neg])

/-- A zero is one of the two. -/
theorem F32.eq_zero_of_isZero (h : F32.isZero x = true) : x = F32.posZero ∨ x = F32.negZero := by
  have hx := F32.pack_sign_low x
  rw [F32.isZero_iff.mp h] at hx
  cases hs : F32.sign x <;> rw [hs] at hx
  · exact .inl hx.symm
  · exact .inr hx.symm

/-- Words of the same order key that is not that of the zeros are the same. -/
theorem F32.eq_of_key_eq (h : F32.key x = F32.key y) (h0 : F32.key y ≠ 0) : x = y := by
  have hx := F32.natAbs_key x
  have hy := F32.natAbs_key y
  refine F32.ext_sign_low ?_ (by omega)
  unfold F32.key at h h0
  cases hsx : F32.sign x <;> cases hsy : F32.sign y <;> simp [hsx, hsy] at h h0 ⊢ <;> omega

theorem F32.le_neg_neg (h : F32.le x y = true) : F32.le (F32.neg y) (F32.neg x) = true := by
  obtain ⟨hx, hy, hk⟩ := F32.le_iff.mp h
  rw [F32.le_iff, F32.isNaN_neg, F32.isNaN_neg, F32.key_neg, F32.key_neg]
  exact ⟨hy, hx, by omega⟩

theorem F32.val_nonneg_of_le {a : F32} (ha : F32.isFinite a = true) (ha0 : 0 ≤ F32.val a) (hx : F32.isFinite x = true)
    (h : F32.le a x = true) : 0 ≤ F32.val x :=
  ha0.trans ((F32.le_iff_val ha hx).mp h)

end

/-! ### Intervals

The ends of the operands' intervals are words written out, so that their classes and the ends of the result are found by
computation. -/

section

variable {a b c d lo hi x y : F32}

theorem F32.add_le_add (ha : F32.isFinite a = true) (hx : F32.isFinite x = true) (hc : F32.isFinite c = true)
    (hy : F32.isFinite y = true) (hax : F32.le a x = true) (hcy : F32.le c y = true) :
    F32.le (F32.add a c) (F32.add x y) = true := by
  have h := F32.add_le_add_right hc hy hx hcy
  rw [F32.add_comm_of_finite hc hx, F32.add_comm_of_finite hy hx] at h
  exact F32.le_trans (F32.add_le_add_right ha hx hc hax) h

theorem F32.mul_le_mul (ha : F32.isFinite a = true) (hx : F32.isFinite x = true) (hc : F32.isFinite c = true)
    (hy : F32.isFinite y = true) (ha0 : 0 ≤ F32.val a) (hc0 : 0 ≤ F32.val c) (hax : F32.le a x = true)
    (hcy : F32.le c y = true) : F32.le (F32.mul a c) (F32.mul x y) = true := by
  have h := F32.mul_le_mul_left ha hx hy (F32.val_nonneg_of_le hc hc0 hy hcy) hax
  rw [F32.mul_comm y a, F32.mul_comm y x] at h
  exact F32.le_trans (F32.mul_le_mul_left hc hy ha ha0 hcy) h

theorem F32.within_add (hx : F32.Within a b x) (hy : F32.Within c d y) (ha : F32.isFinite a = true := by decide)
    (hb : F32.isFinite b = true := by decide) (hc : F32.isFinite c = true := by decide)
    (hd : F32.isFinite d = true := by decide) (hlo : F32.le lo (F32.add a c) = true := by decide +kernel)
    (hhi : F32.le (F32.add b d) hi = true := by decide +kernel) : F32.Within lo hi (F32.add x y) := by
  have hfx := F32.isFinite_of_within ha hb hx
  have hfy := F32.isFinite_of_within hc hd hy
  exact ⟨F32.le_trans hlo (F32.add_le_add ha hfx hc hfy hx.1 hy.1),
    F32.le_trans (F32.add_le_add hfx hb hfy hd hx.2 hy.2) hhi⟩

theorem F32.within_neg (h : F32.Within a b x) : F32.Within (F32.neg b) (F32.neg a) (F32.neg x) :=
  ⟨F32.le_neg_neg h.2, F32.le_neg_neg h.1⟩

theorem F32.within_sub (hx : F32.Within a b x) (hy : F32.Within c d y) (ha : F32.isFinite a = true := by decide)
    (hb : F32.isFinite b = true := by decide) (hc : F32.isFinite c = true := by decide)
    (hd : F32.isFinite d = true := by decide) (hlo : F32.le lo (F32.sub a d) = true := by decide +kernel)
    (hhi : F32.le (F32.sub b c) hi = true := by decide +kernel) : F32.Within lo hi (F32.sub x y) :=
  F32.within_add hx (F32.within_neg hy) ha hb (by rwa [F32.isFinite_neg]) (by rwa [F32.isFinite_neg]) hlo hhi

/-- Products of values that are not negative. -/
theorem F32.within_mul (hx : F32.Within a b x) (hy : F32.Within c d y) (ha : F32.isFinite a = true := by decide)
    (hb : F32.isFinite b = true := by decide) (hc : F32.isFinite c = true := by decide)
    (hd : F32.isFinite d = true := by decide) (ha0 : 0 ≤ F32.val a := by decide) (hc0 : 0 ≤ F32.val c := by decide)
    (hlo : F32.le lo (F32.mul a c) = true := by decide +kernel)
    (hhi : F32.le (F32.mul b d) hi = true := by decide +kernel) : F32.Within lo hi (F32.mul x y) := by
  have hfx := F32.isFinite_of_within ha hb hx
  have hfy := F32.isFinite_of_within hc hd hy
  have hx0 := F32.val_nonneg_of_le ha ha0 hfx hx.1
  have hy0 := F32.val_nonneg_of_le hc hc0 hfy hy.1
  exact ⟨F32.le_trans hlo (F32.mul_le_mul ha hfx hc hfy ha0 hc0 hx.1 hy.1),
    F32.le_trans (F32.mul_le_mul hfx hb hfy hd hx0 hy0 hx.2 hy.2) hhi⟩

/-- The word of a positive number. -/
theorem F32.sign_low_of_val_pos (h : 0 < F32.val x) : F32.sign x = false ∧ 0 < F32.low x := by
  unfold F32.val at h
  split at h
  case isTrue => omega
  case isFalse hs =>
    refine ⟨Bool.eq_false_iff.mpr hs, Nat.pos_of_ne_zero fun h0 => ?_⟩
    rw [F32.mag_eq, h0, F32.magOf_zero] at h
    exact absurd h (by decide)

section

variable (hx : F32.isFinite x = true) (hy : F32.isFinite y = true) (hy0 : 0 < F32.val y)

include hx hy hy0

theorem F32.isNaN_div : F32.isNaN (F32.div x y) = false := by
  have hlow := (F32.sign_low_of_val_pos hy0).2
  exact F32.isNaN_eq_false_of_low_eq_roundMag (by rw [F32.div_of_finite hx hy (by omega), F32.low_round])

theorem F32.key_div_of_nonneg (hx0 : 0 ≤ F32.val x) :
    F32.key (F32.div x y) = F32.roundMag (F32.mag x * 2 ^ 149) (F32.mag y) := by
  obtain ⟨hsign, hlow⟩ := F32.sign_low_of_val_pos hy0
  rw [F32.div_of_finite hx hy (by omega), F32.key, F32.low_round, F32.sign_round, hsign]
  unfold F32.val at hx0
  split at hx0
  case isTrue hs =>
    have h0 : F32.mag x = 0 := by omega
    simp [h0, F32.roundMag_zero]
  case isFalse hs => simp [hs]

end

/-- Quotients of values that are not negative by positive ones. -/
theorem F32.div_le_div (ha : F32.isFinite a = true) (hx : F32.isFinite x = true) (hy : F32.isFinite y = true)
    (hd : F32.isFinite d = true) (ha0 : 0 ≤ F32.val a) (hy0 : 0 < F32.val y) (hax : F32.le a x = true)
    (hyd : F32.le y d = true) : F32.le (F32.div a d) (F32.div x y) = true := by
  rw [F32.le_iff_val ha hx] at hax
  rw [F32.le_iff_val hy hd] at hyd
  have hmag : F32.mag a ≤ F32.mag x ∧ F32.mag y ≤ F32.mag d ∧ 0 < F32.mag y := by
    rw [← F32.val_natAbs, ← F32.val_natAbs x, ← F32.val_natAbs y, ← F32.val_natAbs d]
    omega
  obtain ⟨hmax, hmyd, hmy⟩ := hmag
  have hd0 := hy0.trans_le hyd
  rw [F32.le_iff, F32.key_div_of_nonneg ha hd hd0 ha0, F32.key_div_of_nonneg hx hy hy0 (ha0.trans hax)]
  refine ⟨F32.isNaN_div ha hd hd0, F32.isNaN_div hx hy hy0, ?_⟩
  exact_mod_cast F32.roundMag_mono (by omega) hmy (Nat.mul_le_mul (Nat.mul_le_mul_right _ hmax) hmyd)

theorem F32.within_div (hx : F32.Within a b x) (hy : F32.Within c d y) (ha : F32.isFinite a = true := by decide)
    (hb : F32.isFinite b = true := by decide) (hc : F32.isFinite c = true := by decide)
    (hd : F32.isFinite d = true := by decide) (ha0 : 0 ≤ F32.val a := by decide)
    (hc0 : 0 < F32.val c := by decide +kernel) (hlo : F32.le lo (F32.div a d) = true := by decide +kernel)
    (hhi : F32.le (F32.div b c) hi = true := by decide +kernel) : F32.Within lo hi (F32.div x y) := by
  have hfx := F32.isFinite_of_within ha hb hx
  have hfy := F32.isFinite_of_within hc hd hy
  have hx0 := F32.val_nonneg_of_le ha ha0 hfx hx.1
  have hy0 := hc0.trans_le ((F32.le_iff_val hc hfy).mp hy.1)
  exact ⟨F32.le_trans hlo (F32.div_le_div ha hfx hfy hd ha0 hy0 hx.1 hy.2),
    F32.le_trans (F32.div_le_div hfx hb hc hfy hx0 hc0 hx.2 hy.1) hhi⟩

/-- A constant as an interval. -/
theorem F32.within_self (hx : F32.isNaN x = false := by decide) : F32.Within x x x := ⟨F32.le_self hx, F32.le_self hx⟩

theorem F32.within_mono (h : F32.Within a b x) (hlo : F32.le lo a = true := by decide)
    (hhi : F32.le b hi = true := by decide) : F32.Within lo hi x :=
  ⟨F32.le_trans hlo h.1, F32.le_trans h.2 hhi⟩

end

/-! ### Magnitudes -/

section

variable {b c x y : F32} {j k m : Nat}

/-- A magnitude from an interval whose lower end is no further out than the upper one. -/
theorem F32.low_le_of_within_of_neg_le (h : F32.Within b c x) (hb : -F32.key c ≤ F32.key b := by decide) :
    F32.low x ≤ F32.low c := by
  obtain ⟨-, -, hlow⟩ := F32.le_iff.mp h.1
  obtain ⟨-, -, hhigh⟩ := F32.le_iff.mp h.2
  rw [← F32.natAbs_key, ← F32.natAbs_key]
  omega

theorem F32.within_of_low_le (h : F32.low x ≤ F32.low c) (hc : F32.isFinite c = true := by decide)
    (hc0 : F32.sign c = false := by decide) (hb : F32.neg c = b := by decide) : F32.Within b c x := by
  subst hb
  have hx := F32.isFinite_of_low_le (F32.isFinite_iff.mp hc) h
  have hkey := F32.natAbs_key x
  rw [F32.Within, F32.le_iff, F32.le_iff, F32.isNaN_neg, F32.key_neg, F32.key_of_sign_eq_false hc0]
  have hnx := F32.not_isNaN_of_isFinite hx
  have hnc := F32.not_isNaN_of_isFinite hc
  exact ⟨⟨hnc, hnx, by omega⟩, hnx, hnc, by omega⟩

/-- The statements' form of a bound on a magnitude. -/
theorem F32.absLe_of_low_le (h : F32.low x ≤ F32.low b) (hb : F32.isFinite b = true := by decide)
    (hb0 : F32.sign b = false := by decide) : F32.AbsLe x b := by
  have hx : F32.isFinite x = true := F32.isFinite_of_low_le (F32.isFinite_iff.mp hb) h
  refine ⟨hx, F32.le_iff.mpr ⟨?_, F32.not_isNaN_of_isFinite hb, ?_⟩⟩
  · rw [F32.isNaN_congr (F32.low_abs x)]
    exact F32.not_isNaN_of_isFinite hx
  · rw [F32.key_abs, F32.key_of_sign_eq_false hb0]
    exact_mod_cast h

theorem F32.low_le_of_absLe (h : F32.AbsLe x b) (hb0 : F32.sign b = false := by decide) : F32.low x ≤ F32.low b := by
  obtain ⟨-, -, hkey⟩ := F32.le_iff.mp h.2
  rw [F32.key_abs, F32.key_of_sign_eq_false hb0] at hkey
  exact_mod_cast hkey

theorem F32.low_add_le_of (hx : F32.low x ≤ j) (hy : F32.low y ≤ k) (hj : j < F32.infLow := by decide)
    (hk : k < F32.infLow := by decide) (hm : F32.roundMag (F32.magOf j + F32.magOf k) 1 ≤ m := by decide +kernel) :
    F32.low (F32.add x y) ≤ m := (F32.low_add_le hj hk hx hy).trans hm

theorem F32.low_sub_le_of (hx : F32.low x ≤ j) (hy : F32.low y ≤ k) (hj : j < F32.infLow := by decide)
    (hk : k < F32.infLow := by decide) (hm : F32.roundMag (F32.magOf j + F32.magOf k) 1 ≤ m := by decide +kernel) :
    F32.low (F32.sub x y) ≤ m := (F32.low_sub_le hj hk hx hy).trans hm

theorem F32.low_mul_le_of (hx : F32.low x ≤ j) (hy : F32.low y ≤ k) (hj : j < F32.infLow := by decide)
    (hk : k < F32.infLow := by decide)
    (hm : F32.roundMag (F32.magOf j * F32.magOf k) (2 ^ 149) ≤ m := by decide +kernel) :
    F32.low (F32.mul x y) ≤ m := (F32.low_mul_le hj hk hx hy).trans hm

end

/-! ### Exact and nearly exact roundings -/

/-- A significand of at most 24 bits at an exponent of the format is a magnitude. -/
theorem F32.exists_magOf (q : Nat) {r : Nat} (hr : r < 2 ^ 24) :
    ∃ k, k < q * 2 ^ 23 + 2 ^ 24 ∧ F32.magOf k = r * 2 ^ q := by
  induction q generalizing r with
  | zero => exact ⟨r, by omega, by simpa using F32.magOf_add (q := 0) (.inl rfl) hr⟩
  | succ q ih =>
    rcases Nat.lt_or_ge r (2 ^ 23) with hsmall | hbig
    · obtain ⟨k, hk, he⟩ := ih (r := 2 * r) (by omega)
      exact ⟨k, by linarith, by rw [he, pow_succ]; ring⟩
    · exact ⟨(q + 1) * 2 ^ 23 + r, by omega, F32.magOf_add (.inr hbig) hr⟩

/-- Rounding keeps what the format represents. -/
theorem F32.magOf_roundMag_of_representable {q r d : Nat} (hr : r < 2 ^ 24) (hq : q ≤ 253) (hd : 0 < d) :
    F32.roundMag (r * 2 ^ q * d) d < F32.infLow ∧ F32.magOf (F32.roundMag (r * 2 ^ q * d) d) = r * 2 ^ q := by
  obtain ⟨k, hk, he⟩ := F32.exists_magOf q hr
  have hinf : F32.infLow = 255 * 2 ^ 23 := by decide
  rw [← he, F32.roundMag_exact hd (by omega)]
  exact ⟨by omega, rfl⟩

theorem F32.divEven_error {n d : Nat} (hd : 0 < d) :
    2 * (F32.divEven n d * d) ≤ 2 * n + d ∧ 2 * n ≤ 2 * (F32.divEven n d * d) + d := by
  have hdm := Nat.div_add_mod n d
  have hr := Nat.mod_lt n hd
  unfold F32.divEven
  split
  case isTrue =>
    rw [Nat.add_mul, Nat.mul_comm (n / d) d]
    omega
  case isFalse =>
    rw [Nat.mul_comm (n / d) d]
    omega

/-- The rounding error of a sum below `2^(e+25)` units is at most `2^e` units: half a unit in the last place. -/
theorem F32.roundMag_error {n e : Nat} (hn : n < 2 ^ (e + 25)) (he : e ≤ 251) :
    F32.roundMag n 1 < F32.infLow ∧
    F32.magOf (F32.roundMag n 1) ≤ n + 2 ^ e ∧ n ≤ F32.magOf (F32.roundMag n 1) + 2 ^ e := by
  obtain ⟨hlt, hge⟩ := F32.significand_bounds n 1
  have hq : F32.roundExp n 1 ≤ e + 1 := by
    unfold F32.roundExp
    rw [Nat.div_one]
    rcases Nat.eq_zero_or_pos n with rfl | hpos
    · exact Nat.zero_le _
    · have := (Nat.log2_lt hpos.ne').mpr hn
      omega
  have hround : F32.roundMag n 1 =
      min (F32.roundExp n 1 * 2 ^ 23 + F32.divEven n (1 * 2 ^ F32.roundExp n 1)) F32.infLow := rfl
  generalize F32.roundExp n 1 = q at *
  rw [Nat.one_mul] at *
  have hle := F32.divEven_le n (2 ^ q)
  have hlow := F32.le_divEven n (2 ^ q)
  have hinf : F32.infLow = 255 * 2 ^ 23 := by decide
  rw [min_eq_left (by omega)] at hround
  have hmag : F32.magOf (F32.roundMag n 1) = F32.divEven n (2 ^ q) * 2 ^ q := by
    rw [hround, F32.magOf_succ_significand (by omega) (by omega)]
  have hpow : 2 ^ q ≤ 2 * 2 ^ e := by
    rw [← pow_succ']
    exact Nat.pow_le_pow_right (by decide) hq
  obtain ⟨hup, hdown⟩ := F32.divEven_error (n := n) (d := 2 ^ q) (by positivity)
  exact ⟨by omega, by omega, by omega⟩

section

variable {x y : F32}

/-- The number a word stands for is its sign and the magnitude of its low word. -/
theorem F32.val_of_sign_low (x : F32) :
    F32.val x = if F32.sign x then -(F32.magOf (F32.low x) : Int) else (F32.magOf (F32.low x) : Int) := by
  unfold F32.val
  rw [F32.mag_eq]

theorem F32.val_addFinite (x y : F32) : F32.val (F32.addFinite x y) =
    if F32.val x + F32.val y < 0 then -(F32.magOf (F32.roundMag (F32.val x + F32.val y).natAbs 1) : Int)
    else (F32.magOf (F32.roundMag (F32.val x + F32.val y).natAbs 1) : Int) := by
  rw [F32.val_of_sign_low, F32.low_addFinite, F32.addFinite]
  by_cases h0 : F32.val x + F32.val y = 0
  · simp [h0, F32.roundMag_zero, F32.magOf_zero]
  · simp [h0, F32.sign_round]

/-- A sum below `2^(e+25)` units is finite and at most `2^e` units off. -/
theorem F32.val_add_error {e : Nat} (hx : F32.isFinite x = true) (hy : F32.isFinite y = true)
    (hn : (F32.val x + F32.val y).natAbs < 2 ^ (e + 25)) (he : e ≤ 251) :
    F32.isFinite (F32.add x y) = true ∧
    F32.val (F32.add x y) ≤ F32.val x + F32.val y + 2 ^ e ∧ F32.val x + F32.val y ≤ F32.val (F32.add x y) + 2 ^ e := by
  obtain ⟨hinf, hup, hdown⟩ := F32.roundMag_error hn he
  rw [F32.add_of_finite hx hy, F32.isFinite_iff, F32.low_addFinite, F32.val_addFinite]
  have hcast : ((2 ^ e : Nat) : Int) = 2 ^ e := by push_cast; rfl
  rw [← hcast]
  generalize 2 ^ e = E at *
  refine ⟨hinf, ?_⟩
  split <;> constructor <;> omega

/-- A sum that is representable is exact. -/
theorem F32.val_add_exact {q r : Nat} (hx : F32.isFinite x = true) (hy : F32.isFinite y = true)
    (h : (F32.val x + F32.val y).natAbs = r * 2 ^ q) (hr : r < 2 ^ 24) (hq : q ≤ 253) :
    F32.isFinite (F32.add x y) = true ∧ F32.val (F32.add x y) = F32.val x + F32.val y := by
  obtain ⟨hinf, hmag⟩ := F32.magOf_roundMag_of_representable hr hq Nat.one_pos
  rw [Nat.mul_one, ← h] at hinf hmag
  rw [F32.add_of_finite hx hy, F32.isFinite_iff, F32.low_addFinite, F32.val_addFinite, hmag]
  refine ⟨hinf, ?_⟩
  split <;> omega

/-- A product that is representable is exact. -/
theorem F32.val_mul_exact {q r : Nat} (hx : F32.isFinite x = true) (hy : F32.isFinite y = true)
    (h : F32.val x * F32.val y = (r * 2 ^ q : Nat) * 2 ^ 149) (hr : r < 2 ^ 24) (hq : q ≤ 253) :
    F32.isFinite (F32.mul x y) = true ∧ F32.val (F32.mul x y) = (r * 2 ^ q : Nat) := by
  obtain ⟨hinf, hmag⟩ := F32.magOf_roundMag_of_representable hr hq (d := 2 ^ 149) (by decide)
  have hn : F32.mag x * F32.mag y = r * 2 ^ q * 2 ^ 149 := by
    rw [← F32.val_natAbs, ← F32.val_natAbs, ← Int.natAbs_mul, h]
    exact_mod_cast Int.natAbs_natCast _
  rw [F32.isFinite_iff, F32.val_of_sign_low, F32.mul_of_finite hx hy, F32.low_round, F32.sign_round, hn, hmag]
  refine ⟨hinf, ?_⟩
  by_cases h0 : r * 2 ^ q = 0
  · simp [h0]
  · have hpos : ¬(F32.sign x != F32.sign y) = true := by
      rw [← F32.val_mul_val_neg_iff (by rw [hn]; positivity), h]
      exact not_lt.mpr (by positivity)
    rw [if_neg hpos]

end

/-! ### The four operators round once (R9, R130) -/

section

variable {x y : F32}

theorem F32.toRat_eq (x : F32) : (F32.toRat x : ℝ) = (F32.val x : ℝ) / 2 ^ 149 := by
  unfold F32.toRat
  push_cast
  rfl

theorem F32.val_cast (x : F32) : (F32.val x : ℝ) = if F32.sign x then -(F32.mag x : ℝ) else (F32.mag x : ℝ) := by
  unfold F32.val
  split <;> push_cast <;> rfl

theorem F32.roundsTo_add (hx : F32.isFinite x = true) (hy : F32.isFinite y = true) :
    F32.RoundsTo ((F32.toRat x : ℝ) + F32.toRat y) (F32.add x y) := by
  have hsum : (F32.toRat x : ℝ) + F32.toRat y = ((F32.val x + F32.val y : Int) : ℝ) / 2 ^ 149 := by
    rw [F32.toRat_eq, F32.toRat_eq]
    push_cast
    ring
  rw [hsum, F32.add_of_finite hx hy, F32.addFinite]
  generalize F32.val x + F32.val y = v
  have hround := F32.roundsTo_round (decide (v < 0)) (n := v.natAbs) Nat.one_pos
  rcases lt_trichotomy v 0 with hneg | rfl | hpos
  · rw [Nat.cast_natAbs, abs_of_neg hneg] at hround
    simpa [hneg, hneg.ne] using hround
  · have hzero : ∀ b, F32.RoundsTo 0 (F32.round b 0 1) := fun b => by
      simpa using F32.roundsTo_round b (n := 0) Nat.one_pos
    simp only [if_true, Int.cast_zero, zero_div]
    split
    · exact hzero true
    · exact hzero false
  · rw [Nat.cast_natAbs, abs_of_pos hpos] at hround
    simpa [hpos.ne', hpos.not_gt] using hround

theorem F32.roundsTo_sub (hx : F32.isFinite x = true) (hy : F32.isFinite y = true) :
    F32.RoundsTo ((F32.toRat x : ℝ) - F32.toRat y) (F32.sub x y) := by
  have h := F32.roundsTo_add hx (y := F32.neg y) (by rwa [F32.isFinite_neg])
  rw [F32.toRat_eq (F32.neg y), F32.val_neg, Int.cast_neg, neg_div, ← F32.toRat_eq, ← sub_eq_add_neg] at h
  exact h

theorem F32.roundsTo_mul (hx : F32.isFinite x = true) (hy : F32.isFinite y = true) :
    F32.RoundsTo ((F32.toRat x : ℝ) * F32.toRat y) (F32.mul x y) := by
  have h := F32.roundsTo_round (F32.sign x != F32.sign y) (n := F32.mag x * F32.mag y) (d := 2 ^ 149) (by decide)
  rw [F32.mul_of_finite hx hy, F32.toRat_eq, F32.toRat_eq, F32.val_cast, F32.val_cast]
  convert h using 1
  cases F32.sign x <;> cases F32.sign y <;> simp <;> ring

theorem F32.mag_pos_of_isZero_eq_false (hy : F32.isFinite y = true) (h0 : F32.isZero y = false) : 0 < F32.mag y := by
  have hlow : 0 < F32.low y := Nat.pos_of_ne_zero fun h => by simp [F32.isZero, h] at h0
  have := F32.magOf_strictMono (F32.isFinite_iff.mp hy).le hlow
  rw [F32.mag_eq]
  omega

theorem F32.roundsTo_div (hx : F32.isFinite x = true) (hy : F32.isFinite y = true) (h0 : F32.isZero y = false) :
    F32.RoundsTo ((F32.toRat x : ℝ) / F32.toRat y) (F32.div x y) := by
  have hpos := F32.mag_pos_of_isZero_eq_false hy h0
  have hposR : (F32.mag y : ℝ) ≠ 0 := by exact_mod_cast hpos.ne'
  have hP : (2 : ℝ) ^ 149 ≠ 0 := by positivity
  have h := F32.roundsTo_round (F32.sign x != F32.sign y) (n := F32.mag x * 2 ^ 149) hpos
  rw [F32.div_of_finite hx hy (fun h => by simp [F32.isZero, h] at h0), F32.toRat_eq, F32.toRat_eq, F32.val_cast,
    F32.val_cast]
  rw [Nat.cast_mul, Nat.cast_pow, Nat.cast_ofNat] at h
  convert h using 1
  generalize (2 : ℝ) ^ 149 = P at hP ⊢
  cases F32.sign x <;> cases F32.sign y <;> simp <;> field_simp

theorem F32.sign_mul (hx : F32.isFinite x = true) (hy : F32.isFinite y = true) :
    F32.sign (F32.mul x y) = (F32.sign x ^^ F32.sign y) := by
  rw [F32.mul_of_finite hx hy, F32.sign_round]

theorem F32.sign_div (hx : F32.isFinite x = true) (hy : F32.isFinite y = true) (h0 : F32.isZero y = false) :
    F32.sign (F32.div x y) = (F32.sign x ^^ F32.sign y) := by
  rw [F32.div_of_finite hx hy (fun h => by simp [F32.isZero, h] at h0), F32.sign_round]

theorem F32.add_of_sum_eq_zero (hx : F32.isFinite x = true) (hy : F32.isFinite y = true)
    (h : F32.toRat x + F32.toRat y = 0) :
    F32.add x y = if F32.sign x && F32.sign y then F32.negZero else F32.posZero := by
  have hval : F32.val x + F32.val y = 0 := by
    rw [F32.toRat, F32.toRat, ← add_div, div_eq_zero_iff] at h
    exact_mod_cast h.resolve_right (by positivity)
  simp [F32.add_of_finite hx hy, F32.addFinite, hval]

end

/-- Settles O36: one lemma an operator, each a case of `F32.roundsTo_round`, and one for each sign. -/
theorem arithmeticRoundsOnce : Obligations.ArithmeticRoundsOnce :=
  fun _ _ hx hy => ⟨F32.roundsTo_add hx hy, F32.roundsTo_sub hx hy, F32.roundsTo_mul hx hy, F32.sign_mul hx hy,
    F32.add_of_sum_eq_zero hx hy, fun h0 => ⟨F32.roundsTo_div hx hy h0, F32.sign_div hx hy h0⟩⟩

end Sys2Proof

end

section
/-! PROOFS. The primitives (40_primitives.md R120 to R122, R127, R128): CLAMP on every word, the generator as a
congruence, the bipolar value as a number, the oddness of SOFTSAT; and SETRATE's conditioning of its operand
(44_scheduler_commands.md R213), which is a CLAMP. -/

namespace Sys2Proof

/-! ### Negation through the operations -/

section

variable {x y : F32}

theorem F32.round_not (b : Bool) (n d : Nat) : F32.round (!b) n d = F32.neg (F32.round b n d) :=
  F32.ext_sign_low (by simp [F32.sign_neg, F32.sign_round]) (by simp [F32.low_neg, F32.low_round])

theorem F32.mag_neg (x : F32) : F32.mag (F32.neg x) = F32.mag x := by
  rw [F32.mag_eq, F32.mag_eq, F32.low_neg]

theorem F32.mul_neg_left (hx : F32.isFinite x = true) (hy : F32.isFinite y = true) :
    F32.mul (F32.neg x) y = F32.neg (F32.mul x y) := by
  rw [F32.mul_of_finite ((F32.isFinite_neg x).trans hx) hy, F32.mul_of_finite hx hy, F32.mag_neg, F32.sign_neg,
    Bool.not_bne, F32.round_not]

theorem F32.mul_neg_neg (hx : F32.isFinite x = true) (hy : F32.isFinite y = true) :
    F32.mul (F32.neg x) (F32.neg y) = F32.mul x y := by
  rw [F32.mul_neg_left hx ((F32.isFinite_neg y).trans hy), F32.mul_comm x, F32.mul_neg_left hy hx, F32.neg_neg,
    F32.mul_comm]

theorem F32.div_neg_left (hx : F32.isFinite x = true) (hy : F32.isFinite y = true) (h0 : F32.low y ≠ 0) :
    F32.div (F32.neg x) y = F32.neg (F32.div x y) := by
  rw [F32.div_of_finite ((F32.isFinite_neg x).trans hx) hy h0, F32.div_of_finite hx hy h0, F32.mag_neg, F32.sign_neg,
    Bool.not_bne, F32.round_not]

theorem F32.le_neg_left (x y : F32) : F32.le (F32.neg x) y = F32.le (F32.neg y) x := by
  rw [Bool.eq_iff_iff]
  constructor
  · intro h
    simpa using F32.le_neg_neg h
  · intro h
    simpa using F32.le_neg_neg h

theorem F32.lt_posInf (hx : F32.isFinite x = true) : F32.lt x F32.posInf = true := by
  have hkey := F32.natAbs_key x
  have hlow := F32.isFinite_iff.mp hx
  have hinf : F32.key F32.posInf = (F32.infLow : Nat) := by decide
  exact F32.lt_iff.mpr ⟨F32.not_isNaN_of_isFinite hx, by decide, by omega⟩

theorem F32.negInf_le (hx : F32.isFinite x = true) : F32.le F32.negInf x = true := by
  have h := F32.le_neg_neg (F32.le_of_lt (F32.lt_posInf (x := F32.neg x) (by rwa [F32.isFinite_neg])))
  rwa [F32.neg_neg] at h

/-- A value no less than one that is not negative is no smaller in magnitude. -/
theorem F32.low_le_low_of_le (h : F32.le x y = true) (hx : F32.sign x = false := by decide) :
    F32.low x ≤ F32.low y := by
  have hkey := (F32.le_iff.mp h).2.2
  rw [F32.key_of_sign_eq_false hx] at hkey
  rw [← F32.natAbs_key y]
  omega

/-- A square is not negative. -/
theorem F32.square_within {c d : F32} (h : F32.low x ≤ F32.low c) (hc : F32.isFinite c = true := by decide)
    (hd : F32.isFinite d = true := by decide) (hd0 : F32.sign d = false := by decide)
    (hm : F32.roundMag (F32.magOf (F32.low c) * F32.magOf (F32.low c)) (2 ^ 149) ≤ F32.low d := by decide +kernel) :
    F32.Within Lit.c0 d (F32.mul x x) := by
  have hc := F32.isFinite_iff.mp hc
  have hx := F32.isFinite_of_low_le hc h
  have hlow := F32.low_mul_le_of h h hc hc hm
  have hsign : F32.sign (F32.mul x x) = false := by rw [F32.sign_mul hx hx, Bool.xor_self]
  have hfin := F32.isFinite_of_low_le (F32.isFinite_iff.mp hd) hlow
  have hnx := F32.not_isNaN_of_isFinite hfin
  have hkey : F32.key Lit.c0 = 0 := by decide
  rw [F32.Within, F32.le_iff, F32.le_iff, F32.key_of_sign_eq_false hsign, F32.key_of_sign_eq_false hd0, hkey]
  exact ⟨⟨by decide, hnx, by omega⟩, hnx, F32.not_isNaN_of_isFinite hd, by exact_mod_cast hlow⟩

end

namespace Machine

open Sys2Proof.Claims

/-! ### CLAMP (R120) -/

section

variable {a b x lo hi : F32}

theorem fmax_of_isNaN (h : F32.isNaN x = true) : fmax x lo = lo := by
  simp [fmax, F32.lt, h]

theorem key_fmax (ha : F32.isNaN a = false) (hb : F32.isNaN b = false) :
    F32.isNaN (fmax a b) = false ∧ F32.key (fmax a b) = max (F32.key a) (F32.key b) := by
  unfold fmax
  split
  case isTrue h => exact ⟨ha, (max_eq_left (F32.lt_iff.mp h).2.2.le).symm⟩
  case isFalse h => exact ⟨hb, (max_eq_right (F32.le_iff.mp (F32.le_of_not_lt hb ha h)).2.2).symm⟩

theorem key_fmin (ha : F32.isNaN a = false) (hb : F32.isNaN b = false) :
    F32.isNaN (fmin a b) = false ∧ F32.key (fmin a b) = min (F32.key a) (F32.key b) := by
  unfold fmin
  split
  case isTrue h => exact ⟨ha, (min_eq_left (F32.lt_iff.mp h).2.2.le).symm⟩
  case isFalse h => exact ⟨hb, (min_eq_right (F32.le_iff.mp (F32.le_of_not_lt ha hb h)).2.2).symm⟩

/-- CLAMP keeps the value of an operand between the bounds. -/
theorem clamp_eq_value (h : F32.Within lo hi x) : F32.eq (clamp x lo hi) x = true := by
  obtain ⟨hlo, hx, hlow⟩ := F32.le_iff.mp h.1
  obtain ⟨-, hhi, hhigh⟩ := F32.le_iff.mp h.2
  obtain ⟨hmaxNaN, hmax⟩ := key_fmax hx hlo
  obtain ⟨hminNaN, hmin⟩ := key_fmin hmaxNaN hhi
  refine F32.eq_iff.mpr ⟨hminNaN, hx, ?_⟩
  rw [clamp, hmin, hmax, max_eq_left hlow, min_eq_left hhigh]

/-- Between bounds of one sign there is one word a value, so CLAMP keeps the word too. -/
theorem clamp_eq_self (h : F32.Within lo hi x) (hlo : 0 < F32.key lo := by decide) : clamp x lo hi = x := by
  obtain ⟨-, -, hkey⟩ := F32.eq_iff.mp (clamp_eq_value h)
  have := (F32.le_iff.mp h.1).2.2
  exact F32.eq_of_key_eq hkey (by omega)

theorem clamp_of_isNaN (h : F32.isNaN x = true) : clamp x lo hi = fmin lo hi := by
  rw [clamp, fmax_of_isNaN h]

theorem clamp_of_le_lo (hx : F32.le x lo = true) (h : F32.lt lo hi = true) : clamp x lo hi = lo := by
  have hmax : fmax x lo = lo := if_neg fun hlt => by
    have := (F32.lt_iff.mp hlt).2.2
    have := (F32.le_iff.mp hx).2.2
    omega
  rw [clamp, hmax, fmin, if_pos h]

theorem clamp_of_between (hlo : F32.lt lo x = true) (hhi : F32.lt x hi = true) : clamp x lo hi = x := by
  rw [clamp, fmax, if_pos hlo, fmin, if_pos hhi]

/-- What FMIN answers when its first operand is no less than its second. -/
theorem fmin_of_ge (h : F32.le hi x = true) : fmin x hi = hi := if_neg fun hlt => by
  have := (F32.lt_iff.mp hlt).2.2
  have := (F32.le_iff.mp h).2.2
  omega

theorem clamp_of_hi_le (hx : F32.le hi x = true) (h : F32.lt lo hi = true) : clamp x lo hi = hi := by
  have hmax : fmax x lo = x := if_pos <| by
    obtain ⟨hlo, -, hlt⟩ := F32.lt_iff.mp h
    obtain ⟨-, hx, hle⟩ := F32.le_iff.mp hx
    exact F32.lt_iff.mpr ⟨hlo, hx, hlt.trans_le hle⟩
  rw [clamp, hmax, fmin_of_ge hx]

/-- Crossed bounds give the upper one. -/
theorem clamp_of_crossed (h : F32.lt hi lo = true) : clamp x lo hi = hi :=
  fmin_of_ge (F32.le_trans (F32.le_of_lt h) (le_fmax (F32.lt_iff.mp h).2.1))

theorem clamp_posInf (hlo : F32.isFinite lo = true) (hhi : F32.isFinite hi = true) : clamp F32.posInf lo hi = hi := by
  rw [clamp, fmax, if_pos (F32.lt_posInf hlo), fmin_of_ge (F32.le_of_lt (F32.lt_posInf hhi))]

end

/-- Settles O41: one lemma a case of the operand and the bounds. -/
theorem clampOnEveryWord : Obligations.ClampOnEveryWord :=
  ⟨fun _ _ => ⟨rfl, rfl⟩, fun x _ _ => ⟨rfl, clamp_of_isNaN, fun h => clamp_within h x, clamp_eq_value,
    clamp_of_crossed, fun hlo hhi => ⟨clamp_posInf hlo hhi, clamp_of_le_lo (F32.negInf_le hlo)⟩, by decide⟩⟩

/-! ### SETRATE's operand (R213) -/

/-- An operand in the range is stored as it is. -/
theorem conditionedRate_of_within {d : F32} (h : F32.Within Lit.c1 Lit.c192000 d) : conditionedRate d = d :=
  clamp_eq_self (lo := Config.srMin) h

theorem conditionedRate_within (d : F32) : F32.Within Lit.c1 Lit.c192000 (conditionedRate d) :=
  clamp_within (by decide) d

/-- The conditioned rate equals the operand exactly when the operand is in the range. -/
theorem eq_conditionedRate (d : F32) :
    F32.eq (conditionedRate d) d = true ↔ F32.Within Lit.c1 Lit.c192000 d := by
  refine ⟨fun h => ?_, fun h => clamp_eq_value h⟩
  obtain ⟨hlo, hhi⟩ := conditionedRate_within d
  obtain ⟨-, hd, hkey⟩ := F32.eq_iff.mp h
  rw [F32.Within, F32.le_iff, F32.le_iff, ← hkey]
  exact ⟨⟨by decide, hd, (F32.le_iff.mp hlo).2.2⟩, hd, by decide, (F32.le_iff.mp hhi).2.2⟩

theorem flagRate_sticky_of_within {d : F32} (s : State) (h : F32.Within Lit.c1 Lit.c192000 d) :
    (flagRate d s).sticky = s.sticky := by
  simp [flagRate_sticky, (eq_conditionedRate d).mpr h]

theorem flagRate_sticky_of_not_within {d : F32} (s : State) (h : ¬F32.Within Lit.c1 Lit.c192000 d) :
    (flagRate d s).sticky = { s.sticky with ratefix := true } := by
  have : F32.eq (conditionedRate d) d = false := Bool.eq_false_iff.mpr ((eq_conditionedRate d).not.mpr h)
  simp [flagRate_sticky, this]

/-- Settles O12: the rate by the cases of CLAMP, the flag by `eq_conditionedRate`. -/
theorem setrateConditionsEveryOperand : Obligations.SetrateConditionsEveryOperand := by
  intro d s
  refine ⟨setRate Config.params d s, rfl, conditionedRate_within d, fun h => ?inRange, fun h => ?low, fun h => ?high,
    flagRate_sticky_of_not_within s⟩
  case inRange => exact ⟨conditionedRate_of_within h, flagRate_sticky_of_within s h⟩
  case low =>
    rcases h with h | h
    · exact clamp_of_isNaN h
    · exact clamp_of_le_lo (F32.le_of_lt h) (by decide)
  case high => exact clamp_of_hi_le (F32.le_of_lt h) (by decide)

/-! ### LCG and the bipolar value (R121, R122) -/

/-- The predecessor of a PRNG state: 4276115653 is the inverse of 1664525 modulo 2^32. -/
def lcgInverse (t : U32) : U32 := 4276115653#32 * (t - 1013904223#32)

theorem lcgInverse_lcg (s : U32) : lcgInverse (lcg s) = s := by
  have hinv : 4276115653#32 * 1664525#32 = 1#32 := by decide
  rw [lcgInverse, lcg, BitVec.add_comm, BitVec.add_sub_cancel, ← BitVec.mul_assoc, hinv, BitVec.one_mul]

theorem lcg_lcgInverse (t : U32) : lcg (lcgInverse t) = t := by
  have hinv : 1664525#32 * 4276115653#32 = 1#32 := by decide
  rw [lcg, lcgInverse, ← BitVec.mul_assoc, hinv, BitVec.one_mul, BitVec.add_comm, BitVec.sub_add_cancel]

/-- Settles O42: the arithmetic of words modulo 2^32, and the inverse of the multiplier. -/
theorem lcgIsTheCongruence : Obligations.LcgIsTheCongruence := by
  refine ⟨fun s => ?_, Function.bijective_iff_has_inverse.mpr ⟨lcgInverse, lcgInverse_lcg, lcg_lcgInverse⟩⟩
  rw [lcg, BitVec.toNat_add, BitVec.toNat_mul]
  simp only [BitVec.toNat_ofNat]
  omega

/-- The float in [1, 2) whose fraction is the top 23 bits of the state. -/
theorem val_unitFloat (s : U32) :
    F32.val (0x3F800000#32 ||| (s >>> 9)) = ((2 ^ 23 + s.toNat / 2 ^ 9) * 2 ^ 126 : Nat) := by
  have htop : s.toNat / 2 ^ 9 < 2 ^ 23 := by omega
  have hword : (0x3F800000#32 ||| (s >>> 9)).toNat = 126 * 2 ^ 23 + (2 ^ 23 + s.toNat / 2 ^ 9) := by
    have hsum : 126 * 2 ^ 23 + (2 ^ 23 + s.toNat / 2 ^ 9) = 2 ^ 23 * 127 + s.toNat / 2 ^ 9 := by omega
    rw [hsum, Nat.two_pow_add_eq_or_of_lt htop, ← Nat.shiftRight_eq_div_pow]
    simp
  have hsign : F32.sign (0x3F800000#32 ||| (s >>> 9)) = false := decide_eq_false (by rw [hword]; omega)
  have hlow : F32.low (0x3F800000#32 ||| (s >>> 9)) = 126 * 2 ^ 23 + (2 ^ 23 + s.toNat / 2 ^ 9) := by
    rw [F32.low, hword, Nat.mod_eq_of_lt (by omega)]
  rw [F32.val_of_sign_low, hsign, hlow, F32.magOf_add (.inr (by omega)) (by omega)]
  rfl

/-- Twice the float, less 3, both exact: `m / 2^22 - 1` with `m` the top 23 bits. -/
theorem val_bipolarOf (s : U32) : F32.isFinite (bipolarOf s) = true ∧
    F32.val (bipolarOf s) = ((s.toNat / 2 ^ 9 : Nat) - 2 ^ 22 : Int) * 2 ^ 127 := by
  have htop : s.toNat / 2 ^ 9 < 2 ^ 23 := by omega
  have hunit := val_unitFloat s
  have hfin := F32.isFinite_of_within (by decide) (by decide) (unitFloat_within s)
  rw [bipolarOf, F32.sub]
  generalize s.toNat / 2 ^ 9 = m at *
  have htwo : F32.val Lit.c2 = 2 ^ 150 := by decide +kernel
  have hthree : F32.val (F32.neg Lit.c3) = -(3 * 2 ^ 149) := by decide +kernel
  obtain ⟨hdoubleFin, hdouble⟩ := F32.val_mul_exact (q := 127) (r := 2 ^ 23 + m) hfin (y := Lit.c2) (by decide)
    (by rw [hunit, htwo]; push_cast; ring) (by omega) (by decide)
  have hsum : F32.val (F32.mul (0x3F800000#32 ||| (s >>> 9)) Lit.c2) + F32.val (F32.neg Lit.c3) =
      ((m : Int) - 2 ^ 22) * 2 ^ 127 := by
    rw [hdouble, hthree]
    push_cast
    ring
  rw [← hsum]
  refine F32.val_add_exact (q := 127) (r := ((m : Int) - 2 ^ 22).natAbs) hdoubleFin (by decide) ?_ (by omega)
    (by decide)
  rw [hsum, Int.natAbs_mul]
  rfl

/-- Settles O43: the value by `val_bipolarOf`, its range by the ends of the generator's range. -/
theorem bipolarIsExact : Obligations.BipolarIsExact := by
  intro s
  obtain ⟨hfin, hval⟩ := val_bipolarOf s
  obtain ⟨hlo, hhi⟩ := bipolarOf_within s
  refine ⟨hfin, hval, hlo, F32.lt_iff.mpr ⟨F32.not_isNaN_of_isFinite hfin, by decide, ?_⟩⟩
  exact (F32.le_iff.mp hhi).2.2.trans_lt (by decide)

/-! ### SOFTSAT and FLUSH (R127, R128) -/

section

variable {x : F32}

theorem softsat_of_ge (h : F32.le Lit.c3 x = true) : softsat x = Lit.c1 := if_pos h

theorem softsat_of_le (h : F32.le x Lit.n3 = true) : softsat x = Lit.n1 := by
  have hge : ¬F32.le Lit.c3 x = true := fun h' => absurd (F32.le_trans h' h) (by decide)
  rw [softsat, if_neg hge, if_pos h]

theorem softsat_of_isNaN (h : F32.isNaN x = true) : softsat x = Lit.c0 := by
  simp [softsat, F32.le, F32.eq, h]

theorem softsat_of_between (hlo : F32.lt Lit.n3 x = true) (hhi : F32.lt x Lit.c3 = true) :
    softsat x = softsatMid x := by
  obtain ⟨-, hx, hlow⟩ := F32.lt_iff.mp hlo
  obtain ⟨-, -, hhigh⟩ := F32.lt_iff.mp hhi
  have hge : ¬F32.le Lit.c3 x = true := fun h => by have := (F32.le_iff.mp h).2.2; omega
  have hle : ¬F32.le x Lit.n3 = true := fun h => by have := (F32.le_iff.mp h).2.2; omega
  have heq : ¬(!F32.eq x x) = true := by simp [F32.eq, hx]
  rw [softsat, if_neg hge, if_neg hle, if_neg heq]

/-- A number is at one of the two ends of SOFTSAT or between them. -/
theorem softsat_cases (hx : F32.isNaN x = false) :
    F32.le Lit.c3 x = true ∨ F32.le x Lit.n3 = true ∨ F32.lt Lit.n3 x = true ∧ F32.lt x Lit.c3 = true := by
  cases hge : F32.le Lit.c3 x
  case true => exact .inl rfl
  cases hle : F32.le x Lit.n3
  case true => exact .inr (.inl rfl)
  exact .inr (.inr ⟨F32.lt_of_not_le hx (by decide) hle, F32.lt_of_not_le (by decide) hx hge⟩)

/-- CLAMP to [-1, 1] is odd. -/
theorem clamp_neg (hx : F32.isNaN x = false) :
    clamp (F32.neg x) Lit.n1 Lit.c1 = F32.neg (clamp x Lit.n1 Lit.c1) := by
  have hunit : F32.lt Lit.n1 Lit.c1 = true := by decide
  have hflip : F32.le (F32.neg x) Lit.n1 = F32.le Lit.c1 x := F32.le_neg_left x Lit.n1
  have hflip' : F32.le Lit.c1 (F32.neg x) = F32.le x Lit.n1 := by
    have := F32.le_neg_left Lit.n1 (F32.neg x)
    rwa [F32.neg_neg] at this
  have hnx := (F32.isNaN_neg x).trans hx
  cases hhi : F32.le Lit.c1 x
  case true =>
    rw [clamp_of_hi_le hhi hunit, clamp_of_le_lo (hflip.trans hhi) hunit]
    decide
  cases hlo : F32.le x Lit.n1
  case true =>
    rw [clamp_of_le_lo hlo hunit, clamp_of_hi_le (hflip'.trans hlo) hunit]
    decide
  rw [clamp_of_between (F32.lt_of_not_le hx (by decide) hlo) (F32.lt_of_not_le (by decide) hx hhi),
    clamp_of_between (F32.lt_of_not_le hnx (by decide) (hflip.trans hhi))
      (F32.lt_of_not_le (by decide) hnx (hflip'.trans hlo))]

/-- The rational part of SOFTSAT is odd: the square and so the denominator are even, and no operand of the quotient
overflows. -/
theorem softsatMid_neg (h : F32.Within Lit.n3 Lit.c3 x) : softsatMid (F32.neg x) = F32.neg (softsatMid x) := by
  have hlow : F32.low x ≤ F32.low Lit.c3 := F32.low_le_of_within (by decide) h
  have hx := F32.isFinite_of_low_le (by decide) hlow
  have hsq : F32.Within Lit.c0 Lit.c9 (F32.mul x x) := F32.square_within hlow
  have hfactor : F32.Within Lit.c27 0x42100000#32 (F32.add Lit.c27 (F32.mul x x)) :=
    F32.within_add F32.within_self hsq
  have hden : F32.Within Lit.c27 0x42D80000#32 (F32.add Lit.c27 (F32.mul Lit.c9 (F32.mul x x))) :=
    F32.within_add F32.within_self (F32.within_mul (lo := Lit.c0) (hi := 0x42A20000#32) F32.within_self hsq)
  have hnum : F32.low (F32.mul x (F32.add Lit.c27 (F32.mul x x))) ≤ 0x42D80000 :=
    F32.low_mul_le_of hlow (F32.low_le_of_within_of_neg_le hfactor)
  have hnumFin := F32.isFinite_of_low_le (by decide) hnum
  have hdenFin := F32.isFinite_of_within (by decide) (by decide) hden
  have hpos : 0 < F32.low Lit.c27 := by decide
  have hdenLow : F32.low Lit.c27 ≤ F32.low (F32.add Lit.c27 (F32.mul Lit.c9 (F32.mul x x))) :=
    F32.low_le_low_of_le hden.1
  have hquot := F32.low_div_le (by decide) (by decide) hdenFin hnum hdenLow
  have hquotFin := F32.isFinite_of_low_le (by decide +kernel) hquot
  unfold softsatMid
  simp only
  rw [F32.mul_neg_neg hx hx, F32.mul_neg_left hx (F32.isFinite_of_within (by decide) (by decide) hfactor),
    F32.div_neg_left hnumFin hdenFin (by omega),
    clamp_neg (F32.not_isNaN_of_isFinite hquotFin)]

/-- SOFTSAT is odd: each end is the other's negative. -/
theorem softsat_neg (hx : F32.isNaN x = false) : softsat (F32.neg x) = F32.neg (softsat x) := by
  rcases softsat_cases hx with h | h | ⟨hlo, hhi⟩
  · rw [softsat_of_ge h, softsat_of_le (F32.le_neg_neg h)]
    decide
  · rw [softsat_of_le h, softsat_of_ge (F32.le_neg_neg h)]
    decide
  · have hbetween : F32.lt Lit.n3 (F32.neg x) = true ∧ F32.lt (F32.neg x) Lit.c3 = true := by
      have hn : F32.key Lit.n3 = -F32.key Lit.c3 := by decide
      obtain ⟨-, -, hlow⟩ := F32.lt_iff.mp hlo
      obtain ⟨-, -, hhigh⟩ := F32.lt_iff.mp hhi
      have hnx := (F32.isNaN_neg x).trans hx
      rw [F32.lt_iff, F32.lt_iff, F32.key_neg]
      exact ⟨⟨by decide, hnx, by omega⟩, hnx, by decide, by omega⟩
    rw [softsat_of_between hlo hhi, softsat_of_between hbetween.1 hbetween.2,
      softsatMid_neg ⟨F32.le_of_lt hlo, F32.le_of_lt hhi⟩]

theorem softsat_of_isZero (h : F32.isZero x = true) : softsat x = x := by
  rcases F32.eq_zero_of_isZero h with rfl | rfl
  · decide +kernel
  · decide +kernel

end

/-- Settles O46: SOFTSAT by the cases of its operand and its oddness; FLUSH is its test. -/
theorem softsatAndFlush : Obligations.SoftsatAndFlush :=
  ⟨fun x => ⟨softsat_within x, softsat_neg, softsat_of_isZero, softsat_of_ge, softsat_of_le, softsat_of_isNaN,
    softsat_of_between⟩, fun _ => ⟨fun h => if_pos h, fun h => if_neg (Bool.eq_false_iff.mp h)⟩⟩

/-! ### PAN (R182) -/

/-- The angle lies in [0, HALF_PI], whatever `pan` holds. -/
theorem panAngle_within (pan : F32) : F32.Within Lit.c0 Lit.halfPi (panAngle pan) := by
  have hclamp : F32.Within Lit.n1 Lit.c1 (clamp pan Lit.n1 Lit.c1) := clamp_within (by decide) pan
  have hsum : F32.Within Lit.c0 Lit.c2 (F32.add (clamp pan Lit.n1 Lit.c1) Lit.c1) :=
    F32.within_add hclamp F32.within_self
  have hhalf : F32.Within Lit.c0 Lit.c1 (F32.mul (F32.add (clamp pan Lit.n1 Lit.c1) Lit.c1) Lit.c0_5) :=
    F32.within_mul hsum F32.within_self
  exact F32.within_mul hhalf F32.within_self

theorem isFinite_panAngle (pan : F32) : F32.isFinite (panAngle pan) = true :=
  F32.isFinite_of_within (by decide) (by decide) (panAngle_within pan)

theorem panGains_within {N : Numerics} (hN : N.Admissible) (pan : F32) :
    F32.Within Lit.n1 Lit.c1 (panGains N pan).1 ∧ F32.Within Lit.n1 Lit.c1 (panGains N pan).2 :=
  ⟨hN.cos_range _ (isFinite_panAngle pan), hN.sin_range _ (isFinite_panAngle pan)⟩

theorem panAngle_of_isZero {pan : F32} (h : F32.isZero pan = true) : panAngle pan = Lit.quarterPi := by
  rcases F32.eq_zero_of_isZero h with rfl | rfl
  · decide +kernel
  · decide +kernel

theorem panAngle_of_le {pan : F32} (h : F32.le pan Lit.n1 = true) : panAngle pan = Lit.c0 := by
  rw [panAngle, clamp_of_le_lo h (by decide)]
  decide +kernel

/-- Settles O47: the ranges of COS and SIN at a finite angle, P-PAN at the centre, their values at zero hard left. -/
theorem panLaw : Obligations.PanLaw := by
  refine fun N hN => ⟨fun _ => rfl, panGains_within hN, fun pan h => ?centre, fun pan h => ?hardLeft⟩
  case centre =>
    rw [panGains, panAngle_of_isZero h]
    exact hN.pan_centre
  case hardLeft => rw [panGains, panAngle_of_le h, hN.cos_zero, hN.sin_zero]

end Machine

end Sys2Proof

end

section
/-! PROOFS. FRAME (44_scheduler_commands.md R217, R218; 42_voicebank.md R183, R185): its whole next state in the words
of the statements, and from it what a frame emits, what it makes of each voice and what it writes to the delay lines. -/

namespace Sys2Proof

/-! ### Sums of zeros -/

theorem F32.isZero_mul {x y : F32} (hx : F32.isZero x = true) (hy : F32.isFinite y = true) :
    F32.isZero (F32.mul x y) = true := by
  have hlow := F32.isZero_iff.mp hx
  have hxf : F32.isFinite x = true := F32.isFinite_of_low_le (by decide) hlow.le
  rw [F32.isZero_iff, F32.mul_of_finite hxf hy, F32.low_round, F32.mag_eq, hlow, F32.magOf_zero, Nat.zero_mul,
    F32.roundMag_zero]

/-- A sum of zeros of any signs from `+0.0` is `+0.0`. -/
theorem F32.foldl_add_zeros {α : Type} {f : α → F32} (hf : ∀ i, F32.isZero (f i) = true) (l : List α) :
    l.foldl (fun acc i => F32.add acc (f i)) Lit.c0 = Lit.c0 := by
  induction l with
  | nil => rfl
  | cons i rest ih =>
    have hadd : F32.add Lit.c0 (f i) = Lit.c0 := by
      rcases F32.eq_zero_of_isZero (hf i) with h | h <;> rw [h] <;> decide
    rw [List.foldl_cons, hadd, ih]

namespace Machine

open Sys2Proof.Claims

/-! ### The release loop and MIX in the words of the statements -/

section

variable (s : State) (i : Slot)

theorem release_voices_eq : (release Config.params s).voices[i] = triggeredVoice s i := by
  rw [release_voices, retrigger, List.foldl_map]
  rfl

theorem processVoice_release : processVoice Config.params (release Config.params s) i = framedVoice s i := by
  rw [processVoice, release_voices_eq, release_sr, release_slots]
  rfl

theorem framedVoices_eq : (framedVoices Config.params s)[i] = (framedVoice s i).1 := by
  rw [framedVoices_get, processVoice_release]

theorem mixTerm_release (gain : F32 × F32 → F32) : mixTerm Config.params (release Config.params s) gain i =
    F32.mul (F32.mul (framedVoice s i).2 (levelOf s.slots[i])) (gain (panGains Config.params.num s.slots[i].pan)) := by
  rw [mixTerm, processVoice_release, release_slots]

theorem mixSum_left :
    mixSum Config.params (release Config.params s) Prod.fst = mixedChannel s Config.params.num.cos := by
  simp only [mixSum, mixTerm_release]
  rfl

theorem mixSum_right :
    mixSum Config.params (release Config.params s) Prod.snd = mixedChannel s Config.params.num.sin := by
  simp only [mixSum, mixTerm_release]
  rfl

/-- What the master bus makes of the mixer's sums. -/
def masteredMix : Comp × Reverb × F32 × F32 :=
  master Config.params.num s.master s.comp s.rev (mixedChannel s Config.params.num.cos)
    (mixedChannel s Config.params.num.sin)

theorem masteredFrame_eq : masteredFrame Config.params s = masteredMix s := by
  rw [masteredFrame, mixSum_left, mixSum_right, masteredMix]

/-- The state after a frame inside its block, each part in the words of the statements. -/
def framed : State :=
  { s with
    voices := Vector.ofFn fun i => (framedVoice s i).1
    sched := { s.sched with frameIdx := s.sched.frameIdx + 1 }
    queue := keptEvents s
    comp := (masteredMix s).1
    rev := (masteredMix s).2.1
    out := s.out ++ [.emit (frameRecord (masteredMix s).2.2.1 (masteredMix s).2.2.2)] }

theorem framed_voices : (framed s).voices[i] = (framedVoice s i).1 := by
  simp [framed]

theorem framed_comp : (framed s).comp = (masteredMix s).1 := by simp only [framed]

theorem framed_rev : (framed s).rev = (masteredMix s).2.1 := by simp only [framed]

theorem framed_out :
    (framed s).out = s.out ++ [.emit (frameRecord (masteredMix s).2.2.1 (masteredMix s).2.2.2)] := by simp only [framed]

theorem renderFrame_eq_framed : renderFrame Config.params s = framed s := by
  have hvoices : framedVoices Config.params s = Vector.ofFn fun i => (framedVoice s i).1 :=
    Vector.ext fun k hk => (framedVoices_eq s ⟨k, hk⟩).trans (by simp)
  rw [renderFrame_eq, masteredFrame_eq, hvoices, framed]

end

section

variable {s : State}

/-- FRAME inside a block, whole. -/
theorem exec_frame_inBlock (h : inBlock s) : exec .frame s = .next (framed s) := by
  show execFrame s = _
  rw [execFrame_inBlock h, renderFrame_eq_framed]

/-- FRAME outside a block, whole. -/
theorem exec_frame_outside (h : s.sched.blockLen.toNat ≤ s.sched.frameIdx.toNat) :
    exec .frame s = .next (s.flag .seq) := by
  show Host.Outcome.next (frameWith Config.params s) = _
  rw [frameWith, if_pos h]

/-- The cursor does not wrap: before the end of a block it is below the greatest 16-bit word. -/
theorem framed_frameIdx (h : inBlock s) : (framed s).sched.frameIdx.toNat = s.sched.frameIdx.toNat + 1 := by
  have hlen := s.sched.blockLen.isLt
  show (s.sched.frameIdx + 1).toNat = _
  rw [BitVec.toNat_add, show (1 : U16).toNat = 1 from rfl, Nat.mod_eq_of_lt (by omega)]

end

/-- Settles O17: the outer test of FRAME. -/
theorem frameOutsideBlockSetsSeqOnly : Obligations.FrameOutsideBlockSetsSeqOnly := fun _ => exec_frame_outside

/-- Settles O18: the fields of `framed`; the queue is cut at the first event that is not due. -/
theorem frameRendersOneFrame : Obligations.FrameRendersOneFrame := by
  intro s h
  obtain ⟨hatt, hrel, hlen, htap⟩ := master_keeps Config.params.num s.master s.comp s.rev
    (mixedChannel s Config.params.num.cos) (mixedChannel s Config.params.num.sin)
  refine ⟨framed s, _, exec_frame_inBlock h, rfl, framed_frameIdx h, rfl, List.takeWhile_append_dropWhile,
    fun e he => ?notDue, rfl, rfl, rfl, rfl, rfl, hatt, hrel, hlen, htap⟩
  have hhead := List.head?_dropWhile_not (due s.sched.frameIdx) s.queue
  have he' : (s.queue.dropWhile (due s.sched.frameIdx)).head? = some e := he
  rw [he'] at hhead
  simpa [due] using hhead

/-- Settles O19: the voices of `framed`. -/
theorem frameRendersEachVoice : Obligations.FrameRendersEachVoice :=
  fun s h => ⟨framed s, exec_frame_inBlock h, framed_voices s⟩

/-- What a voice becomes in a frame is a function of that voice, its parameters, the master parameters, the rate, the
cursor and the queue. -/
theorem framedVoice_congr {s s' : State} {i : Slot} (hv : s'.voices[i] = s.voices[i]) (hp : s'.slots[i] = s.slots[i])
    (hm : s'.master = s.master) (hsr : s'.sr = s.sr) (hsched : s'.sched = s.sched) (hq : s'.queue = s.queue) :
    framedVoice s' i = framedVoice s i := by
  have hreleased : releasedEvents s' = releasedEvents s := by rw [releasedEvents, hq, hsched, releasedEvents]
  rw [framedVoice, triggeredVoice, hreleased, hv, hp, hm, hsr, framedVoice, triggeredVoice]

/-- Settles O20: both frames are `framed`, whose voices depend on what the two states share alone. -/
theorem voicesDoNotInterfere : Obligations.VoicesDoNotInterfere := by
  intro s s' t t' i hv hp hm hsr hsched hq ht ht' h
  have h' : inBlock s' := by rwa [inBlock, hsched]
  obtain rfl : framed s = t := Host.Outcome.next.inj ((exec_frame_inBlock h).symm.trans ht)
  obtain rfl : framed s' = t' := Host.Outcome.next.inj ((exec_frame_inBlock h').symm.trans ht')
  rw [framed_voices, framed_voices, framedVoice_congr hv hp hm hsr hsched hq]

/-- Settles O21: the master bus and the record of `framed`. -/
theorem frameEmitsTheMasteredMix : Obligations.FrameEmitsTheMasteredMix :=
  fun s h => ⟨framed s, (masteredMix s).2.2.1, (masteredMix s).2.2.2, exec_frame_inBlock h, rfl, rfl⟩

/-! ### The master bus with its three stages bypassed (R190, R191) -/

theorem master_bypassed (N : Numerics) {m : MasterParams} (c : Comp) (rv : Reverb) (l r : F32) (hd : stageOff m.drive)
    (hc : stageOff m.comp) (hr : stageOff m.reverb) : master N m c rv l r = (c, rv, l, r) := by
  simp only [master, sat_bypassed hd, compStep_bypassed N hc, revStep_bypassed hr]

/-- Settles O48: the order is that of the definition; each bypassed stage hands its pair on. -/
theorem masterBypassIdentity : Obligations.MasterBypassIdentity :=
  ⟨fun _ _ _ _ _ _ => rfl, fun N _ c rv l r hd hc hr => master_bypassed N c rv l r hd hc hr⟩

/-! ### A silent bank (R262, R183) -/

theorem voice_silent {s : State} {i : Slot} (hoff : (s.voices[i]).active = false) (hnone : releasedEvents s = []) :
    framedVoice s i = (s.voices[i], Lit.c0) := by
  have htriggered : triggeredVoice s i = s.voices[i] := by rw [triggeredVoice, hnone, List.filter_nil, List.foldl_nil]
  rw [framedVoice, htriggered, vproc_inactive _ _ _ _ hoff]

theorem isFinite_levelOf (p : SlotParams) : F32.isFinite (levelOf p) = true :=
  F32.isFinite_of_within (lo := Lit.c0) (hi := Lit.c2) (by decide) (by decide) (clamp_within (by decide) p.level)

/-- Every term of the sum is a zero of some sign, and adds nothing to `+0.0`. -/
theorem mixedChannel_silent {s : State} (gain : F32 → F32) (hgain : ∀ pan, F32.isFinite (gain (panAngle pan)) = true)
    (hsilent : ∀ i, (framedVoice s i).2 = Lit.c0) : mixedChannel s gain = Lit.c0 := by
  have hterm (i : Slot) : F32.isZero (F32.mul (F32.mul (framedVoice s i).2 (levelOf s.slots[i]))
      (gain (panAngle s.slots[i].pan))) = true := by
    rw [hsilent]
    exact F32.isZero_mul (F32.isZero_mul (by decide) (isFinite_levelOf _)) (hgain _)
  exact F32.foldl_add_zeros hterm _

/-- Settles O23: the two sums are `+0.0`, and the bypassed master bus hands them on. -/
theorem silentBankEmitsZeros : Obligations.SilentBankEmitsZeros := by
  intro s h hoff hnone hdrive hcomp hreverb
  have hvoice (i : Slot) := voice_silent (hoff i) hnone
  have hN := Config.params_admissible.num
  have hfinite {x : F32} (hx : F32.Within Lit.n1 Lit.c1 x) : F32.isFinite x = true :=
    F32.isFinite_of_within (by decide) (by decide) hx
  have hleft : mixedChannel s Config.params.num.cos = Lit.c0 :=
    mixedChannel_silent _ (fun pan => hfinite (panGains_within hN pan).1) fun i => by rw [hvoice]
  have hright : mixedChannel s Config.params.num.sin = Lit.c0 :=
    mixedChannel_silent _ (fun pan => hfinite (panGains_within hN pan).2) fun i => by rw [hvoice]
  have hmastered : masteredMix s = (s.comp, s.rev, Lit.c0, Lit.c0) := by
    rw [masteredMix, hleft, hright, master_bypassed _ _ _ _ _ hdrive hcomp hreverb]
  have hvoices : (framed s).voices = s.voices :=
    Vector.ext fun k hk => (framed_voices s ⟨k, hk⟩).trans (by rw [hvoice]; rfl)
  refine ⟨framed s, exec_frame_inBlock h, ?record, hvoices, ?comp, ?rev⟩
  case record => rw [framed_out, hmastered, show frameRecord Lit.c0 Lit.c0 = 0#64 by decide]
  case comp => rw [framed_comp, hmastered]
  case rev => rw [framed_rev, hmastered]

/-! ### The delay lines (R197, R62) -/

/-- The compressor's step in a frame, on the saturated sums. -/
def compressed (s : State) : Comp × F32 × F32 :=
  let x := sat s.master (mixedChannel s Config.params.num.cos) (mixedChannel s Config.params.num.sin)
  compStep Config.params.num s.master s.comp x.1 x.2

theorem masteredMix_eq (s : State) :
    masteredMix s = ((compressed s).1, revStep s.master s.rev (compressed s).2.1 (compressed s).2.2) := by
  simp only [masteredMix, master, compressed]

theorem reverbInput_eq (s : State) : reverbInput s = monoMix (compressed s).2.1 (compressed s).2.2 := by
  simp only [reverbInput, monoMix, compressed]

/-- Settles O24: a frame's REV_STEP by `revStep_eq`, its two writes by the law of a write to a canonical line. -/
theorem frameWritesOneWordPerLine : Obligations.FrameWritesOneWordPerLine := by
  intro s hl hr h
  have hput {m : DelayLine} (hm : DelayLine.wf m = true) := DelayLine.get_put ((DelayLine.wf_iff m).mp hm).1
  refine ⟨framed s, exec_frame_inBlock h, fun hoff => ?bypassed, fun hon => ?engaged⟩
  case bypassed => rw [framed_rev, masteredMix_eq, revStep_bypassed hoff]
  case engaged =>
    rw [framed_rev, masteredMix_eq, revStep_eq (bypassed_eq_false hon), reverbInput_eq]
    refine ⟨nextIndex_val .., fun k hk => ⟨?otherLeft, ?otherRight⟩, ?left, ?right⟩
    case otherLeft => rw [hput hl, if_neg hk]
    case otherRight => rw [hput hr, if_neg hk]
    case left =>
      rw [hput hl, if_pos rfl]
      rfl
    case right =>
      rw [hput hr, if_pos rfl]
      rfl

end Machine

end Sys2Proof

end

section
/-! PROOFS. Everything an instruction and a step can do, said once (`Leads`), and the claims about all instructions:
none stops, who writes which register, and what becomes of the sticky flags (44_scheduler_commands.md R210, 10_state.md
R35, 60_exceptions.md R240). -/

namespace Sys2Proof.Machine

open Sys2Proof.Claims

/-! ### What an instruction leads to -/

/-- The renderer of each bank (R160, R180). -/
def rendererOf (k : Slot) : Instr := [.kick, .snare, .clap, .hatclosed, .hatopen, .tom, .perc1, .perc2].get k

/-- `Leads s i t`: from `s` the instruction `i` leads to `t`, one constructor a branch of a meaning. -/
inductive Leads (s : State) : Instr → State → Prop
  | nop : Leads s .nop s
  | reset : Leads s .reset (resetOp Config.params s)
  | setrate (d : F32) : Leads s (.setrate d) (setRate Config.params d s)
  | stored {a : U8} {d : F32} {r : ParamReg} (hr : paramReg a = some r) (hd : F32.isFinite d = true) :
      Leads s (.pwrite a d) (s.writeParam r d)
  | dropped {a : U8} {d : F32} (h : paramReg a = none ∨ F32.isFinite d = false) : Leads s (.pwrite a d) (s.flag .pdrop)
  | blkbegin (n : U16) : Leads s (.blkbegin n) (blockBegin n s)
  | badSlot {a : U8} (n : U16) (d : F32) (h : eventSlot a = none) : Leads s (.evpush a n d) (s.flag .evslot)
  | full {a : U8} (n : U16) (d : F32) {k : Slot} (h : eventSlot a = some k) (hq : 64 ≤ s.queue.length) :
      Leads s (.evpush a n d) (s.flag .evfull)
  | queued {a : U8} (n : U16) (d : F32) {k : Slot} (h : eventSlot a = some k) (hq : s.queue.length < 64) :
      Leads s (.evpush a n d) (s.evqPush { slot := k, velocity := d, offset := n })
  | outside (h : s.sched.blockLen.toNat ≤ s.sched.frameIdx.toNat) : Leads s .frame (s.flag .seq)
  | framed (h : inBlock s) : Leads s .frame (framed s)
  | rdstat : Leads s .rdstat (s.output (.respond (statusWord s)))
  | rendered (k : Slot) : Leads s (rendererOf k) (s.rendered k (bankRender s k))

theorem exec_of_leads {s t : State} {i : Instr} (h : Leads s i t) : exec i s = .next t := by
  cases h
  case nop | reset | setrate | blkbegin | rdstat => rfl
  case stored hr hd => exact congrArg Host.Outcome.next (paramWrite_stores hr hd s)
  case dropped h => exact congrArg Host.Outcome.next (paramWrite_drops h s)
  case badSlot n d h => exact congrArg Host.Outcome.next (eventPush_badSlot n d h)
  case full n d k h hq => exact congrArg Host.Outcome.next (eventPush_full n d h hq)
  case queued n d k h hq => exact congrArg Host.Outcome.next (eventPush_queued n d h hq)
  case outside h => exact exec_frame_outside h
  case framed h => exact exec_frame_inBlock h
  case rendered k => exact exec_renderer k s

/-- Every instruction leads somewhere. -/
theorem exists_leads (i : Instr) (s : State) : ∃ t, Leads s i t := by
  cases i
  case nop => exact ⟨_, .nop⟩
  case reset => exact ⟨_, .reset⟩
  case setrate d => exact ⟨_, .setrate d⟩
  case pwrite a d =>
    cases hr : paramReg a with
    | none => exact ⟨_, .dropped (.inl hr)⟩
    | some r =>
      cases hd : F32.isFinite d with
      | false => exact ⟨_, .dropped (.inr hd)⟩
      | true => exact ⟨_, .stored hr hd⟩
  case blkbegin n => exact ⟨_, .blkbegin n⟩
  case evpush a n d =>
    cases h : eventSlot a with
    | none => exact ⟨_, .badSlot n d h⟩
    | some k =>
      rcases Nat.lt_or_ge s.queue.length 64 with hq | hq
      · exact ⟨_, .queued n d h hq⟩
      · exact ⟨_, .full n d h hq⟩
  case frame =>
    rcases Nat.lt_or_ge s.sched.frameIdx.toNat s.sched.blockLen.toNat with h | h
    · exact ⟨_, .framed h⟩
    · exact ⟨_, .outside h⟩
  case rdstat => exact ⟨_, .rdstat⟩
  case kick => exact ⟨_, .rendered 0⟩
  case snare => exact ⟨_, .rendered 1⟩
  case clap => exact ⟨_, .rendered 2⟩
  case hatclosed => exact ⟨_, .rendered 3⟩
  case hatopen => exact ⟨_, .rendered 4⟩
  case tom => exact ⟨_, .rendered 5⟩
  case perc1 => exact ⟨_, .rendered 6⟩
  case perc2 => exact ⟨_, .rendered 7⟩

theorem leads_of_exec {s t : State} {i : Instr} (h : exec i s = .next t) : Leads s i t := by
  obtain ⟨t', h'⟩ := exists_leads i s
  obtain rfl : t' = t := Host.Outcome.next.inj ((exec_of_leads h').symm.trans h)
  exact h'

/-! ### What a step leads to (R210) -/

section

variable {s : State} {p : Presented} {rest : List Presented}

theorem step_of_decoded {i : Instr} (hport : s.port = p :: rest) (hp : decode p = .ok i) :
    step s = exec i (s.withPort rest) := by
  simp [step, hport, hp]

theorem step_idle (hport : s.port = []) : step s = .next s := by
  simp [step, hport]

/-- Settles O6: the two cases of `step` that decode or find nothing. -/
theorem stepRunsDecodedInstruction : Obligations.StepRunsDecodedInstruction :=
  ⟨fun _ _ _ _ => step_of_decoded, fun _ => step_idle⟩

/-- A step does nothing, or consumes a word and executes it or sets `BADCMD`. -/
theorem step_cases {t : State} (h : step s = .next t) :
    t = s ∨ (∃ rest, t = (s.withPort rest).flag .badcmd) ∨ ∃ rest i, Leads (s.withPort rest) i t := by
  cases hport : s.port with
  | nil => exact .inl (Host.Outcome.next.inj (h.symm.trans (step_idle hport)))
  | cons p rest =>
    cases hp : decode p with
    | error e => exact .inr (.inl ⟨rest, Host.Outcome.next.inj (h.symm.trans (step_of_rejected hport hp))⟩)
    | ok i => exact .inr (.inr ⟨rest, i, leads_of_exec ((step_of_decoded hport hp).symm.trans h)⟩)

end

/-- Settles O55: every instruction leads to a state; an empty port and a rejected word are answered too. -/
theorem stepNeverStops : Obligations.StepNeverStops := by
  have hexec (i : Instr) (s : State) : ∃ t, exec i s = .next t := (exists_leads i s).imp fun _ => exec_of_leads
  refine ⟨hexec, fun s => ?_⟩
  cases hport : s.port with
  | nil => exact ⟨s, step_idle hport⟩
  | cons p rest =>
    cases hp : decode p with
    | error e => exact ⟨_, step_of_rejected hport hp⟩
    | ok i =>
      obtain ⟨t, ht⟩ := hexec i (s.withPort rest)
      exact ⟨t, (step_of_decoded hport hp).trans ht⟩

/-! ### The sticky flags (R35) -/

/-- Settles O58: an instruction but RESET leaves the flags, raises one, or joins a condition to one. -/
theorem stickyFlagsPersist : Obligations.StickyFlagsPersist := by
  intro i s t c hi h hc
  cases leads_of_exec h
  case reset => exact absurd rfl hi
  case nop | framed | rdstat | queued | rendered => exact hc
  case stored => rwa [State.writeParam_sticky]
  case dropped | badSlot | full | outside => simp [hc]
  case blkbegin n =>
    show stickyBit (flagLate s).sticky c = true
    unfold flagLate
    split <;> simp [hc]
  case setrate d =>
    show stickyBit (flagRate d s).sticky c = true
    unfold flagRate
    split <;> simp [hc]

section

variable (s : State) (f : Sticky)

/-- The state with other sticky flags. -/
def State.withSticky : State := { s with sticky := f }

theorem mixedChannel_withSticky (gain : F32 → F32) : mixedChannel (s.withSticky f) gain = mixedChannel s gain := by
  have hvoice (i : Slot) : framedVoice (s.withSticky f) i = framedVoice s i := framedVoice_congr rfl rfl rfl rfl rfl rfl
  have hslots : (s.withSticky f).slots = s.slots := rfl
  simp only [mixedChannel, hvoice, hslots]

theorem masteredMix_withSticky : masteredMix (s.withSticky f) = masteredMix s := by
  rw [masteredMix, mixedChannel_withSticky, mixedChannel_withSticky]
  rfl

theorem framed_withSticky : framed (s.withSticky f) = (framed s).withSticky f := by
  simp only [framed, masteredMix_withSticky]
  rfl

/-- An instruction but RDSTAT takes the branch it takes without the flags, to a state that differs in them alone. -/
theorem leads_withSticky {s t : State} {i : Instr} (h : Leads s i t) (hi : i ≠ .rdstat) (f : Sticky) :
    ∃ g, Leads (s.withSticky f) i (t.withSticky g) := by
  cases h
  case rdstat => exact absurd rfl hi
  case nop => exact ⟨f, .nop⟩
  case reset => exact ⟨Sticky.reset, .reset⟩
  case setrate d =>
    refine ⟨(flagRate d (s.withSticky f)).sticky, ?_⟩
    convert Leads.setrate d using 1
    simp only [setRate, State.withSticky, flagRate_sched, flagRate_queue, flagRate_slots, flagRate_master,
      flagRate_port, flagRate_out]
  case stored r hr hd =>
    refine ⟨f, ?_⟩
    convert Leads.stored hr hd using 1
    cases r <;> rfl
  case dropped h => exact ⟨_, .dropped h⟩
  case blkbegin n =>
    refine ⟨(flagLate (s.withSticky f)).sticky, ?_⟩
    convert Leads.blkbegin n using 1
    simp [blockBegin, State.withSticky]
  case badSlot n d h => exact ⟨_, .badSlot n d h⟩
  case full n d k h hq => exact ⟨_, .full n d h hq⟩
  case queued n d k h hq => exact ⟨f, .queued n d h hq⟩
  case outside h => exact ⟨_, .outside h⟩
  case framed h => exact ⟨f, framed_withSticky s f ▸ .framed h⟩
  case rendered k => exact ⟨f, .rendered k⟩

end

/-- Settles O59: `leads_withSticky`. -/
theorem stickyFlagsAreUnread : Obligations.StickyFlagsAreUnread := by
  intro i s t f hi h
  obtain ⟨g, hg⟩ := leads_withSticky (leads_of_exec h) hi f
  exact ⟨g, exec_of_leads hg⟩

/-! ### Who writes what -/

theorem blockBegin_eq (n : U16) (s : State) : blockBegin n s =
    { s with sched := { frameIdx := 0, blockLen := n }, queue := [], sticky := (flagLate s).sticky } := by
  simp [blockBegin]

theorem setRate_eq (C : Params) (d : F32) (s : State) : setRate C d s =
    { s with
      sticky := (flagRate d s).sticky
      sr := conditionedRate d
      voices := Vector.ofFn fun i => silenced s.voices[i]
      comp := Comp.atRate C (conditionedRate d)
      rev := Reverb.atRate C (conditionedRate d) } := by
  simp [setRate]

/-- No instruction takes a word from the port or an output back, and each adds at most one output. -/
theorem leads_port_out {s t : State} {i : Instr} (h : Leads s i t) :
    t.port = s.port ∧ ∃ new : List Output, t.out = s.out ++ new ∧ new.length ≤ 1 := by
  have quiet {out : List Output} (hout : out = s.out) : ∃ new : List Output, out = s.out ++ new ∧ new.length ≤ 1 :=
    ⟨[], by simp [hout], by simp⟩
  cases h
  case nop | reset | dropped | badSlot | full | queued | outside => exact ⟨rfl, quiet rfl⟩
  case setrate => exact ⟨by rw [setRate_eq], quiet (by rw [setRate_eq])⟩
  case stored => exact ⟨State.writeParam_port .., quiet (State.writeParam_out ..)⟩
  case blkbegin => exact ⟨by rw [blockBegin_eq], quiet (by rw [blockBegin_eq])⟩
  case framed => exact ⟨rfl, _, framed_out s, le_rfl⟩
  case rdstat => exact ⟨rfl, _, rfl, le_rfl⟩
  case rendered => exact ⟨rfl, _, rfl, le_rfl⟩

theorem leads_params {s t : State} {i : Instr} (h : Leads s i t) (hp : ∀ a d, i ≠ .pwrite a d) (hr : i ≠ .reset) :
    t.slots = s.slots ∧ t.master = s.master := by
  cases h
  case reset => exact absurd rfl hr
  case stored | dropped => exact absurd rfl (hp _ _)
  case setrate => exact ⟨by rw [setRate_eq], by rw [setRate_eq]⟩
  case blkbegin => exact ⟨by rw [blockBegin_eq], by rw [blockBegin_eq]⟩
  case nop | badSlot | full | queued | outside | framed | rdstat | rendered => exact ⟨rfl, rfl⟩

/-- The master bus leaves what SETRATE and reset derive from the rate. -/
theorem framed_keeps (s : State) : (framed s).comp.att = s.comp.att ∧ (framed s).comp.rel = s.comp.rel ∧
    (framed s).rev.len = s.rev.len ∧ (framed s).rev.tap = s.rev.tap := by
  rw [framed_comp, framed_rev]
  exact master_keeps ..

theorem leads_rate {s t : State} {i : Instr} (h : Leads s i t) (hp : ∀ d, i ≠ .setrate d) (hr : i ≠ .reset) :
    t.sr = s.sr ∧ t.comp.att = s.comp.att ∧ t.comp.rel = s.comp.rel ∧ t.rev.len = s.rev.len ∧
      t.rev.tap = s.rev.tap := by
  cases h
  case reset => exact absurd rfl hr
  case setrate => exact absurd rfl (hp _)
  case stored => simp
  case blkbegin => simp [blockBegin_eq]
  case framed => exact ⟨rfl, framed_keeps s⟩
  case nop | dropped | badSlot | full | queued | outside | rdstat | rendered => exact ⟨rfl, rfl, rfl, rfl, rfl⟩

theorem leads_sched {s t : State} {i : Instr} (h : Leads s i t) (hb : ∀ n, i ≠ .blkbegin n) (hr : i ≠ .reset) :
    t.sched.blockLen = s.sched.blockLen ∧ (i ≠ .frame → t.sched = s.sched) := by
  cases h
  case reset => exact absurd rfl hr
  case blkbegin => exact absurd rfl (hb _)
  case framed => exact ⟨rfl, fun hf => absurd rfl hf⟩
  case setrate => simp [setRate_eq]
  case stored => simp
  case nop | dropped | badSlot | full | queued | outside | rdstat | rendered => exact ⟨rfl, fun _ => rfl⟩

theorem rendererOf_mem (k : Slot) : rendererOf k ∈
    [Instr.kick, .snare, .clap, .hatclosed, .hatopen, .tom, .perc1, .perc2] := List.get_mem ..

/-- FRAME, RDSTAT and the renderers alone output something. -/
theorem leads_silent {s t : State} {i : Instr} (h : Leads s i t)
    (hi : i = .nop ∨ i = .reset ∨ (∃ d, i = .setrate d) ∨ (∃ a d, i = .pwrite a d) ∨ (∃ n, i = .blkbegin n) ∨
      (∃ a n d, i = .evpush a n d)) : t.out = s.out := by
  cases h
  case nop | reset | dropped | badSlot | full | queued => rfl
  case setrate => rw [setRate_eq]
  case stored => exact State.writeParam_out ..
  case blkbegin => rw [blockBegin_eq]
  case outside | framed | rdstat => simp at hi
  case rendered k =>
    have hk := rendererOf_mem k
    rcases hi with hi | hi | ⟨d, hi⟩ | ⟨a, d, hi⟩ | ⟨n, hi⟩ | ⟨a, n, d, hi⟩ <;> simp [hi] at hk

/-- Settles O60: one lemma a group of registers. -/
theorem registerWriters : Obligations.RegisterWriters := by
  intro i s t h
  have h := leads_of_exec h
  obtain ⟨hport, hout⟩ := leads_port_out h
  exact ⟨leads_params h, leads_rate h, leads_sched h, leads_silent h, hout, hport⟩

end Sys2Proof.Machine

end

section
/-! PROOFS. The structure of the state (10_state.md R34, R23, R36, R38, R40; 20_memory.md R74): what reset, a rate
change and a REV_STEP leave of it, and that every step keeps it; and which word a tap reads (20_memory.md R62). -/

namespace Sys2Proof.Machine

open Sys2Proof.Claims

/-! ### The delay lines (R40) -/

/-- A write inside the live words keeps a line canonical and inside them. -/
theorem DelayLine.within_put {m : DelayLine} {len : Nat} (h : DelayLine.Within m len) {k : LineIndex} (hk : k.val < len)
    (v : F32) : DelayLine.Within (DelayLine.put m k v) len := by
  refine ⟨memWrite_wf h.1 k v, fun c hc => ?_⟩
  rcases DelayLine.mem_put hc with hc | ⟨rfl, -⟩
  · exact h.2 c hc
  · exact hk

theorem DelayLine.within_nil (len : Nat) : DelayLine.Within [] len := ⟨rfl, by simp⟩

/-- What `State.LinesOk` says of the reverb alone. -/
def Reverb.LinesOk (rv : Reverb) : Prop :=
  rv.w.val < rv.len.val ∧ DelayLine.Within rv.rvl rv.len ∧ DelayLine.Within rv.rvr rv.len

theorem Reverb.atRate_linesOk (C : Params) (sr : F32) : (Reverb.atRate C sr).LinesOk :=
  ⟨Nat.lt_of_lt_of_le Nat.two_pos (revLen sr).property.1, DelayLine.within_nil _, DelayLine.within_nil _⟩

theorem revStep_linesOk (m : MasterParams) {rv : Reverb} (l r : F32) (h : rv.LinesOk) :
    (revStep m rv l r).1.LinesOk := by
  cases hb : bypassed m.reverb with
  | true => rwa [revStep_bypassed hb]
  | false =>
    obtain ⟨hw, hl, hr⟩ := h
    rw [revStep_eq hb]
    exact ⟨nextIndex_lt .., DelayLine.within_put hl hw _, DelayLine.within_put hr hw _⟩

/-! ### Every instruction keeps the structure -/

section

variable {s : State}

/-- The structure is about no more than these parts of the state. -/
theorem State.Structured.congr {t : State} (h : s.Structured) (hsched : t.sched = s.sched) (hqueue : t.queue = s.queue)
    (hsr : t.sr = s.sr) (hslots : t.slots = s.slots) (hmaster : t.master = s.master) (hcomp : t.comp = s.comp)
    (hrev : t.rev = s.rev) : t.Structured := by
  obtain ⟨hs, hq, hrate, hparams, hderived, hlines⟩ := h
  have hread (r : ParamReg) : t.readParam r = s.readParam r := by
    cases r with
    | slot i f => simp [State.readParam, hslots]
    | master f => simp [State.readParam, hmaster]
  refine ⟨?_, ?_, ?_, fun r => ?_, ?_, ?_⟩
  · rwa [State.SchedOk, hsched]
  · rwa [State.QueueOk, hqueue]
  · rwa [State.RateOk, hsr]
  · rw [hread]
    exact hparams r
  · rwa [State.DerivedOk, hcomp, hrev, hsr]
  · rwa [State.LinesOk, hrev]

theorem resetOp_structured (s : State) : (resetOp Config.params s).Structured where
  sched := Nat.le_refl 0
  queue := Nat.zero_le _
  rate := by
    show F32.Within Config.srMin Config.srMax Config.srReset
    decide
  params r := by
    rw [resetOp_readParam]
    decide
  derived := ⟨rfl, rfl, rfl, rfl⟩
  lines := Reverb.atRate_linesOk ..

/-- A rate change derives its registers anew and clears the lines. -/
theorem setRate_structured (h : s.Structured) (d : F32) : (setRate Config.params d s).Structured := by
  obtain ⟨hs, hq, -, hparams, -, -⟩ := h
  rw [setRate_eq]
  exact ⟨hs, hq, conditionedRate_within d, hparams, ⟨rfl, rfl, rfl, rfl⟩, Reverb.atRate_linesOk ..⟩

theorem writeParam_structured (h : s.Structured) {d : F32} (hd : F32.isFinite d = true) (r : ParamReg) :
    (s.writeParam r d).Structured := by
  obtain ⟨hs, hq, hrate, hparams, hderived, hlines⟩ := h
  refine ⟨?_, ?_, ?_, fun q => ?_, ?_, ?_⟩
  · rwa [State.SchedOk, State.writeParam_sched]
  · rwa [State.QueueOk, State.writeParam_queue]
  · rwa [State.RateOk, State.writeParam_sr]
  · rw [State.readParam_writeParam]
    split
    case isTrue => exact hd
    case isFalse => exact hparams q
  · rwa [State.DerivedOk, State.writeParam_comp, State.writeParam_rev, State.writeParam_sr]
  · rwa [State.LinesOk, State.writeParam_rev]

theorem blockBegin_structured (h : s.Structured) (n : U16) : (blockBegin n s).Structured := by
  obtain ⟨-, -, hrate, hparams, hderived, hlines⟩ := h
  rw [blockBegin_eq]
  exact ⟨Nat.zero_le _, Nat.zero_le _, hrate, hparams, hderived, hlines⟩

theorem evqPush_structured (h : s.Structured) (e : Event) (hlen : s.queue.length < 64) : (s.evqPush e).Structured := by
  obtain ⟨hs, -, hrate, hparams, hderived, hlines⟩ := h
  refine ⟨hs, ?_, hrate, hparams, hderived, hlines⟩
  show (s.queue ++ [e]).length ≤ 64
  rw [List.length_append, List.length_singleton]
  omega

theorem framed_structured (h : s.Structured) (hin : inBlock s) : (framed s).Structured := by
  obtain ⟨-, hq, hrate, hparams, ⟨hatt, hrel, hlen, htap⟩, hlines⟩ := h
  obtain ⟨katt, krel, klen, ktap⟩ := framed_keeps s
  refine ⟨?sched, ?queue, hrate, hparams, ⟨katt.trans hatt, krel.trans hrel, klen.trans hlen, ktap.trans htap⟩, ?lines⟩
  case sched =>
    have hidx := framed_frameIdx hin
    show (framed s).sched.frameIdx.toNat ≤ s.sched.blockLen.toNat
    omega
  case queue => exact (List.dropWhile_sublist _).length_le.trans hq
  case lines =>
    show (framed s).rev.LinesOk
    rw [framed_rev, masteredMix_eq]
    exact revStep_linesOk _ _ _ hlines

theorem leads_structured {t : State} {i : Instr} (h : s.Structured) (hl : Leads s i t) : t.Structured := by
  cases hl
  case nop => exact h
  case reset => exact resetOp_structured s
  case setrate d => exact setRate_structured h d
  case stored hd => exact writeParam_structured h hd _
  case blkbegin n => exact blockBegin_structured h n
  case queued hq => exact evqPush_structured h _ hq
  case framed hin => exact framed_structured h hin
  case dropped | badSlot | full | outside | rdstat | rendered => exact h.congr rfl rfl rfl rfl rfl rfl rfl

end

/-- Settles O54: the word a step consumes and the flag of a rejected one are no part of the structure; the rest is
`leads_structured`. -/
theorem structureKeptByEveryStep : Obligations.StructureKeptByEveryStep := by
  intro s t h ht
  rcases step_cases ht with rfl | ⟨rest, rfl⟩ | ⟨rest, i, hl⟩
  · exact h
  · exact h.congr rfl rfl rfl rfl rfl rfl rfl
  · have hport : (s.withPort rest).Structured := h.congr rfl rfl rfl rfl rfl rfl rfl
    exact leads_structured hport hl

/-! ### Which word a tap reads (R62) -/

/-- The `mod` of the tap index is one conditional subtraction. -/
theorem tapIndex_eq_sub {w len d : Nat} (hw : w < len) (hd : 1 ≤ d) :
    (w + len - d) % len = if len ≤ w + len - d then w + len - d - len else w + len - d := by
  split
  case isTrue h => rw [Nat.mod_eq_sub_mod h, Nat.mod_eq_of_lt (by omega)]
  case isFalse h => exact Nat.mod_eq_of_lt (by omega)

section

variable {m : MasterParams} {rv : Reverb} (l r : F32)

theorem revStep_w (hon : ¬stageOff m.reverb) : (revStep m rv l r).1.w = nextIndex rv.w rv.len := by
  rw [revStep_eq (bypassed_eq_false hon)]

theorem revStep_wf (hon : ¬stageOff m.reverb) (hl : DelayLine.wf rv.rvl = true) (hr : DelayLine.wf rv.rvr = true) :
    DelayLine.wf (revStep m rv l r).1.rvl = true ∧ DelayLine.wf (revStep m rv l r).1.rvr = true := by
  rw [revStep_eq (bypassed_eq_false hon)]
  exact ⟨memWrite_wf hl rv.w _, memWrite_wf hr rv.w _⟩

/-- A step writes at the write index alone. -/
theorem revStep_memRead (hon : ¬stageOff m.reverb) (hl : DelayLine.wf rv.rvl = true) (hr : DelayLine.wf rv.rvr = true)
    {k : LineIndex} (hk : k ≠ rv.w) :
    memRead (revStep m rv l r).1.rvl k = memRead rv.rvl k ∧ memRead (revStep m rv l r).1.rvr k = memRead rv.rvr k := by
  rw [revStep_eq (bypassed_eq_false hon)]
  exact ⟨(memRead_memWrite hl rv.w k _).trans (if_neg hk), (memRead_memWrite hr rv.w k _).trans (if_neg hk)⟩

end

section

variable {rv : Reverb} {steps : List (MasterParams × F32 × F32)}

theorem revTimes_len (steps : List (MasterParams × F32 × F32)) (rv : Reverb) : (revTimes steps rv).len = rv.len := by
  induction steps generalizing rv with
  | nil => rfl
  | cons x rest ih => rw [revTimes, ih, (revStep_geometry ..).1]

/-- After `n` steps that are not bypassed the write index has advanced by `n`. -/
theorem revTimes_w (hon : ∀ x ∈ steps, ¬stageOff x.1.reverb) (hw : rv.w.val < rv.len.val) :
    (revTimes steps rv).w.val = (rv.w.val + steps.length) % rv.len.val := by
  induction steps generalizing rv with
  | nil => exact (Nat.mod_eq_of_lt hw).symm
  | cons x rest ih =>
    obtain ⟨hx, hrest⟩ := List.forall_mem_cons.mp hon
    have hw' := revStep_w (rv := rv) x.2.1 x.2.2 hx
    rw [revTimes, ih hrest]
    all_goals rw [hw', (revStep_geometry ..).1]
    · rw [nextIndex_val, Nat.mod_add_mod, List.length_cons, Nat.add_assoc, Nat.add_comm 1]
    · exact nextIndex_lt ..

/-- A word that none of the steps writes reads as before them, in both lines. -/
theorem revTimes_memRead (hon : ∀ x ∈ steps, ¬stageOff x.1.reverb) (hl : DelayLine.wf rv.rvl = true)
    (hr : DelayLine.wf rv.rvr = true) {k : LineIndex} (hw : rv.w.val < rv.len.val)
    (hk : ∀ j < steps.length, k.val ≠ (rv.w.val + j) % rv.len.val) :
    memRead (revTimes steps rv).rvl k = memRead rv.rvl k ∧ memRead (revTimes steps rv).rvr k = memRead rv.rvr k := by
  induction steps generalizing rv with
  | nil => exact ⟨rfl, rfl⟩
  | cons x rest ih =>
    obtain ⟨hx, hrest⟩ := List.forall_mem_cons.mp hon
    have hfirst : k ≠ rv.w := fun h => hk 0 (by simp) (by rw [h, Nat.add_zero, Nat.mod_eq_of_lt hw])
    obtain ⟨hwl, hwr⟩ := revStep_wf x.2.1 x.2.2 hx hl hr
    obtain ⟨hrl, hrr⟩ := revStep_memRead x.2.1 x.2.2 hx hl hr hfirst
    have hw' := revStep_w (rv := rv) x.2.1 x.2.2 hx
    have hlen := (revStep_geometry x.1 rv x.2.1 x.2.2).1
    rw [revTimes, ← hrl, ← hrr]
    refine ih hrest hwl hwr ?_ fun j hj => ?_
    · rw [hw', hlen]
      exact nextIndex_lt ..
    · rw [hw', hlen, nextIndex_val, Nat.mod_add_mod, Nat.add_assoc, Nat.add_comm 1 j]
      exact hk (j + 1) (by simpa using hj)

end

/-- An index and one fewer than the length further on do not meet. -/
theorem ne_add_mod {w j len : Nat} (hw : w < len) (hj : 0 < j) (hjl : j < len) : w ≠ (w + j) % len := by
  rcases Nat.lt_or_ge (w + j) len with h | h
  · rw [Nat.mod_eq_of_lt h]
    omega
  · rw [Nat.mod_eq_sub_mod h, Nat.mod_eq_of_lt (by omega)]
    omega

/-- Going `d` words back from `d` words on is where one was. -/
theorem add_mod_sub_mod {w len d : Nat} (hw : w < len) (hd : d ≤ len) : ((w + d) % len + len - d) % len = w := by
  rw [Nat.add_sub_assoc hd, Nat.mod_add_mod, show w + d + (len - d) = w + len by omega, Nat.add_mod_right,
    Nat.mod_eq_of_lt hw]

/-- A tap of delay `d` reads the word that the first of `d` steps wrote: the other `d - 1` write elsewhere. -/
theorem tap_reads_first {rv : Reverb} {first : MasterParams × F32 × F32} {rest : List (MasterParams × F32 × F32)}
    {d : LineIndex} (hon : ∀ x ∈ first :: rest, ¬stageOff x.1.reverb) (hl : DelayLine.wf rv.rvl = true)
    (hr : DelayLine.wf rv.rvr = true) (hw : rv.w.val < rv.len.val) (hd : d.val = rest.length + 1)
    (hdl : d.val ≤ rv.len.val - 1) :
    let written := (revStep first.1 rv first.2.1 first.2.2).1
    let now := revTimes (first :: rest) rv
    memRead now.rvl (tapIndex now.w now.len d) = memRead written.rvl rv.w ∧
    memRead now.rvr (tapIndex now.w now.len d) = memRead written.rvr rv.w := by
  intro written now
  have htap : tapIndex now.w now.len d = rv.w := by
    have hnow : now.w.val = (rv.w.val + d.val) % rv.len.val := by
      rw [hd]
      exact revTimes_w hon hw
    apply Fin.ext
    rw [tapIndex_val, show now.len = rv.len from revTimes_len .., hnow, add_mod_sub_mod hw (by omega)]
  obtain ⟨hfirst, hrest⟩ := List.forall_mem_cons.mp hon
  obtain ⟨hwl, hwr⟩ := revStep_wf first.2.1 first.2.2 hfirst hl hr
  have hw' : written.w = nextIndex rv.w rv.len := revStep_w (rv := rv) first.2.1 first.2.2 hfirst
  have hlen : written.len = rv.len := (revStep_geometry ..).1
  rw [htap]
  refine revTimes_memRead hrest hwl hwr ?_ fun j hj => ?_
  · show written.w.val < written.len.val
    rw [hw', hlen]
    exact nextIndex_lt ..
  · show rv.w.val ≠ (written.w.val + j) % written.len.val
    rw [hw', hlen, nextIndex_val, Nat.mod_add_mod, Nat.add_assoc, Nat.add_comm 1 j]
    exact ne_add_mod hw (by omega) (by omega)

/-- From cleared lines a tap further back than the steps so far reads a word none of them has written. -/
theorem tap_reads_zero (C : Params) (sr : F32) {steps : List (MasterParams × F32 × F32)} {d : LineIndex}
    (hon : ∀ x ∈ steps, ¬stageOff x.1.reverb) (hd : steps.length < d.val) (hdl : d.val ≤ (revLen sr).val - 1) :
    let now := revTimes steps (Reverb.atRate C sr)
    memRead now.rvl (tapIndex now.w now.len d) = Lit.c0 ∧ memRead now.rvr (tapIndex now.w now.len d) = Lit.c0 := by
  intro now
  obtain ⟨hw, hl, hr⟩ := Reverb.atRate_linesOk C sr
  have hnow : now.w.val = steps.length := by
    have h : now.w.val = (0 + steps.length) % (revLen sr).val := revTimes_w hon hw
    rwa [Nat.zero_add, Nat.mod_eq_of_lt (by omega)] at h
  have htap : (tapIndex now.w now.len d).val = steps.length + (revLen sr).val - d.val := by
    rw [tapIndex_val, show now.len = revLen sr from revTimes_len .., hnow, Nat.mod_eq_of_lt (by omega)]
  refine revTimes_memRead hon hl.1 hr.1 hw fun j hj => ?_
  show (tapIndex now.w now.len d).val ≠ (0 + j) % (revLen sr).val
  rw [htap, Nat.zero_add, Nat.mod_eq_of_lt (by omega)]
  omega

/-- Settles O22: the index formulas are the definitions'; the two statements about taps by the lemmas above. -/
theorem tapReadsTheWordWrittenDFramesAgo : Obligations.TapReadsTheWordWrittenDFramesAgo := by
  refine ⟨fun w len d => ⟨rfl, tapIndex_lt .., rfl, nextIndex_lt .., fun hw hd _ => tapIndex_eq_sub hw hd⟩,
    fun _ _ _ _ hon hl hr hw hd hdl => tap_reads_first hon hl hr hw hd hdl,
    fun C sr _ _ hon hd hdl => tap_reads_zero C sr hon hd hdl⟩

end Sys2Proof.Machine

end

section
/-! PROOFS. The drum voice in its ranges (10_state.md R21, 41_voice.md R150 to R171): what TRIG, the eight renderers and
VPROC leave of it, how large a renderer's sample is, and that every hit ends. -/

namespace Sys2Proof

/-! ### Sums and products by their exact values -/

section

variable {x y c : F32}

theorem F32.val_nonneg_of_key (h : 0 ≤ F32.key x) : 0 ≤ F32.val x := by
  unfold F32.key at h
  rw [F32.val_of_sign_low]
  split
  case isTrue hs =>
    have h0 : F32.low x = 0 := by
      rw [if_pos hs] at h
      omega
    rw [h0, F32.magOf_zero]
    decide
  case isFalse => omega

theorem F32.roundKey_nonneg {n : Int} (h : 0 ≤ n) (d : Nat) : 0 ≤ F32.roundKey n d := by
  rw [F32.roundKey, if_neg (by omega)]
  omega

/-- The order key of a number is that of its rounding. -/
theorem F32.roundKey_val (hx : F32.isFinite x = true) : F32.roundKey (F32.val x) 1 = F32.key x := by
  have hexact : F32.roundMag (F32.mag x) 1 = F32.low x := by
    have h := F32.roundMag_exact (k := F32.low x) Nat.one_pos (F32.isFinite_iff.mp hx).le
    rwa [Nat.mul_one, ← F32.mag_eq] at h
  rw [F32.roundKey, F32.val_natAbs, hexact, F32.key, F32.val]
  rcases Nat.eq_zero_or_pos (F32.mag x) with h0 | hpos
  · have hlow : F32.low x = 0 := by rw [← hexact, h0, F32.roundMag_zero]
    simp [h0, hlow]
  · cases F32.sign x <;> simp
    omega

/-- A sum whose exact value is at most that of a word is at most that word. -/
theorem F32.add_le_of_val_le (hx : F32.isFinite x = true) (hy : F32.isFinite y = true) (hc : F32.isFinite c = true)
    (h : F32.val x + F32.val y ≤ F32.val c) : F32.le (F32.add x y) c = true := by
  rw [F32.le_iff, F32.key_add hx hy, ← F32.roundKey_val hc]
  exact ⟨F32.isNaN_add hx hy, F32.not_isNaN_of_isFinite hc, F32.roundKey_mono Nat.one_pos h⟩

theorem F32.le_add_of_le_val (hx : F32.isFinite x = true) (hy : F32.isFinite y = true) (hc : F32.isFinite c = true)
    (h : F32.val c ≤ F32.val x + F32.val y) : F32.le c (F32.add x y) = true := by
  rw [F32.le_iff, F32.key_add hx hy, ← F32.roundKey_val hc]
  exact ⟨F32.not_isNaN_of_isFinite hc, F32.isNaN_add hx hy, F32.roundKey_mono Nat.one_pos h⟩

/-- A factor in [0, 1] moves a value towards zero. -/
theorem F32.val_mul_unit (hc : F32.Within Lit.c0 Lit.c1 c) (hx : F32.isFinite x = true) :
    F32.isFinite (F32.mul c x) = true ∧ min 0 (F32.val x) ≤ F32.val (F32.mul c x) ∧
    F32.val (F32.mul c x) ≤ max 0 (F32.val x) := by
  have hcf := F32.isFinite_of_within (by decide) (by decide) hc
  have hc0 : 0 ≤ F32.val c := F32.val_nonneg_of_le (a := Lit.c0) (by decide) (by decide) hcf hc.1
  have hlow : F32.low (F32.mul c x) ≤ F32.low x := by
    rw [F32.mul_comm]
    exact F32.low_mul_le_left hx (F32.low_le_of_within_of_neg_le hc)
  have hmag : (F32.val (F32.mul c x)).natAbs ≤ (F32.val x).natAbs := by
    rw [F32.val_natAbs, F32.val_natAbs, F32.mag_eq, F32.mag_eq]
    exact F32.magOf_mono hlow
  refine ⟨F32.isFinite_of_low_le (F32.isFinite_iff.mp hx) hlow, ?_⟩
  rcases le_total 0 (F32.val x) with hx0 | hx0
  · have : 0 ≤ F32.val (F32.mul c x) := F32.val_nonneg_of_key <| by
      rw [F32.key_mul hcf hx]
      exact F32.roundKey_nonneg (mul_nonneg hc0 hx0) _
    omega
  · have : 0 ≤ F32.val (F32.neg (F32.mul c x)) := F32.val_nonneg_of_key <| by
      rw [F32.mul_comm, ← F32.mul_neg_left hx hcf, F32.key_mul ((F32.isFinite_neg x).trans hx) hcf, F32.val_neg]
      exact F32.roundKey_nonneg (mul_nonneg (by omega) hc0) _
    rw [F32.val_neg] at this
    omega

/-- A number below the middle of two neighbouring magnitudes rounds to the lower one at most. -/
theorem F32.roundMag_lt_of_two_mul_lt {n d j : Nat} (hd : 0 < d) (hn : n < F32.overflowMag * d) (hj0 : 0 < j)
    (hj : j ≤ F32.infLow) (hmid : 2 * n < (F32.magOf (j - 1) + F32.magOf j) * d) : F32.roundMag n d < j := by
  by_contra hge
  have hnear := F32.nearestMag_roundMag hd hn (j - 1)
  have hup : F32.magOf j * d ≤ F32.magOf (F32.roundMag n d) * d :=
    Nat.mul_le_mul_right _ (F32.magOf_mono (Nat.le_of_not_lt hge))
  have hstrict : F32.magOf (j - 1) * d < F32.magOf j * d :=
    Nat.mul_lt_mul_of_pos_right (F32.magOf_strictMono hj (by omega)) hd
  rw [Nat.add_mul] at hmid
  simp only [← Nat.cast_mul] at hnear
  generalize F32.magOf (F32.roundMag n d) * d = A at *
  generalize F32.magOf (j - 1) * d = B at *
  generalize F32.magOf j * d = C at *
  rw [abs_of_nonneg (by omega)] at hnear
  have hdist : |(B : Int) - n| < C - n := abs_lt.mpr ⟨by omega, by omega⟩
  omega

/-- The word below `r * 2^(q+1)`: one significand less, or the greatest significand of the exponent below. -/
theorem F32.two_mul_magOf_pred {q r : Nat} (hr : 2 ^ 23 ≤ r) (hr' : r < 2 ^ 24) :
    2 * F32.magOf ((q + 1) * 2 ^ 23 + r - 1) = (if r = 2 ^ 23 then 0xFFFFFF else 2 * (r - 1)) * 2 ^ (q + 1) := by
  split
  case isTrue h =>
    rw [show (q + 1) * 2 ^ 23 + r - 1 = q * 2 ^ 23 + 0xFFFFFF by omega, F32.magOf_add (.inr (by omega)) (by omega),
      pow_succ]
    ring
  case isFalse h =>
    rw [show (q + 1) * 2 ^ 23 + r - 1 = (q + 1) * 2 ^ 23 + (r - 1) by omega,
      F32.magOf_add (.inr (by omega)) (by omega)]
    ring

/-- A product by at most `1 - 2^-24` is a smaller word: the loss is more than half a unit of the significand. -/
theorem F32.low_mul_lt (hlo : 0x38D1B717 ≤ F32.low x) (hhi : F32.low x ≤ 0x3F800000) (hc : F32.low c ≤ 0x3F7FFFFF) :
    F32.low (F32.mul x c) < F32.low x := by
  have hinf : F32.infLow = 0x7F800000 := rfl
  refine (F32.low_mul_le (by omega) (by decide) le_rfl hc).trans_lt ?_
  have hover : F32.magOf (F32.low x) * F32.magOf 0x3F7FFFFF < F32.overflowMag * 2 ^ 149 :=
    (Nat.mul_le_mul_right _ (F32.magOf_mono hhi)).trans_lt (by decide +kernel)
  refine F32.roundMag_lt_of_two_mul_lt (by decide) hover (by omega) (by omega) ?_
  generalize F32.low x = j at *
  obtain ⟨q, r, rfl, hqr, hr⟩ := F32.split_low j
  obtain ⟨q, rfl⟩ : ∃ q', q = q' + 1 := ⟨q - 1, by omega⟩
  have hr23 : 2 ^ 23 ≤ r := by omega
  have hpred := F32.two_mul_magOf_pred (q := q) hr23 hr
  have hfactor : F32.magOf 0x3F7FFFFF = 0xFFFFFF * 2 ^ 125 := by decide +kernel
  rw [F32.magOf_add hqr hr, hfactor]
  refine Nat.lt_of_mul_lt_mul_left (a := 2) ?_
  calc 2 * (2 * (r * 2 ^ (q + 1) * (0xFFFFFF * 2 ^ 125)))
    _ = 4 * (r * 0xFFFFFF) * (2 ^ (q + 1) * 2 ^ 125) := by ring
    _ < ((if r = 2 ^ 23 then 0xFFFFFF else 2 * (r - 1)) + 2 * r) * 2 ^ 24 * (2 ^ (q + 1) * 2 ^ 125) :=
      Nat.mul_lt_mul_of_pos_right (by split <;> omega) (by positivity)
    _ = ((if r = 2 ^ 23 then 0xFFFFFF else 2 * (r - 1)) * 2 ^ (q + 1) + 2 * (r * 2 ^ (q + 1))) * 2 ^ 149 := by ring
    _ = 2 * ((F32.magOf ((q + 1) * 2 ^ 23 + r - 1) + r * 2 ^ (q + 1)) * 2 ^ 149) := by rw [← hpred]; ring

/-- One step of a low-pass filter, `x + c * (y - x)` with `c` in [0, 1]: it goes from `x` towards `y`, and the rounding
of the difference, at most half a unit of [1, 2), takes it past `y` by no more than the unit of [1/2, 1). -/
theorem F32.low_lowpass_le (hx : F32.low x ≤ F32.low Lit.above0_7) (hy : F32.low y ≤ F32.low Lit.c0_7)
    (hc : F32.Within Lit.c0 Lit.c1 c) :
    F32.low (F32.add x (F32.mul c (F32.sub y x))) ≤ F32.low Lit.above0_7 := by
  have hxf : F32.isFinite x = true := F32.isFinite_of_low_le (by decide) hx
  have hyf : F32.isFinite y = true := F32.isFinite_of_low_le (by decide) hy
  have hnf : F32.isFinite (F32.neg x) = true := (F32.isFinite_neg x).trans hxf
  have hwx := F32.within_of_low_le (b := F32.neg Lit.above0_7) hx
  have hwy := F32.within_of_low_le (b := F32.neg Lit.c0_7) hy
  rw [F32.Within, F32.le_iff_val (by decide) hxf, F32.le_iff_val hxf (by decide), F32.val_neg] at hwx
  rw [F32.Within, F32.le_iff_val (by decide) hyf, F32.le_iff_val hyf (by decide), F32.val_neg] at hwy
  have hunit : F32.val Lit.above0_7 = F32.val Lit.c0_7 + 2 ^ 125 := by decide +kernel
  have hbig : 2 * F32.val Lit.above0_7 < 2 ^ 150 := by decide +kernel
  obtain ⟨hdf, hdhi, hdlo⟩ := F32.val_add_error (e := 125) hyf hnf (by rw [F32.val_neg]; omega) (by decide)
  rw [F32.val_neg] at hdhi hdlo
  obtain ⟨hpf, hplo, hphi⟩ := F32.val_mul_unit hc hdf
  have hstep : F32.Within (F32.neg Lit.above0_7) Lit.above0_7 (F32.add x (F32.mul c (F32.add y (F32.neg x)))) :=
    ⟨F32.le_add_of_le_val hxf hpf (by decide) (by rw [F32.val_neg]; omega),
      F32.add_le_of_val_le hxf hpf (by decide) (by omega)⟩
  exact F32.low_le_of_within_of_neg_le hstep

end

namespace Machine

open Sys2Proof.Claims

/-! ### Values the generators give -/

theorem clamp01_within (x : F32) : F32.Within Lit.c0 Lit.c1 (clamp01 x) := clamp_within (by decide) x

/-- A constant plus an amount times a constant, by its values at the amount's ends. -/
theorem affine_within {a b lo hi t : F32} (ht : F32.Within Lit.c0 Lit.c1 t) (ha : F32.isFinite a = true := by decide)
    (hb : F32.isFinite b = true := by decide) (hb0 : 0 ≤ F32.val b := by decide)
    (hzero : F32.isFinite (F32.mul b Lit.c0) = true := by decide +kernel)
    (hone : F32.isFinite (F32.mul b Lit.c1) = true := by decide +kernel)
    (hlo : F32.le lo (F32.add a (F32.mul b Lit.c0)) = true := by decide +kernel)
    (hhi : F32.le (F32.add a (F32.mul b Lit.c1)) hi = true := by decide +kernel) :
    F32.Within lo hi (F32.add a (F32.mul b t)) := by
  have hmul := F32.within_mul_left (by decide) (by decide) hb hb0 ht
  exact F32.within_add (F32.within_self (F32.not_isNaN_of_isFinite ha)) hmul ha ha hzero hone hlo hhi

theorem low_noiseOf_le (v : Voice) : F32.low (noiseOf v) ≤ F32.low Lit.c0_7 :=
  F32.low_le_of_within_of_neg_le (F32.within_mono (noise_within v) (lo := F32.neg Lit.c0_7) (hi := Lit.c0_7))

theorem fmin_within {a hi x : F32} (ha : F32.le Lit.c0 a = true) (hx : F32.Within Lit.c0 hi x) :
    F32.Within Lit.c0 a (fmin a x) := by
  have hna := (F32.le_iff.mp ha).2.1
  unfold fmin
  split
  case isTrue => exact ⟨ha, F32.le_self hna⟩
  case isFalse h => exact ⟨hx.1, F32.le_of_not_lt hna (F32.le_iff.mp hx.1).2.1 h⟩

/-- The cutoff that a noise band uses lies between 0.45 Hz and 90 kHz: where 200 exceeds `0.45 * SR`, the latter counts
alone. -/
theorem cutoff_within {sr : F32} (hsr : F32.Within Lit.c1 Lit.c192000 sr) (fc : F32) :
    F32.Within Lit.c0_45 0x47AFC800#32 (clamp fc Lit.c200 (F32.mul Lit.c0_45 sr)) := by
  have hmax : F32.Within Lit.c0_45 0x47AFC800#32 (F32.mul Lit.c0_45 sr) := F32.within_mul F32.within_self hsr
  have hnan := (F32.le_iff.mp hmax.1).2.1
  cases hle : F32.le Lit.c200 (F32.mul Lit.c0_45 sr)
  case true =>
    obtain ⟨hlo, hhi⟩ := clamp_within hle fc
    exact ⟨F32.le_trans (by decide) hlo, F32.le_trans hhi hmax.2⟩
  case false => rwa [clamp_of_crossed (F32.lt_of_not_le (by decide) hnan hle)]

section

variable {N : Numerics} (hN : N.Admissible)

include hN

theorem pow_within {b e lo hi : F32} (hb : F32.Within Lit.c0 Lit.c1 b) (he : F32.Within lo hi e)
    (hlo : F32.isFinite lo = true := by decide) (hhi : F32.isFinite hi = true := by decide)
    (hpos : F32.lt Lit.c0 lo = true := by decide) : F32.Within Lit.c0 Lit.c1 (N.pow b e) := by
  refine hN.pow_range b e hb (F32.isFinite_of_within hlo hhi he) ?_
  obtain ⟨hz, -, hlt⟩ := F32.lt_iff.mp hpos
  obtain ⟨-, hne, hle⟩ := F32.le_iff.mp he.1
  exact F32.lt_iff.mpr ⟨hz, hne, hlt.trans_le hle⟩

theorem low_sin_phase_le (sr f : F32) (v : Voice) : F32.low (N.sin (phaseAfter sr f v)) ≤ F32.low Lit.c1 := by
  obtain ⟨hlo, hhi⟩ := wrap_range (F32.add v.oscPhase (F32.div (F32.mul Lit.twoPi f) sr))
  have hphase : F32.isFinite (phaseAfter sr f v) = true :=
    F32.isFinite_of_within (by decide) (by decide) ⟨hlo, F32.le_of_lt hhi⟩
  exact F32.low_le_of_within_of_neg_le (hN.sin_range _ hphase)

theorem exp_neg_within {x : F32} (hx : F32.le Lit.c0 x = true) : F32.Within Lit.c0 Lit.c1 (N.exp (F32.neg x)) :=
  hN.exp_range _ (F32.le_trans (F32.le_neg_neg hx) (by decide))

variable {sr : F32} (hsr : F32.Within Lit.c1 Lit.c192000 sr)

include hsr

theorem hpAlpha_within (fc : F32) : F32.Within Lit.c0 Lit.c1 (hpAlpha N sr fc) := by
  have hturn : F32.Within Lit.c2 0x49FFFFFF#32 (F32.mul Lit.twoPi (clamp fc Lit.c200 (F32.mul Lit.c0_45 sr))) :=
    F32.within_mul F32.within_self (cutoff_within hsr fc)
  have hquot := F32.within_div (lo := Lit.c0) (hi := 0x49FFFFFF#32) hturn hsr
  exact F32.within_sub F32.within_self (exp_neg_within hN hquot.1)

variable (fc f : F32) {v : Voice} (hv : v.InRange)

include hv

theorem low_lowpassAfter_le : F32.low (lowpassAfter N sr fc v) ≤ F32.low Lit.above0_7 :=
  F32.low_lowpass_le (F32.low_le_of_absLe hv.noiseLowpass) (low_noiseOf_le v) (hpAlpha_within hN hsr fc)

/-- A noise band is at most 1.4, and a unit of the last place. -/
theorem low_bandOf_le : F32.low (bandOf N sr fc v) ≤ 0x3FB33334 :=
  F32.low_sub_le_of (low_noiseOf_le v) (low_lowpassAfter_le hN hsr fc hv)

theorem filtered_inRange : (filtered N sr fc v).InRange :=
  { hv with noiseLowpass := F32.absLe_of_low_le (low_lowpassAfter_le hN hsr fc hv) }

theorem stepped_inRange : (stepped N sr fc f v).InRange :=
  { filtered_inRange hN hsr fc hv with oscPhase := wrap_range _ }

end

/-! ### The renderers (R171) -/

/-- What a renderer returns is in order: its voice in its ranges, its sample at most 2.2. -/
def Rendered (r : Voice × F32) : Prop := r.1.InRange ∧ F32.low r.2 ≤ F32.low Lit.c2_2

section

variable {N : Numerics} (hN : N.Admissible) {sr : F32} (hsr : F32.Within Lit.c1 Lit.c192000 sr) (p : SlotParams)
  {env : F32} {v : Voice} (hv : v.InRange)

include hN hsr hv

theorem renderSnare_rendered : Rendered (renderSnare N sr p env v) := by
  simp only [renderSnare, osc_snd, noiseBand_osc]
  refine ⟨stepped_inRange hN hsr _ _ hv, ?_⟩
  have hbody : F32.Within Lit.c0 Lit.c0_4 (F32.mul Lit.c0_4 (F32.sub Lit.c1 (clamp01 p.tone))) :=
    F32.within_mul F32.within_self
      (F32.within_sub (lo := Lit.c0) (hi := Lit.c1) F32.within_self (clamp01_within p.tone))
  have hgain : F32.Within Lit.c0_8 Lit.c1_2 (F32.add Lit.c0_8 (F32.mul Lit.c0_4 (clamp01 p.snap))) :=
    affine_within (clamp01_within p.snap)
  exact F32.low_add_le_of
    (F32.low_mul_le_of (m := 0x3ECCCCCD) (F32.low_le_of_within_of_neg_le hbody) (low_sin_phase_le hN ..))
    (F32.low_mul_le_of (m := 0x3FE00000) (F32.low_le_of_within_of_neg_le hgain) (low_bandOf_le hN hsr _ hv))

theorem renderTom_rendered : Rendered (renderTom N sr p env v) := by
  simp only [renderTom, osc_snd, noiseBand_osc]
  refine ⟨stepped_inRange hN hsr _ _ hv, ?_⟩
  exact F32.low_add_le_of
    (F32.low_mul_le_of (m := 0x3F800000) (le_refl (F32.low Lit.c0_9)) (low_sin_phase_le hN ..))
    (F32.low_mul_le_of (m := 0x3F000000) (le_refl (F32.low Lit.c0_3)) (low_bandOf_le hN hsr _ hv))

variable (henv : F32.Within Lit.c0 Lit.c1 env)

include henv

theorem renderKick_rendered : Rendered (renderKick N sr p env v) := by
  simp only [renderKick, osc_snd, noiseBand_osc]
  refine ⟨stepped_inRange hN hsr _ _ hv, ?_⟩
  have hclick : F32.Within Lit.c0 Lit.c1 (F32.mul (clamp01 p.snap) (N.pow env Lit.c0_3)) :=
    F32.within_mul (clamp01_within p.snap) (pow_within hN henv F32.within_self)
  exact F32.low_add_le_of
    (F32.low_mul_le_of (m := 0x3F800000) (le_refl (F32.low Lit.c0_9)) (low_softsat_le _))
    (F32.low_mul_le_of (m := 0x3F800000) (le_refl (F32.low Lit.c0_4))
      (F32.low_mul_le_of (m := 0x3FC00000) (low_bandOf_le hN hsr _ hv) (F32.low_le_of_within_of_neg_le hclick)))

theorem renderClap_rendered : Rendered (renderClap N sr p env v) := by
  simp only [renderClap, noiseBand_eq]
  refine ⟨filtered_inRange hN hsr _ hv, ?_⟩
  have hgain : F32.Within Lit.c1 Lit.c2 (F32.add Lit.c1 (F32.mul Lit.c0_6 (clamp01 p.snap))) :=
    affine_within (clamp01_within p.snap)
  have hraw : F32.Within Lit.c0 Lit.c2
      (F32.mul (N.pow env Lit.c0_3) (F32.add Lit.c1 (F32.mul Lit.c0_6 (clamp01 p.snap)))) :=
    F32.within_mul (pow_within hN henv F32.within_self) hgain
  have hburst := fmin_within (a := Lit.c1_5) (by decide) hraw
  exact F32.low_mul_le_of (low_bandOf_le hN hsr _ hv) (F32.low_le_of_within_of_neg_le hburst)

theorem renderHatClosed_rendered : Rendered (renderHatClosed N sr p env v) := by
  simp only [renderHatClosed, noiseBand_eq]
  refine ⟨filtered_inRange hN hsr _ hv, ?_⟩
  have hfall : F32.Within Lit.c0 Lit.c1_5 (F32.mul Lit.c1_5 (clamp01 p.snap)) :=
    F32.within_mul F32.within_self (clamp01_within p.snap)
  have hexponent : F32.Within Lit.c1 Lit.c2_5 (F32.sub Lit.c2_5 (F32.mul Lit.c1_5 (clamp01 p.snap))) :=
    F32.within_sub F32.within_self hfall
  have hgain : F32.Within Lit.c0_8 Lit.c1_2 (F32.add Lit.c0_8 (F32.mul Lit.c0_4 (clamp01 p.snap))) :=
    affine_within (clamp01_within p.snap)
  exact F32.low_mul_le_of (F32.low_mul_le_of (m := 0x3FC00000) (low_bandOf_le hN hsr _ hv)
    (F32.low_le_of_within_of_neg_le (pow_within hN henv hexponent))) (F32.low_le_of_within_of_neg_le hgain)

theorem renderHatOpen_rendered : Rendered (renderHatOpen N sr p env v) := by
  simp only [renderHatOpen, noiseBand_eq]
  refine ⟨filtered_inRange hN hsr _ hv, ?_⟩
  have hexponent : F32.Within Lit.c1_2 Lit.c2 (F32.add Lit.c1_2 (F32.mul Lit.c0_8 (clamp01 p.snap))) :=
    affine_within (clamp01_within p.snap)
  have hgain : F32.Within Lit.c0_9 Lit.c1_2 (F32.add Lit.c0_9 (F32.mul Lit.c0_3 (clamp01 p.snap))) :=
    affine_within (clamp01_within p.snap)
  exact F32.low_mul_le_of (F32.low_mul_le_of (m := 0x3FC00000) (low_bandOf_le hN hsr _ hv)
    (F32.low_le_of_within_of_neg_le (pow_within hN henv hexponent))) (F32.low_le_of_within_of_neg_le hgain)

theorem renderPerc1_rendered : Rendered (renderPerc1 N sr p env v) := by
  simp only [renderPerc1, noiseBand_eq, osc_filtered]
  refine ⟨stepped_inRange hN hsr _ _ hv, ?_⟩
  have hgain : F32.Within Lit.c0 Lit.c0_9 (F32.mul Lit.c0_9 (N.pow env Lit.c0_7)) :=
    F32.within_mul F32.within_self (pow_within hN henv F32.within_self)
  exact F32.low_add_le_of
    (F32.low_mul_le_of (m := 0x3FC00000) (F32.low_le_of_within_of_neg_le hgain) (low_bandOf_le hN hsr _ hv))
    (F32.low_mul_le_of (m := 0x3F000000) (le_refl (F32.low Lit.c0_3)) (low_sin_phase_le hN ..))

theorem renderPerc2_rendered : Rendered (renderPerc2 N sr p env v) := by
  simp only [renderPerc2, osc_snd, noiseBand_osc]
  refine ⟨stepped_inRange hN hsr _ _ hv, ?_⟩
  have hshape : F32.Within Lit.c0 Lit.c1 (N.pow env Lit.c0_9) := pow_within hN henv F32.within_self
  exact F32.low_mul_le_of (F32.low_le_of_within_of_neg_le hshape) (F32.low_add_le_of (m := 0x40000000)
    (F32.low_mul_le_of (m := 0x3F800000) (le_refl (F32.low Lit.c0_6)) (low_sin_phase_le hN ..))
    (F32.low_mul_le_of (m := 0x3F800000) (le_refl (F32.low Lit.c0_5)) (low_bandOf_le hN hsr _ hv)))

/-- Every renderer returns a voice in its ranges and a sample of at most 2.2. -/
theorem render_rendered (k : Kind) : Rendered (render N sr p k env v) := by
  cases k
  case kick => exact renderKick_rendered hN hsr p hv henv
  case snare => exact renderSnare_rendered (env := env) hN hsr p hv
  case clap => exact renderClap_rendered hN hsr p hv henv
  case hatClosed => exact renderHatClosed_rendered hN hsr p hv henv
  case hatOpen => exact renderHatOpen_rendered hN hsr p hv henv
  case tom => exact renderTom_rendered (env := env) hN hsr p hv
  case perc1 => exact renderPerc1_rendered hN hsr p hv henv
  case perc2 => exact renderPerc2_rendered hN hsr p hv henv

end

theorem bankRender_rendered {s : State} {i : Slot} (hsr : s.RateOk) (hv : (s.voices[i]).InRange) :
    Rendered (bankRender s i) :=
  render_rendered Config.params_admissible.num hsr _ hv hv.envelope _

/-- Settles O34: the step of each renderer is `bankRender`, which `render_rendered` bounds. -/
theorem rendererResultsBounded : Obligations.RendererResultsBounded := by
  intro i s hsr hv
  obtain ⟨hvoice, hsample⟩ := bankRender_rendered hsr hv
  refine ⟨_, (bankRender s i).2, exec_renderer i s, rfl, F32.absLe_of_low_le hsample, ?_⟩
  rwa [State.rendered_same]

/-! ### VPROC (R157 to R161) -/

/-- FLUSH answers its operand or `+0.0`. -/
theorem flush_within {x : F32} (h : F32.Within Lit.n1 Lit.c1 x) : F32.Within Lit.n1 Lit.c1 (flush x) := by
  unfold flush
  split
  case isTrue => decide
  case isFalse => exact h

section

variable (N : Numerics) (sr : F32) (p : SlotParams) (k : Kind) {v : Voice}

/-- A call of VPROC on an active voice ends the hit, or renders on the decayed envelope. -/
theorem vproc_active_cases (ha : v.active = true) :
    vproc N sr p k v = ({ v with envelope := Lit.c0, active := false }, Lit.c0) ∨
    F32.lt (decayed v) Config.envFloor = false ∧
      vproc N sr p k v = ((render N sr p k (decayed v) { v with envelope := decayed v }).1,
        shapeSample (render N sr p k (decayed v) { v with envelope := decayed v }).1
          (render N sr p k (decayed v) { v with envelope := decayed v }).2) := by
  cases he : F32.lt (decayed v) Config.envFloor
  case true => exact .inl (vproc_terminal N sr p k ha he)
  case false => exact .inr ⟨rfl, vproc_sounding N sr p k ha he⟩

/-- Settles O39: the sample is `+0.0`, or a flushed value of SOFTSAT. -/
theorem voiceSampleInUnitRange : Obligations.VoiceSampleInUnitRange := by
  intro N sr p k v
  have hzero : F32.Within Lit.n1 Lit.c1 Lit.c0 := by decide
  cases ha : v.active
  case false =>
    rw [vproc_inactive N sr p k ha]
    exact hzero
  case true =>
    rcases vproc_active_cases N sr p k ha with h | ⟨-, h⟩ <;> rw [h]
    · exact hzero
    · exact flush_within (softsat_within _)

/-- The decayed envelope lies between `+0.0` and the envelope. -/
theorem decayed_within {e c : F32} (he : F32.Within Lit.c0 Lit.c1 e) (hc : F32.Within Lit.c0 Lit.c1 c) :
    F32.Within Lit.c0 e (F32.mul e c) := by
  have hef := F32.isFinite_of_within (by decide) (by decide) he
  have hcf := F32.isFinite_of_within (by decide) (by decide) hc
  obtain ⟨hmf, hlo, hhi⟩ := F32.val_mul_unit hc hef
  have he0 : 0 ≤ F32.val e := F32.val_nonneg_of_le (a := Lit.c0) (by decide) (by decide) hef he.1
  have hzero : F32.val Lit.c0 = 0 := by decide
  rw [F32.mul_comm, F32.Within, F32.le_iff_val (by decide) hmf, F32.le_iff_val hmf hef, hzero]
  omega

/-- Settles O38: the envelope stays, is cleared or is multiplied by the decay coefficient. -/
theorem envelopeNeverIncreases : Obligations.EnvelopeNeverIncreases := by
  intro N sr p k v he hc
  cases ha : v.active
  case false =>
    rw [vproc_inactive N sr p k ha]
    exact F32.le_self (F32.le_iff.mp he.1).2.1
  case true =>
    rcases vproc_active_cases N sr p k ha with h | ⟨-, h⟩ <;> rw [h]
    · exact he.1
    · rw [render_fst]
      exact (decayed_within he hc).2

end

/-! ### Every hit ends (R154, R174) -/

/-- What an active voice in its ranges is about to do: its envelope is at or above the floor and decays by a coefficient
of at most `1 - 2^-24`. -/
structure Sounding (v : Voice) : Prop where
  active : v.active = true
  envelope : F32.Within Config.envFloor Lit.c1 v.envelope
  decayCoef : F32.Within Lit.c0 0x3F7FFFFF#32 v.decayCoef

theorem sounding_of_inRange {v : Voice} (hv : v.InRange) (ha : v.active = true) : Sounding v := by
  obtain ⟨hc0, hc1⟩ := hv.decayCoef
  obtain ⟨hnan, -, hlt⟩ := F32.lt_iff.mp hc1
  have hkey : F32.key Lit.c1 = F32.key 0x3F7FFFFF#32 + 1 := by decide
  exact ⟨ha, ⟨hv.active ha, hv.envelope.2⟩, hc0, F32.le_iff.mpr ⟨hnan, by decide, by omega⟩⟩

/-- One call ends the hit or lowers the envelope to a smaller word, which still is not below the floor. -/
theorem vproc_sounding_decreases (N : Numerics) (sr : F32) (p : SlotParams) (k : Kind) {v : Voice} (hv : Sounding v) :
    (vproc N sr p k v).1.active = false ∨
    Sounding (vproc N sr p k v).1 ∧ F32.low (vproc N sr p k v).1.envelope < F32.low v.envelope := by
  obtain ⟨ha, henv, hcoef⟩ := hv
  rcases vproc_active_cases N sr p k ha with h | ⟨hfloor, h⟩ <;> rw [h]
  · exact .inl rfl
  · rw [render_fst]
    have hdecay := decayed_within (F32.within_mono henv) (F32.within_mono hcoef)
    have hle : F32.le Config.envFloor (decayed v) = true :=
      F32.le_of_not_lt (F32.le_iff.mp hdecay.1).2.1 (by decide) (Bool.eq_false_iff.mp hfloor)
    refine .inr ⟨⟨ha, ⟨hle, F32.le_trans hdecay.2 henv.2⟩, hcoef⟩, ?_⟩
    exact F32.low_mul_lt (F32.low_le_low_of_le henv.1) (F32.low_le_of_within_of_neg_le henv)
      (F32.low_le_of_within_of_neg_le hcoef)

/-- A hit ends before its envelope has run through the words down to the floor. -/
theorem exists_inactive (N : Numerics) (sr : F32) (p : SlotParams) (k : Kind) (n : Nat) {v : Voice} (hv : Sounding v)
    (hn : F32.low v.envelope < F32.low Config.envFloor + n) :
    ∃ m, m ≤ n ∧ (vprocTimes N sr p k m v).active = false := by
  induction n generalizing v with
  | zero =>
    have := F32.low_le_low_of_le hv.envelope.1
    omega
  | succ n ih =>
    rcases vproc_sounding_decreases N sr p k hv with h | ⟨hv', hlt⟩
    · exact ⟨1, by omega, h⟩
    · obtain ⟨m, hm, hend⟩ := ih hv' (by omega)
      exact ⟨m + 1, by omega, hend⟩

/-- Settles O40: between the floor and 1 lie fewer than 2^27 words, and each call uses one up. -/
theorem everyHitEnds : Obligations.EveryHitEnds := by
  intro N sr p k v hv
  cases ha : v.active
  case false => exact ⟨0, Nat.zero_le _, ha⟩
  case true =>
    have hs := sounding_of_inRange hv ha
    have hlow := F32.low_le_of_within_of_neg_le hs.envelope
    have hone : F32.low Lit.c1 = 0x3F800000 := by decide
    have hfloor : F32.low Config.envFloor = 0x38D1B717 := by decide
    exact exists_inactive N sr p k (2 ^ 27) hs (by omega)

end Machine

end Sys2Proof

end

section
/-! PROOFS. TRIG and VPROC keep a voice in its ranges (10_state.md R21, 41_voice.md R150 to R161). -/

namespace Sys2Proof.Machine

open Sys2Proof.Claims

/-! ### The coefficients of R154 and R193 -/

section

variable {N : Numerics} (hN : N.Admissible) {sr : F32} (hsr : F32.Within Lit.c1 Lit.c192000 sr)

include hN hsr

/-- A one-pole coefficient of a time constant between 0.001 and 90 seconds lies in [0, 1) at every rate: its exponent is
at most -4.0e-8. -/
theorem poleCoef_within {t : F32} (ht : F32.Within Lit.c0_001 0x42B40000#32 t) :
    F32.Within Lit.c0 Lit.c1 (poleCoef N t sr) ∧ F32.lt (poleCoef N t sr) Lit.c1 = true := by
  have hsamples : F32.Within Lit.c0_001 0x4B83D600#32 (F32.mul t sr) := F32.within_mul ht hsr
  have hrate : F32.Within (F32.neg Lit.n4_0em8) 0x447A0000#32 (F32.div Lit.c1 (F32.mul t sr)) :=
    F32.within_div F32.within_self hsamples
  have hexponent : F32.le (F32.neg (F32.div Lit.c1 (F32.mul t sr))) Lit.n4_0em8 = true := by
    simpa using F32.le_neg_neg hrate.1
  exact ⟨exp_neg_within hN (F32.le_trans (by decide) hrate.1), hN.exp_lt_one _ hexponent⟩

end

/-- `tau` lies between 1 ms and 90 s. -/
theorem decayTau_within (decayMs : F32) {mult : F32} (hm : F32.Within Lit.c0_5 Lit.c1_5 mult) :
    F32.Within Lit.c0_001 0x42B40000#32 (decayTau decayMs mult) := by
  have hms : F32.Within Lit.c5 Lit.c60000 (clamp decayMs Config.decayMsMin Config.decayMsMax) :=
    clamp_within (by decide) decayMs
  have hsec : F32.Within Lit.c0_005 0x42700000#32
      (F32.div (clamp decayMs Config.decayMsMin Config.decayMsMax) Lit.c1000) :=
    F32.within_div hms F32.within_self
  have htau : F32.Within Lit.c0_001 0x42B40000#32
      (F32.mul (F32.div (clamp decayMs Config.decayMsMin Config.decayMsMax) Lit.c1000) mult) :=
    F32.within_mul hsec hm
  refine ⟨le_fmax (by decide), ?_⟩
  unfold decayTau fmax
  split
  case isTrue => exact htau.2
  case isFalse => decide

/-! ### The values TRIG, VPROC and reset write -/

theorem zero_within_unit : F32.Within Lit.c0 Lit.c1 Lit.c0 := by decide

theorem one_within_unit : F32.Within Lit.c0 Lit.c1 Lit.c1 := by decide

theorem zero_absLe_lowpass : F32.AbsLe Lit.c0 Lit.above0_7 := by decide

theorem zero_in_coefficients : F32.le Lit.c0 Lit.c0 = true ∧ F32.lt Lit.c0 Lit.c1 = true := by decide

theorem zero_in_turn : F32.le Lit.c0 Lit.c0 = true ∧ F32.lt Lit.c0 Lit.twoPi = true := by decide

/-! ### TRIG -/

/-- An amount in [0, c] times a bipolar value lies in [-c, c]. -/
theorem draw_within {w c : F32} (s : U32) (hw : F32.Within Lit.c0 c w) (hc : F32.isFinite c = true := by decide)
    (hc0 : F32.sign c = false := by decide) (hk : -F32.key c ≤ F32.key Lit.c0 := by decide) :
    F32.Within (F32.neg c) c (F32.mul w (bipolarOf s)) := by
  have hb : F32.low (bipolarOf s) ≤ F32.low Lit.c1 :=
    F32.low_le_of_within_of_neg_le (F32.within_mono (lo := Lit.n1) (hi := Lit.c1) (bipolarOf_within s))
  have hlow := F32.low_le_of_within_of_neg_le hw hk
  have hwf := F32.isFinite_of_low_le (F32.isFinite_iff.mp hc) hlow
  exact F32.within_of_low_le ((F32.low_mul_le_left hwf hb).trans hlow) hc hc0 rfl

/-- The three draws of step 3, or the neutral values, lie in their ranges (R153). -/
theorem trigHumanize_within (humanize : F32) (v : Voice) :
    F32.Within Lit.c0_85 Lit.c1_15 (trigHumanize humanize v).humanAmp ∧
    F32.Within Lit.n3 Lit.c3 (trigHumanize humanize v).humanPitch ∧
    F32.Within Lit.c0_5 Lit.c1_5 (trigHumanize humanize v).humanDecayMul := by
  have hh : F32.Within Lit.c0 Lit.c1 (clamp humanize Lit.c0 Lit.c1) := clamp_within (by decide) humanize
  have hamp : F32.Within Lit.c0 Lit.c0_15 (F32.mul Lit.c0_15 (clamp humanize Lit.c0 Lit.c1)) :=
    F32.within_mul F32.within_self hh
  have hpitch : F32.Within Lit.c0 Lit.c3 (F32.mul Lit.c3 (clamp humanize Lit.c0 Lit.c1)) :=
    F32.within_mul F32.within_self hh
  have hdecay : F32.Within Lit.c0 Lit.c0_5 (F32.mul Lit.c0_5 (clamp humanize Lit.c0 Lit.c1)) :=
    F32.within_mul F32.within_self hh
  rw [trigHumanize_eq]
  dsimp only
  split
  case isTrue =>
    exact ⟨F32.within_add F32.within_self (draw_within _ hamp),
      draw_within _ hpitch,
      F32.within_add F32.within_self (draw_within _ hdecay)⟩
  case isFalse => decide

theorem basePitch_within (i : Slot) : F32.Within Lit.c20 Lit.c12000 (basePitch i) := by
  revert i
  decide

section

variable {N : Numerics} (hN : N.Admissible) {sr : F32} (hsr : F32.Within Lit.c1 Lit.c192000 sr)

include hN hsr

/-- TRIG puts every field in its range, whatever the voice, the parameters and the velocity hold. -/
theorem trig_inRange (m : MasterParams) (p : SlotParams) (i : Slot) (vel : F32) (v : Voice) :
    (trig N sr m p i vel v).InRange := by
  obtain ⟨hamp, hpitch, hdecay⟩ := trigHumanize_within p.humanize (trigVelocity N m.velocityCurve vel (trigStart v))
  obtain ⟨hcoef, hcoefLt⟩ := poleCoef_within hN hsr (decayTau_within p.decayMs hdecay)
  have hexponent : F32.Within Lit.c0_5 Lit.c1_5 (F32.add Lit.c0_5 (clamp01 m.velocityCurve)) :=
    F32.within_add F32.within_self (clamp01_within m.velocityCurve)
  have hvelocity : F32.Within Lit.c0 Lit.c1 (shapedVelocity N m.velocityCurve vel) :=
    pow_within hN (clamp01_within vel) hexponent
  have hstart : (trigHumanize p.humanize (trigVelocity N m.velocityCurve vel (trigStart v))) =
      { (trigHumanize p.humanize (trigVelocity N m.velocityCurve vel (trigStart v))) with
        active := true, envelope := Lit.c1, noiseLowpass := Lit.c0
        velocity := shapedVelocity N m.velocityCurve vel } := by
    rw [trigHumanize_eq]
    rfl
  rw [trig]
  generalize trigHumanize p.humanize (trigVelocity N m.velocityCurve vel (trigStart v)) = w at *
  rw [hstart]
  exact {
    envelope := one_within_unit
    active := fun _ => by show F32.le Config.envFloor Lit.c1 = true; decide
    decayCoef := ⟨hcoef.1, hcoefLt⟩
    velocity := hvelocity
    noiseLowpass := zero_absLe_lowpass
    oscPhase := zero_in_turn
    baseFreq := clamp_within (by decide) _
    humanAmp := hamp
    humanPitch := hpitch
    humanDecayMul := hdecay }

/-- VPROC keeps the ranges: a hit that ends leaves an inactive voice with envelope `+0.0`, one that goes on renders on
the decayed envelope. -/
theorem vproc_inRange (p : SlotParams) (k : Kind) {v : Voice} (hv : v.InRange) : (vproc N sr p k v).1.InRange := by
  cases ha : v.active
  case false => rwa [vproc_inactive N sr p k ha]
  case true =>
    rcases vproc_active_cases N sr p k ha with h | ⟨hfloor, h⟩ <;> rw [h]
    · exact { hv with
        envelope := zero_within_unit
        active := fun h => by simp at h }
    · have hdecay := decayed_within hv.envelope ⟨hv.decayCoef.1, F32.le_of_lt hv.decayCoef.2⟩
      have henv : F32.Within Lit.c0 Lit.c1 (decayed v) := ⟨hdecay.1, F32.le_trans hdecay.2 hv.envelope.2⟩
      have hle : F32.le Config.envFloor (decayed v) = true :=
        F32.le_of_not_lt (F32.le_iff.mp henv.1).2.1 (by decide) (Bool.eq_false_iff.mp hfloor)
      have hdecayed : ({ v with envelope := decayed v } : Voice).InRange :=
        { hv with envelope := henv, active := fun _ => hle }
      exact (render_rendered hN hsr p hdecayed henv k).1

end

/-- A voice silenced by a rate change is in its ranges. -/
theorem silenced_inRange {v : Voice} (hv : v.InRange) : (silenced v).InRange :=
  { hv with
    envelope := zero_within_unit
    active := fun h => by simp [silenced] at h
    noiseLowpass := zero_absLe_lowpass
    oscPhase := zero_in_turn }

theorem Voice.reset_inRange (C : Params) (i : Slot) : (Voice.reset C i).InRange where
  envelope := zero_within_unit
  active h := by simp [Voice.reset] at h
  decayCoef := zero_in_coefficients
  velocity := zero_within_unit
  noiseLowpass := zero_absLe_lowpass
  oscPhase := zero_in_turn
  baseFreq := basePitch_within i
  humanAmp := by show F32.Within Lit.c0_85 Lit.c1_15 Lit.c1; decide
  humanPitch := by show F32.Within Lit.n3 Lit.c3 Lit.c0; decide
  humanDecayMul := by show F32.Within Lit.c0_5 Lit.c1_5 Lit.c1; decide

/-- A voice in a frame: its triggers, then one VPROC. -/
theorem framedVoice_inRange {s : State} (hsr : s.RateOk) {i : Slot} (hv : (s.voices[i]).InRange) :
    (framedVoice s i).1.InRange := by
  have hN := Config.params_admissible.num
  refine vproc_inRange hN hsr _ _ ?_
  rw [triggeredVoice]
  generalize (releasedEvents s).filter (fun e => e.slot = i) = events
  generalize s.voices[i] = v at hv ⊢
  induction events generalizing v with
  | nil => exact hv
  | cons e rest ih => exact ih _ (trig_inRange hN hsr ..)

end Sys2Proof.Machine

end

section
/-! PROOFS. The mixer and the master bus in their ranges (42_voicebank.md R183, 43_masterbus.md R192 to R198): the sums,
the compressor's follower and gain, the delay lines and the frame's two samples. -/

namespace Sys2Proof

/-! ### Sums by magnitudes -/

section

variable {x y : F32}

/-- A sum is no larger than a representable bound on the sum of the magnitudes. -/
theorem F32.mag_add_le {q r : Nat} (hx : F32.isFinite x = true) (hy : F32.isFinite y = true)
    (h : F32.mag x + F32.mag y ≤ r * 2 ^ q) (hr : r < 2 ^ 24) (hq : q ≤ 253) :
    F32.isFinite (F32.add x y) = true ∧ F32.mag (F32.add x y) ≤ r * 2 ^ q := by
  obtain ⟨hinf, hmag⟩ := F32.magOf_roundMag_of_representable hr hq Nat.one_pos
  have hsum : (F32.val x + F32.val y).natAbs ≤ r * 2 ^ q := by
    have hxa := F32.val_natAbs x
    have hya := F32.val_natAbs y
    omega
  have hround : F32.low (F32.add x y) ≤ F32.roundMag (r * 2 ^ q * 1) 1 := by
    rw [F32.add_of_finite hx hy, F32.low_addFinite]
    exact F32.roundMag_mono Nat.one_pos Nat.one_pos (by omega)
  rw [F32.isFinite_iff, F32.mag_eq, ← hmag]
  exact ⟨hround.trans_lt hinf, F32.magOf_mono hround⟩

/-- A sum of `n` terms of magnitude at most `2^q` is at most `n * 2^q`: every bound on the way is representable. -/
theorem F32.foldl_add_mag_le {α : Type} {f : α → F32} {q : Nat} (hq : q ≤ 253)
    (hf : ∀ i, F32.isFinite (f i) = true ∧ F32.mag (f i) ≤ 2 ^ q) (l : List α) {n : Nat} {acc : F32}
    (hacc : F32.isFinite acc = true ∧ F32.mag acc ≤ n * 2 ^ q) (hn : n + l.length < 2 ^ 24) :
    F32.isFinite (l.foldl (fun a i => F32.add a (f i)) acc) = true ∧
    F32.mag (l.foldl (fun a i => F32.add a (f i)) acc) ≤ (n + l.length) * 2 ^ q := by
  induction l generalizing n acc with
  | nil => exact hacc
  | cons i rest ih =>
    obtain ⟨haf, ham⟩ := hacc
    obtain ⟨hif, him⟩ := hf i
    rw [List.length_cons] at hn
    have hsum : F32.mag acc + F32.mag (f i) ≤ (n + 1) * 2 ^ q := by
      rw [Nat.add_mul, Nat.one_mul]
      exact Nat.add_le_add ham him
    have h := ih (F32.mag_add_le haf hif hsum (by omega) hq) (by omega)
    rwa [Nat.add_assoc, Nat.add_comm 1] at h

theorem F32.val_of_within_unit (hx : F32.Within Lit.c0 Lit.c1 x) :
    F32.isFinite x = true ∧ 0 ≤ F32.val x ∧ F32.val x ≤ 2 ^ 149 := by
  have hone : F32.val Lit.c1 = 2 ^ 149 := by decide +kernel
  have hxf := F32.isFinite_of_within (by decide) (by decide) hx
  rw [← hone]
  exact ⟨hxf, (F32.le_iff_val (by decide) hxf).mp hx.1, (F32.le_iff_val hxf (by decide)).mp hx.2⟩

/-- Sixteen times a value in [0, 1] is exact. -/
theorem F32.val_mul_sixteen (hx : F32.Within Lit.c0 Lit.c1 x) :
    F32.isFinite (F32.mul x Lit.c16) = true ∧ F32.val (F32.mul x Lit.c16) = 16 * F32.val x := by
  obtain ⟨hxf, hx0, -⟩ := F32.val_of_within_unit hx
  have hlow : F32.low x ≤ F32.low Lit.c1 := F32.low_le_of_within_of_neg_le hx
  have hone : F32.low Lit.c1 = 127 * 2 ^ 23 := by decide
  have hsixteen : F32.val Lit.c16 = 2 ^ 4 * 2 ^ 149 := by decide +kernel
  have hval : F32.val x = (F32.magOf (F32.low x) : Nat) := by
    rw [← F32.mag_eq, ← F32.val_natAbs]
    omega
  obtain ⟨q, r, hsplit, hqr, hr⟩ := F32.split_low (F32.low x)
  rw [hsplit, F32.magOf_add hqr hr] at hval
  have hprod : F32.val x * F32.val Lit.c16 = (r * 2 ^ (q + 4) : Nat) * 2 ^ 149 := by
    rw [hval, hsixteen, pow_add]
    push_cast
    ring
  obtain ⟨hf, hv⟩ := F32.val_mul_exact hxf (by decide) hprod hr (by omega)
  refine ⟨hf, hv.trans ?_⟩
  rw [hval, pow_add]
  push_cast
  ring

/-- The weights `k` and `1 - k`, the second rounded, add up to no more than half a unit above 1. -/
theorem F32.val_weights_le {k : F32} (hk : F32.Within Lit.c0 Lit.c1 k) :
    F32.val k + F32.val (F32.sub Lit.c1 k) ≤ 2 ^ 149 + 2 ^ 125 := by
  obtain ⟨hkf, hk0, hk1⟩ := F32.val_of_within_unit hk
  have hone : F32.val Lit.c1 = 2 ^ 149 := by decide +kernel
  obtain ⟨-, hup, -⟩ := F32.val_add_error (e := 125) (x := Lit.c1) (by decide) ((F32.isFinite_neg k).trans hkf)
    (by rw [F32.val_neg]; omega) (by decide)
  rw [F32.val_neg] at hup
  unfold F32.sub
  omega

/-- A mean of two values in [0, 16] with the weights `k` and `1 - k` is at most 16: what the rounded weights are above
1, the rounding of the sum takes away. -/
theorem F32.weighted_within {k e : F32} (hk : F32.Within Lit.c0 Lit.c1 k) (he : F32.Within Lit.c0 Lit.c16 e)
    (hx : F32.Within Lit.c0 Lit.c16 x) :
    F32.Within Lit.c0 Lit.c16 (F32.add (F32.mul k e) (F32.mul (F32.sub Lit.c1 k) x)) := by
  have hd : F32.Within Lit.c0 Lit.c1 (F32.sub Lit.c1 k) := F32.within_sub F32.within_self hk
  have hke : F32.Within Lit.c0 Lit.c16 (F32.mul k e) := F32.within_mul hk he
  have hdx : F32.Within Lit.c0 Lit.c16 (F32.mul (F32.sub Lit.c1 k) x) := F32.within_mul hd hx
  obtain ⟨hkf, hk0, -⟩ := F32.val_of_within_unit hk
  obtain ⟨hdf, hd0, -⟩ := F32.val_of_within_unit hd
  obtain ⟨hk16f, hk16⟩ := F32.val_mul_sixteen hk
  obtain ⟨hd16f, hd16⟩ := F32.val_mul_sixteen hd
  have hfinite {y : F32} (hy : F32.Within Lit.c0 Lit.c16 y) : F32.isFinite y = true :=
    F32.isFinite_of_within (by decide) (by decide) hy
  have hkle := F32.mul_le_mul_left (hfinite he) (by decide) hkf hk0 he.2
  have hdle := F32.mul_le_mul_left (hfinite hx) (by decide) hdf hd0 hx.2
  have htop : F32.le (F32.add (F32.mul k Lit.c16) (F32.mul (F32.sub Lit.c1 k) Lit.c16)) Lit.c16 = true := by
    have hsum : F32.val (F32.mul k Lit.c16) + F32.val (F32.mul (F32.sub Lit.c1 k) Lit.c16) ≤ 2 ^ 153 + 2 ^ 129 := by
      have := F32.val_weights_le hk
      omega
    rw [F32.le_iff, F32.key_add hk16f hd16f]
    exact ⟨F32.isNaN_add hk16f hd16f, by decide, (F32.roundKey_mono Nat.one_pos hsum).trans (by decide +kernel)⟩
  exact ⟨(F32.within_add (hi := 0x42000000#32) hke hdx).1,
    F32.le_trans (F32.add_le_add (hfinite hke) hk16f (hfinite hdx) hd16f hkle hdle) htop⟩

theorem F32.abs_within {c : F32} (h : F32.low x ≤ F32.low c) (hc : F32.isFinite c = true := by decide)
    (hc0 : F32.sign c = false := by decide) : F32.Within Lit.c0 c (F32.abs x) := by
  obtain ⟨hxf, hle⟩ := F32.absLe_of_low_le h hc hc0
  refine ⟨F32.le_iff.mpr ⟨by decide, (F32.le_iff.mp hle).1, ?_⟩, hle⟩
  rw [F32.key_abs]
  exact Int.natCast_nonneg _

theorem F32.abs_le_abs (h : F32.low x ≤ F32.low y) (hy : F32.isFinite y = true) :
    F32.le (F32.abs x) (F32.abs y) = true :=
  (F32.absLe_of_low_le (by rwa [F32.low_abs]) (by rwa [F32.isFinite, F32.low_abs]) (F32.sign_abs y)).2

end

namespace Machine

open Sys2Proof.Claims

/-! ### MIX (R183) -/

/-- A mixer's sum is at most 16: eight terms of at most `1 * 2 * 1`. -/
theorem low_mixedChannel_le (s : State) {gain : F32 → F32}
    (hgain : ∀ pan, F32.Within Lit.n1 Lit.c1 (gain (panAngle pan))) :
    F32.low (mixedChannel s gain) ≤ F32.low Lit.c16 := by
  have hterm (i : Slot) : F32.low (F32.mul (F32.mul (framedVoice s i).2 (levelOf s.slots[i]))
      (gain (panAngle s.slots[i].pan))) ≤ F32.low Lit.c2 := by
    have hlevel : F32.Within Lit.c0 Lit.c2 (levelOf s.slots[i]) := clamp_within (by decide) _
    have hsample : F32.Within Lit.n1 Lit.c1 (framedVoice s i).2 := voiceSampleInUnitRange ..
    exact F32.low_mul_le_of (F32.low_mul_le_of (m := F32.low Lit.c2) (F32.low_le_of_within_of_neg_le hsample)
      (F32.low_le_of_within_of_neg_le hlevel)) (F32.low_le_of_within_of_neg_le (hgain _))
  have htwo : F32.magOf (F32.low Lit.c2) = 2 ^ 150 := by decide +kernel
  have hsum := F32.foldl_add_mag_le (q := 150) (by decide)
    (fun i => ⟨F32.isFinite_of_low_le (by decide) (hterm i), by
      rw [F32.mag_eq, ← htwo]
      exact F32.magOf_mono (hterm i)⟩) allSlots (n := 0) (acc := Lit.c0) (by decide) (by decide)
  have hsixteen : (0 + allSlots.length) * 2 ^ 150 = F32.magOf (F32.low Lit.c16) := by decide +kernel
  obtain ⟨hfin, hmag⟩ := hsum
  rw [hsixteen, F32.mag_eq, F32.magOf_le_iff (F32.isFinite_iff.mp hfin).le] at hmag
  exact hmag

/-! ### Saturation and compressor (R192, R194, R195) -/

/-- Saturation leaves what is at most 16 at most 16: engaged, its output is at most 1. -/
theorem low_sat_le (m : MasterParams) {l r : F32} (hl : F32.low l ≤ F32.low Lit.c16)
    (hr : F32.low r ≤ F32.low Lit.c16) :
    F32.low (sat m l r).1 ≤ F32.low Lit.c16 ∧ F32.low (sat m l r).2 ≤ F32.low Lit.c16 := by
  cases hb : bypassed m.drive
  case true =>
    rw [sat_bypassed hb]
    exact ⟨hl, hr⟩
  case false =>
    have hmakeup := (satMakeup_sign_low (amount_within (Bool.eq_false_iff.mp hb))).2.le
    have hchannel (x : F32) : F32.low (satChannel (clamp01 m.drive) x) ≤ F32.low Lit.c16 :=
      F32.low_mul_le_of (low_softsat_le _) hmakeup
    rw [sat_eq hb]
    exact ⟨hchannel l, hchannel r⟩

theorem compTarget_within (N : Numerics) (a ov : F32) : F32.Within Lit.c0 Lit.c1 (compTarget N a ov) := by
  unfold compTarget
  split
  case isTrue => exact clamp_within (by decide) _
  case isFalse => decide

/-- The new gain is the mean of two values in [0, 1]. -/
theorem compNext_gain_within (N : Numerics) (a : F32) {c : Comp} (l r : F32) (hg : F32.Within Lit.c0 Lit.c1 c.gain) :
    F32.Within Lit.c0 Lit.c1 (compNext N a c l r).gain := by
  have hhalf {x : F32} (hx : F32.Within Lit.c0 Lit.c1 x) : F32.Within Lit.c0 Lit.c0_5 (F32.mul Lit.c0_5 x) :=
    F32.within_mul F32.within_self hx
  exact F32.within_add (hhalf hg) (hhalf (compTarget_within N a _))

section

variable (N : Numerics) (m : MasterParams) {c : Comp} {l r : F32} (hg : F32.Within Lit.c0 Lit.c1 c.gain)

include hg

theorem compStep_gain_within : F32.Within Lit.c0 Lit.c1 (compStep N m c l r).1.gain := by
  cases hb : bypassed m.comp
  case true => rwa [compStep_bypassed N hb]
  case false =>
    rw [compStep_eq N hb]
    exact compNext_gain_within N _ l r hg

/-- The compressor makes neither channel larger. -/
theorem low_compStep_le (hl : F32.isFinite l = true) (hr : F32.isFinite r = true) :
    F32.low (compStep N m c l r).2.1 ≤ F32.low l ∧ F32.low (compStep N m c l r).2.2 ≤ F32.low r := by
  cases hb : bypassed m.comp
  case true =>
    rw [compStep_bypassed N hb]
    exact ⟨le_rfl, le_rfl⟩
  case false =>
    have hgain := F32.low_le_of_within_of_neg_le (compNext_gain_within N (clamp01 m.comp) l r hg)
    rw [compStep_eq N hb]
    exact ⟨F32.low_mul_le_left hl hgain, F32.low_mul_le_left hr hgain⟩

end

/-- Settles O51: `compStep_gain_within` and `low_compStep_le`. -/
theorem compressorNeverIncreases : Obligations.CompressorNeverIncreases := by
  intro N m c l r hg hl hr
  obtain ⟨hleft, hright⟩ := low_compStep_le N m hg hl hr
  exact ⟨compStep_gain_within N m hg, F32.abs_le_abs hleft hl, F32.abs_le_abs hright hr⟩

/-- The compressor keeps its ranges on inputs of at most 16, with coefficients in [0, 1]. -/
theorem compStep_inRange (N : Numerics) (m : MasterParams) {c : Comp} {l r : F32} (hc : c.InRange)
    (hatt : F32.Within Lit.c0 Lit.c1 c.att) (hrel : F32.Within Lit.c0 Lit.c1 c.rel) (hl : F32.low l ≤ F32.low Lit.c16)
    (hr : F32.low r ≤ F32.low Lit.c16) : (compStep N m c l r).1.InRange := by
  refine ⟨?_, compStep_gain_within N m hc.gain⟩
  cases hb : bypassed m.comp
  case true =>
    rw [compStep_bypassed N hb]
    exact hc.env
  case false =>
    have hinput : F32.Within Lit.c0 Lit.c16 (fmax (F32.abs l) (F32.abs r)) := by
      unfold fmax
      split
      case isTrue => exact F32.abs_within hl
      case isFalse => exact F32.abs_within hr
    rw [compStep_eq N hb]
    refine F32.weighted_within ?_ hc.env hinput
    split
    case isTrue => exact hatt
    case isFalse => exact hrel

end Machine

end Sys2Proof

end

section
/-! PROOFS. The whole machine in its ranges (10_state.md R21, R39; 43_masterbus.md R198; 70_reset_and_hazards.md R273):
the reverb's words and outputs, a frame, every step, and what a step outputs. -/

namespace Sys2Proof.Machine

open Sys2Proof.Claims

/-! ### Reverb (R197, R198) -/

theorem DelayLine.low_get_le {m : DelayLine} (h : DelayLine.InRange m) (k : Nat) :
    F32.low (DelayLine.get m k) ≤ F32.low Lit.c26_75 := by
  induction m with
  | nil =>
    show F32.low Lit.c0 ≤ F32.low Lit.c26_75
    decide
  | cons c rest ih =>
    obtain ⟨a, x⟩ := c
    obtain ⟨hx, hrest⟩ := List.forall_mem_cons.mp h
    rw [DelayLine.get]
    split
    case isTrue => exact F32.low_le_of_absLe hx
    case isFalse => exact ih hrest

theorem DelayLine.inRange_put {m : DelayLine} (h : DelayLine.InRange m) (k : Nat) {v : F32}
    (hv : F32.low v ≤ F32.low Lit.c26_75) : DelayLine.InRange (DelayLine.put m k v) := by
  intro c hc
  rcases DelayLine.mem_put hc with hc | ⟨rfl, -⟩
  · exact h c hc
  · exact F32.absLe_of_low_le hv

/-- The weights of the two taps add up to 1. -/
theorem low_wetOf_le {t1 t2 : F32} (h1 : F32.low t1 ≤ F32.low Lit.c26_75) (h2 : F32.low t2 ≤ F32.low Lit.c26_75) :
    F32.low (wetOf t1 t2) ≤ F32.low Lit.c26_75 :=
  F32.low_add_le_of (F32.low_mul_le_of (m := F32.low (F32.mul Lit.c0_7 Lit.c26_75)) (le_refl (F32.low Lit.c0_7)) h1)
    (F32.low_mul_le_of (m := F32.low (F32.mul Lit.c0_3 Lit.c26_75)) (le_refl (F32.low Lit.c0_3)) h2)
    (by decide +kernel) (by decide +kernel)

/-- The dry gain `1 - 0.6 a` by its value at the least amount. -/
theorem low_dryGain_le {a lo d : F32} (ha : F32.Within lo Lit.c1 a) (hlo : F32.isFinite lo = true := by decide)
    (hlo0 : 0 ≤ F32.val lo := by decide) (hmul : F32.isFinite (F32.mul lo Lit.c0_6) = true := by decide +kernel)
    (hnan : F32.isNaN (F32.mul lo Lit.c0_6) = false := by decide +kernel)
    (hd : F32.le (F32.sub Lit.c1 (F32.mul lo Lit.c0_6)) d = true := by decide +kernel)
    (hd0 : -F32.key d ≤ F32.key Lit.c0 := by decide) : F32.low (F32.sub Lit.c1 (F32.mul a Lit.c0_6)) ≤ F32.low d := by
  have hscaled : F32.Within (F32.mul lo Lit.c0_6) Lit.c0_6 (F32.mul a Lit.c0_6) :=
    F32.within_mul ha F32.within_self hlo (by decide) (by decide) (by decide) hlo0 (by decide) (F32.le_self hnan)
  have hgain : F32.Within Lit.c0 d (F32.sub Lit.c1 (F32.mul a Lit.c0_6)) :=
    F32.within_sub F32.within_self hscaled (by decide) (by decide) hmul (by decide) (by decide +kernel) hd
  exact F32.low_le_of_within_of_neg_le hgain hd0

section

variable {l r wet : F32} (hl : F32.low l ≤ F32.low Lit.c16)
  (hw : F32.low wet ≤ F32.low Lit.c26_75)

include hl hw

/-- A fed word: at most 16 of the mono mix and 0.4 of 26.75. -/
theorem low_fedWord_le (hr : F32.low r ≤ F32.low Lit.c16) : F32.low (fedWord (monoMix l r) wet) ≤ F32.low Lit.c26_75 :=
  F32.low_add_le_of
    (F32.low_mul_le_of (m := F32.low Lit.c16) (le_refl (F32.low Lit.c0_5)) (F32.low_add_le_of (m := 0x42000000) hl hr))
    (F32.low_mul_le_of (m := 0x412C0000) hw (le_refl (F32.low Lit.c0_4)))

/-- An output channel stays below 34: at amount `a` it is at most `16 * (1 - 0.6 a) + 26.75 a`, which is 33.15 at 1. The
dry gain is bounded at the lower and the amount at the upper end of an interval; three intervals, cut at 0.67 and 0.913,
are narrow enough. -/
theorem low_wetDry_le {a : F32} (ha : F32.Within Lit.c0 Lit.c1 a) : F32.low (wetDry a l wet) ≤ 0x4207FFFF := by
  have hnan := (F32.le_iff.mp ha.1).2.1
  have habove {c : F32} (hc : F32.isNaN c = false) (h : F32.le a c = false) : F32.Within c Lit.c1 a :=
    ⟨F32.le_of_lt (F32.lt_of_not_le hnan hc h), ha.2⟩
  cases hlow : F32.le a 0x3F2B851F#32
  case true =>
    exact F32.low_add_le_of (F32.low_mul_le_of (m := 0x41800000) hl (low_dryGain_le (d := Lit.c1) ha))
      (F32.low_mul_le_of (m := 0x418F999A) hw (F32.low_le_of_within_of_neg_le ⟨ha.1, hlow⟩))
  cases hmid : F32.le a 0x3F69BA5E#32
  case true =>
    exact F32.low_add_le_of
      (F32.low_mul_le_of (m := 0x41193333) hl (low_dryGain_le (d := 0x3F191D15#32) (habove (by decide) hlow)))
      (F32.low_mul_le_of (m := 0x41C3645A) hw (F32.low_le_of_within_of_neg_le ⟨ha.1, hmid⟩))
  case false =>
    exact F32.low_add_le_of
      (F32.low_mul_le_of (m := 0x40E7AE14) hl (low_dryGain_le (d := 0x3EE793DE#32) (habove (by decide) hmid)))
      (F32.low_mul_le_of (m := 0x41D60000) hw (F32.low_le_of_within_of_neg_le ha))

end

/-- What the reverb keeps of its words and how large its outputs are, on inputs of at most 16. -/
theorem revStep_bounded (m : MasterParams) {rv : Reverb} {l r : F32} (hl : F32.low l ≤ F32.low Lit.c16)
    (hr : F32.low r ≤ F32.low Lit.c16) (hrvl : DelayLine.InRange rv.rvl) (hrvr : DelayLine.InRange rv.rvr) :
    (DelayLine.InRange (revStep m rv l r).1.rvl ∧ DelayLine.InRange (revStep m rv l r).1.rvr) ∧
    F32.low (revStep m rv l r).2.1 ≤ 0x4207FFFF ∧ F32.low (revStep m rv l r).2.2 ≤ 0x4207FFFF := by
  cases hb : bypassed m.reverb
  case true =>
    have hsixteen : F32.low Lit.c16 ≤ 0x4207FFFF := by decide
    rw [revStep_bypassed hb]
    exact ⟨⟨hrvl, hrvr⟩, hl.trans hsixteen, hr.trans hsixteen⟩
  case false =>
    have hwl : F32.low (wetLeft rv) ≤ F32.low Lit.c26_75 :=
      low_wetOf_le (DelayLine.low_get_le hrvl _) (DelayLine.low_get_le hrvl _)
    have hwr : F32.low (wetRight rv) ≤ F32.low Lit.c26_75 :=
      low_wetOf_le (DelayLine.low_get_le hrvr _) (DelayLine.low_get_le hrvr _)
    have ha := clamp01_within m.reverb
    rw [revStep_eq hb]
    exact ⟨⟨DelayLine.inRange_put hrvl _ (low_fedWord_le hl hwl hr),
        DelayLine.inRange_put hrvr _ (low_fedWord_le hl hwr hr)⟩,
      low_wetDry_le hl hwl ha, low_wetDry_le hr hwr ha⟩

/-! ### A frame -/

/-- The coefficients a structured state holds lie in [0, 1]. -/
theorem State.Structured.coefs_within {s : State} (h : s.Structured) :
    F32.Within Lit.c0 Lit.c1 s.comp.att ∧ F32.Within Lit.c0 Lit.c1 s.comp.rel := by
  obtain ⟨hatt, hrel, -, -⟩ := h.derived
  have hcoef {t : F32} (ht : F32.Within Lit.c0_001 0x42B40000#32 t) :=
    (poleCoef_within Config.params_admissible.num h.rate ht).1
  rw [hatt, hrel]
  exact ⟨hcoef (t := Config.compAttackS) (by decide), hcoef (t := Config.compReleaseS) (by decide)⟩

/-- In a frame the master bus is fed sums of at most 16, so it keeps its ranges and its samples are below 34. -/
theorem masteredMix_bounded {s : State} (h : s.Sound) :
    (masteredMix s).1.InRange ∧
    (DelayLine.InRange (masteredMix s).2.1.rvl ∧ DelayLine.InRange (masteredMix s).2.1.rvr) ∧
    F32.low (masteredMix s).2.2.1 ≤ 0x4207FFFF ∧ F32.low (masteredMix s).2.2.2 ≤ 0x4207FFFF := by
  obtain ⟨hstruct, -, hcomp, hrvl, hrvr⟩ := h
  obtain ⟨hatt, hrel⟩ := hstruct.coefs_within
  have hN := Config.params_admissible.num
  have hleft := low_mixedChannel_le s (gain := Config.params.num.cos) fun pan => (panGains_within hN pan).1
  have hright := low_mixedChannel_le s (gain := Config.params.num.sin) fun pan => (panGains_within hN pan).2
  have hsat := low_sat_le s.master hleft hright
  have hfinite {x : F32} (hx : F32.low x ≤ F32.low Lit.c16) : F32.isFinite x = true :=
    F32.isFinite_of_low_le (by decide) hx
  have hout := low_compStep_le Config.params.num s.master hcomp.gain (hfinite hsat.1) (hfinite hsat.2)
  rw [masteredMix_eq]
  exact ⟨compStep_inRange Config.params.num s.master hcomp hatt hrel hsat.1 hsat.2,
    revStep_bounded s.master (hout.1.trans hsat.1) (hout.2.trans hsat.2) hrvl hrvr⟩

theorem framed_inRange {s : State} (h : s.Sound) : (framed s).InRange := by
  obtain ⟨hcomp, ⟨hrvl, hrvr⟩, -⟩ := masteredMix_bounded h
  refine ⟨fun i => ?_, ?_, ?_, ?_⟩
  · rw [framed_voices]
    exact framedVoice_inRange h.structured.rate (h.inRange.voices i)
  · rwa [framed_comp]
  · rwa [framed_rev]
  · rwa [framed_rev]

/-! ### Every instruction keeps the ranges -/

theorem Comp.atRate_inRange (C : Params) (sr : F32) : (Comp.atRate C sr).InRange where
  env := by
    show F32.Within Lit.c0 Lit.c16 Lit.c0
    decide
  gain := one_within_unit

/-- The ranges are about no more than these parts of the state. -/
theorem State.InRange.congr {s t : State} (h : s.InRange) (hv : t.voices = s.voices) (hc : t.comp = s.comp)
    (hr : t.rev = s.rev) : t.InRange := by
  obtain ⟨hvoices, hcomp, hrvl, hrvr⟩ := h
  refine ⟨fun i => ?_, ?_, ?_, ?_⟩
  · rw [hv]
    exact hvoices i
  · rwa [hc]
  · rwa [hr]
  · rwa [hr]

theorem resetOp_inRange (s : State) : (resetOp Config.params s).InRange where
  voices i := by
    rw [resetOp_voices]
    exact Voice.reset_inRange _ i
  comp := Comp.atRate_inRange ..
  rvl := by simp [resetOp, State.resetWith, Reverb.atRate]
  rvr := by simp [resetOp, State.resetWith, Reverb.atRate]

theorem setRate_inRange {s : State} (h : s.InRange) (d : F32) : (setRate Config.params d s).InRange := by
  rw [setRate_eq]
  refine ⟨fun i => ?_, Comp.atRate_inRange .., by simp [Reverb.atRate], by simp [Reverb.atRate]⟩
  simpa using silenced_inRange (h.voices i)

theorem rendered_inRange {s : State} (h : s.Sound) (k : Slot) : (s.rendered k (bankRender s k)).InRange := by
  refine ⟨fun i => ?_, h.inRange.comp, h.inRange.rvl, h.inRange.rvr⟩
  by_cases hi : i = k
  · subst hi
    rw [State.rendered_same]
    exact (bankRender_rendered h.structured.rate (h.inRange.voices i)).1
  · rw [State.rendered_other s k _ hi]
    exact h.inRange.voices i

theorem leads_inRange {s t : State} {i : Instr} (h : s.Sound) (hl : Leads s i t) : t.InRange := by
  cases hl
  case nop => exact h.inRange
  case reset => exact resetOp_inRange s
  case setrate d => exact setRate_inRange h.inRange d
  case framed => exact framed_inRange h
  case rendered k => exact rendered_inRange h k
  case stored => exact h.inRange.congr (State.writeParam_voices ..) (State.writeParam_comp ..) (State.writeParam_rev ..)
  case blkbegin => exact h.inRange.congr (by rw [blockBegin_eq]) (by rw [blockBegin_eq]) (by rw [blockBegin_eq])
  case dropped | badSlot | full | queued | outside | rdstat => exact h.inRange.congr rfl rfl rfl

/-- Soundness does not depend on what is presented. -/
theorem State.Sound.withPort {s : State} (h : s.Sound) (rest : List Presented) : (s.withPort rest).Sound :=
  ⟨h.structured.congr rfl rfl rfl rfl rfl rfl rfl, h.inRange.congr rfl rfl rfl⟩

/-- Settles O56: the word a step consumes and the flag of a rejected one are in no range; the rest is
`leads_inRange`. -/
theorem rangesKeptByEveryStep : Obligations.RangesKeptByEveryStep := by
  intro s t h ht
  rcases step_cases ht with rfl | ⟨rest, rfl⟩ | ⟨rest, i, hl⟩
  · exact h.inRange
  · exact h.inRange.congr rfl rfl rfl
  · exact leads_inRange (h.withPort rest) hl

/-- Settles O53: reset writes a state in structure and in its ranges. -/
theorem resetIsSound : Obligations.ResetIsSound :=
  ⟨resetOp_structured State.reset, resetOp_inRange State.reset⟩

/-! ### What a step outputs (R273) -/

/-- The two samples of a frame record are its halves. -/
theorem frameRecord_halves (l r : F32) :
    (frameRecord l r).extractLsb' 32 32 = l ∧ (frameRecord l r).extractLsb' 0 32 = r := by
  obtain ⟨hright, hleft⟩ := extractLsb'_frameRecord l r (k := 0) (n := 32) (by decide)
  exact ⟨hleft.trans BitVec.extractLsb'_eq_self, hright.trans BitVec.extractLsb'_eq_self⟩

theorem below_34_of_low_le {x : F32} (h : F32.low x ≤ 0x4207FFFF) :
    F32.isFinite x = true ∧ F32.lt (F32.abs x) Lit.c34 = true := by
  obtain ⟨hfin, hle⟩ := F32.absLe_of_low_le (b := 0x4207FFFF#32) h
  obtain ⟨hnan, -, hkey⟩ := F32.le_iff.mp hle
  exact ⟨hfin, F32.lt_iff.mpr ⟨hnan, by decide, hkey.trans_lt (by decide)⟩⟩

theorem framed_output_bounded {s : State} (h : s.Sound) :
    (Output.emit (frameRecord (masteredMix s).2.2.1 (masteredMix s).2.2.2)).Bounded := by
  obtain ⟨-, -, hl, hr⟩ := masteredMix_bounded h
  obtain ⟨hleft, hright⟩ := frameRecord_halves (masteredMix s).2.2.1 (masteredMix s).2.2.2
  obtain ⟨hlf, hllt⟩ := below_34_of_low_le hl
  obtain ⟨hrf, hrlt⟩ := below_34_of_low_le hr
  rw [Output.Bounded, hleft, hright]
  exact ⟨hlf, hllt, hrf, hrlt⟩

/-- An instruction outputs nothing or one value, and that is bounded. -/
theorem leads_output_bounded {s t : State} {i : Instr} (h : s.Sound) (hl : Leads s i t) :
    t.out = s.out ∨ ∃ o : Output, t.out = s.out ++ [o] ∧ o.Bounded := by
  cases hl
  case framed => exact .inr ⟨_, framed_out s, framed_output_bounded h⟩
  case rdstat => exact .inr ⟨_, rfl, trivial⟩
  case rendered k =>
    exact .inr ⟨_, rfl, F32.absLe_of_low_le (bankRender_rendered h.structured.rate (h.inRange.voices k)).2⟩
  case setrate => exact .inl (by rw [setRate_eq])
  case stored => exact .inl (State.writeParam_out ..)
  case blkbegin => exact .inl (by rw [blockBegin_eq])
  case nop | reset | dropped | badSlot | full | queued | outside => exact .inl rfl

/-- Settles O57: `leads_output_bounded`; an idle step and a rejected word output nothing. -/
theorem outputsBounded : Obligations.OutputsBounded := by
  intro s t h ht
  have hcases : t.out = s.out ∨ ∃ o : Output, t.out = s.out ++ [o] ∧ o.Bounded := by
    rcases step_cases ht with rfl | ⟨rest, rfl⟩ | ⟨rest, i, hl⟩
    · exact .inl rfl
    · exact .inl rfl
    · have hout := leads_output_bounded (h.withPort rest) hl
      exact hout
  rcases hcases with hnone | ⟨o, hout, ho⟩
  · exact ⟨[], by simp [hnone], by simp, by simp⟩
  · exact ⟨[o], hout, le_rfl, by simpa using ho⟩

end Sys2Proof.Machine

end
